-- ==== Sys2Proof/Config.lean ====
section
/-! DEFINITION. The parameters of the block (rule R8), at the values the spec takes for the reference block, and the
free values: constants without a body, for what the spec leaves unspecified (93_implementation_defined.md U8, U9, U12). -/

namespace Sys2Proof

/-- `SYM_W`: width of a character code (R8). -/
abbrev SYM_W : Nat := 8

/-- `NSYM`: entries of the frequency table and of the code table (R8). -/
abbrev NSYM : Nat := 256

/-- `FREQ_W`: width of one frequency-table entry (R8, decision D3: a parameter, default 32). -/
abbrev FREQ_W : Nat := 32

/-- `NFREQ_W = FREQ_W + 8`: width of a node's frequency (R8; the equation is `Laws.nfreqW_eq`). -/
abbrev NFREQ_W : Nat := 40

/-- `NNODE = 2 * NSYM - 1`: records of the node memory (R8, R133). -/
abbrev NNODE : Nat := 511

/-- `IDX_W`: width of a node index (R8). -/
abbrev IDX_W : Nat := 9

/-- `CNT_W`: width of `NCOUNT` (R8). -/
abbrev CNT_W : Nat := 10

/-- `CODE_MAX = NSYM - 1`: the greatest code length in bits (R8, R164). -/
abbrev CODE_MAX : Nat := 255

/-- `LEN_W`: width of a code-length field (R8). -/
abbrev LEN_W : Nat := 8

/-- `CW_W`: width of the command word (R8, R70). -/
abbrev CW_W : Nat := 16

/-- `ST_W`: width of the response status (R8, R75). -/
abbrev ST_W : Nat := 4

/-- `RSP_W = max (LEN_W + CODE_MAX) (27 + NFREQ_W)`: width of the response data (R8, R75; `Laws.rspW_eq`). -/
abbrev RSP_W : Nat := 263

/-- Width of one node record (R52), in the layout in which `RDN` reports it (R78). -/
abbrev NODE_W : Nat := 67

/-- Width of one code record (R53), in the layout in which `RDC` reports it (R78). -/
abbrev CODE_W : Nat := 263

/-- FREE VALUE (R22, R40, U8; notes/assumptions/4.md). What a record of `NODE` that holds no valid content would read
as. No command of a reachable state reads one. -/
opaque Config.freeNodeBits : Nat → BitVec 67

/-- FREE VALUE (R23, R40, U8; notes/assumptions/4.md). What a record of `CT` would read as while `CV = 0`. No command
reads one. -/
opaque Config.freeCodeBits : Nat → BitVec 263

/-- FREE VALUE (R270, U9; notes/assumptions/8.md). `LAT - 1` of the n-th command the port accepts. -/
opaque Config.freeLatency : Nat → Nat

/-- FREE VALUE (R260; notes/assumptions/8.md). How many clock edges pass after the n-th reset before `cmd_ready`. -/
opaque Config.freeStartDelay : Nat → Nat

end Sys2Proof
end

