-- ==== Sys2Proof/Word.lean ====
section
/-! DEFINITION. The words and records the block moves: character codes, counts, node and code records, command and
response transfers (10_state.md section 2, 30_encoding.md sections 1, 2 and 6). -/

namespace Sys2Proof

/-- A character code, `SYM_W` bits (R8, R15; `Laws.widths_eq`). -/
abbrev Sym := BitVec 8

/-- An entry of the frequency table, `FREQ_W` bits (R21). -/
abbrev Count := BitVec 32

/-- A node's frequency, `NFREQ_W` bits (R22, R137). -/
abbrev NodeFreq := BitVec 40

/-- A node index, `IDX_W` bits (R16, R22). -/
abbrev NodeIdx := BitVec 9

/-- The response data word, `RSP_W` bits (R75). -/
abbrev RspData := BitVec 263

/-- An element-indexed memory as plain data: pairs of index and element, indices strictly rising (R50: there is no
byte-addressed memory, so the elements are whole records and never bytes). -/
abbrev Memory (α : Type) := List (Nat × α)

/-- One record of `NODE` (R22). -/
structure NodeRec where
  /-- `char_code`: a leaf's code; for an internal node the least code of its leaves. -/
  cc : Sym
  /-- `frequency`. -/
  fq : NodeFreq
  /-- 1 for a leaf, 0 for an internal node. -/
  lf : Bool
  /-- Index of the left child; 0 for a leaf. -/
  lc : NodeIdx
  /-- Index of the right child; 0 for a leaf. -/
  rc : NodeIdx
deriving DecidableEq, Repr

/-- One record of `CT` (R23): bit `i` of the code is `bits[i]` for `i < len`, and the bits from `len` on are 0. -/
structure CodeRec where
  len : BitVec 8
  bits : BitVec 255
deriving DecidableEq, Repr

/-- `TK` without the value 3 that is never held (R26, U11). -/
inductive TreeKind where
  /-- `NONE`: no tree. -/
  | noTree
  /-- `SINGLE`: one childless root. -/
  | single
  /-- `GENERAL`: an internal root. -/
  | general
deriving DecidableEq, Repr

/-- Response status and content of `ERR` (R77), without the codes 8 to 15 that are never produced (U11). -/
inductive Status where
  | ok
  | illegal
  | notree
  | kind
  | nocode
  | idle
  | range
  | corrupt
deriving DecidableEq, Repr

/-- One transfer on the command port (R70): the command word and the write-data word. -/
structure Command where
  cw : BitVec 16
  wd : Count
deriving DecidableEq, Repr

/-- One transfer on the response port (R75). -/
structure Response where
  status : Status
  data : RspData
deriving DecidableEq, Repr

/-- What the world outside may do to the block, one item per step (R7, R87, R260, R261). -/
inductive HostInput where
  /-- A command is presented, accepted and runs to completion (R58). -/
  | command (c : Command)
  /-- `rst = 1` at a clock edge with no command in flight (R260). -/
  | reset
  /-- A command is accepted and `rst = 1` is sampled before its response is taken (R261). -/
  | resetDuring (c : Command)
deriving DecidableEq, Repr

end Sys2Proof
end

