-- ==== Sys2Proof/Syntax.lean ====
section
/-! DEFINITION. The twelve commands (R76), one constructor per row of spec/opcode_table.json, with their operands
(R73). The types carry the operand widths, so every value of `Instr` is a command the block knows. -/

namespace Sys2Proof

/-- A command of `HUFF-CMD 1.0`. -/
inductive Instr where
  /-- `NOP` (R100). -/
  | nop
  /-- `CLR` (R101). -/
  | clr
  /-- `LDF sym, val` (R102). -/
  | ldf (sym : Sym) (val : Count)
  /-- `RDF sym` (R103). -/
  | rdf (sym : Sym)
  /-- `BUILD` (R130). -/
  | build
  /-- `RDN idx` (R136). -/
  | rdn (idx : NodeIdx)
  /-- `GENCODE` (R163). -/
  | gencode
  /-- `RDC sym` (R167). -/
  | rdc (sym : Sym)
  /-- `DSTART` (R181). -/
  | dstart
  /-- `DBIT b` (R182): `false` is the bit 0, descend left; `true` is the bit 1, descend right. -/
  | dbit (b : Bool)
  /-- `DEND` (R183). -/
  | dend
  /-- `RDS` (R104). -/
  | rds
deriving DecidableEq, Repr

end Sys2Proof
end

