-- ==== Sys2Proof/WellFormed.lean ====
section
/-! DEFINITION. Well-formedness of commands as a host writes them (R84): the operands of a written line are numbers of
any size, and a line stands for a command only where each operand fits its field (R72, R73). `Instr` itself needs no
check: its operand types are exactly the fields. -/

namespace Sys2Proof

/-- A command line in the notation of R84: the mnemonic and its operands as plain numbers. -/
inductive AsmLine where
  | nop
  | clr
  | ldf (sym val : Nat)
  | rdf (sym : Nat)
  | build
  | rdn (idx : Nat)
  | gencode
  | rdc (sym : Nat)
  | dstart
  | dbit (b : Nat)
  | dend
  | rds
deriving DecidableEq, Repr

/-- Why a written line stands for no command. -/
inductive AsmError where
  /-- A symbol above 255: "characters outside 0–255" cannot be expressed (R62, U1). -/
  | symbolTooLarge
  /-- A count that does not fit in `FREQ_W` bits cannot be presented (R102 corner case 4, R213). -/
  | countTooLarge
  /-- A node index above 511 does not fit the 9-bit field (R73). -/
  | indexTooLarge
  /-- A bit operand other than 0 and 1 (R73). -/
  | bitTooLarge
deriving DecidableEq, Repr

/-- The first check a written line fails, if any. -/
def AsmLine.problem : AsmLine → Option AsmError
  | .nop | .clr | .build | .gencode | .dstart | .dend | .rds => none
  | .ldf sym val =>
    if 2 ^ 8 ≤ sym then some .symbolTooLarge
    else if 2 ^ FREQ_W ≤ val then some .countTooLarge
    else none
  | .rdf sym | .rdc sym => if 2 ^ 8 ≤ sym then some .symbolTooLarge else none
  | .rdn idx => if 2 ^ 9 ≤ idx then some .indexTooLarge else none
  | .dbit b => if 2 ≤ b then some .bitTooLarge else none

/-- A written line that stands for a command. -/
abbrev AsmLine.WellFormed (l : AsmLine) : Prop := l.problem = none

/-- The command of a line, its operands cut to their fields; `AsmLine.assemble` uses it on well-formed lines only. -/
def AsmLine.instr : AsmLine → Instr
  | .nop => .nop
  | .clr => .clr
  | .ldf sym val => .ldf (BitVec.ofNat 8 sym) (BitVec.ofNat 32 val)
  | .rdf sym => .rdf (BitVec.ofNat 8 sym)
  | .build => .build
  | .rdn idx => .rdn (BitVec.ofNat 9 idx)
  | .gencode => .gencode
  | .rdc sym => .rdc (BitVec.ofNat 8 sym)
  | .dstart => .dstart
  | .dbit b => .dbit (b == 1)
  | .dend => .dend
  | .rds => .rds

/-- The command a written line stands for; an ill-formed line is refused by name, never cut to fit. -/
def AsmLine.assemble (l : AsmLine) : Except AsmError Instr :=
  match l.problem with
  | some e => .error e
  | none => .ok l.instr

end Sys2Proof
end

