-- ==== Sys2Proof/Decode.lean ====
section
/-! DEFINITION. The decoder (R83), total on all command words, its rejections by name (R79, R80), and after it the
encoder and the opcode map as a table of mask and match (R76, R84, R88). -/

namespace Sys2Proof

/-- Why a command word is illegal. The block answers `E_ILLEGAL` for each alike (R81). -/
inductive Illegal where
  /-- `CW[11:9]` is not 0 (R80). -/
  | reservedField
  /-- Opcode 0xC to 0xF (R79). -/
  | reservedOpcode
  /-- An operand bit that the format marks "must be 0" is 1 (R72, R80). -/
  | operandBit
deriving DecidableEq, Repr

/-- `op = CW[15:12]` (R71). -/
def opField (cw : BitVec 16) : BitVec 4 := cw.extractLsb' 12 4

/-- `rsv = CW[11:9]` (R71). -/
def rsvField (cw : BitVec 16) : BitVec 3 := cw.extractLsb' 9 3

/-- `arg = CW[8:0]` (R71); as it stands it is the operand `idx` of format X (R73). -/
def argField (cw : BitVec 16) : BitVec 9 := cw.extractLsb' 0 9

/-- `sym = CW[7:0]` (R73). -/
def symField (cw : BitVec 16) : Sym := cw.extractLsb' 0 8

/-- Format N: all of `arg` must be 0 (R72). -/
def decodeN (cw : BitVec 16) (i : Instr) : Except Illegal Instr :=
  if argField cw ≠ 0 then .error .operandBit else .ok i

/-- Formats S and W: `arg[8]` must be 0, the rest is `sym` (R72). -/
def decodeS (cw : BitVec 16) (i : Sym → Instr) : Except Illegal Instr :=
  if (argField cw).getLsbD 8 then .error .operandBit else .ok (i (symField cw))

/-- Format B: `arg[8:1]` must be 0, `arg[0]` is `b` (R72). -/
def decodeB (cw : BitVec 16) (i : Bool → Instr) : Except Illegal Instr :=
  if (argField cw).extractLsb' 1 8 ≠ 0 then .error .operandBit else .ok (i ((argField cw).getLsbD 0))

/-- The decode procedure (R83). It reads no state. -/
def decode (c : Command) : Except Illegal Instr :=
  if rsvField c.cw ≠ 0 then .error .reservedField
  else match (opField c.cw).toNat with
    | 0x0 => decodeN c.cw .nop
    | 0x1 => decodeN c.cw .clr
    | 0x2 => decodeS c.cw (fun sym => .ldf sym c.wd)
    | 0x3 => decodeS c.cw .rdf
    | 0x4 => decodeN c.cw .build
    | 0x5 => .ok (.rdn (argField c.cw))
    | 0x6 => decodeN c.cw .gencode
    | 0x7 => decodeS c.cw .rdc
    | 0x8 => decodeN c.cw .dstart
    | 0x9 => decodeB c.cw .dbit
    | 0xA => decodeN c.cw .dend
    | 0xB => decodeN c.cw .rds
    | _ => .error .reservedOpcode

/-- The command whose bits, numbered as spec/opcode_table.json numbers them, are `w`: the 16 bits of `CW` first, then
the `FREQ_W` bits of `WD` (R70); bits from `nbits` on are 0. -/
def tableCommand (nbits w : Nat) : Command :=
  let v := w % 2 ^ nbits
  { cw := BitVec.ofNat 16 v, wd := BitVec.ofNat 32 (v >>> 16) }

/-- The command the decoder reads from an instruction whose bits are `w`. -/
def decodeTableWord (nbits w : Nat) : Option Instr :=
  match decode (tableCommand nbits w) with
  | .ok i => some i
  | .error _ => none

/-- The command word of a command, from the table of R84. -/
def encodeWord : Instr → BitVec 16
  | .nop => 0x0000
  | .clr => 0x1000
  | .ldf sym _ => 0x2000 + sym.setWidth 16
  | .rdf sym => 0x3000 + sym.setWidth 16
  | .build => 0x4000
  | .rdn idx => 0x5000 + idx.setWidth 16
  | .gencode => 0x6000
  | .rdc sym => 0x7000 + sym.setWidth 16
  | .dstart => 0x8000
  | .dbit b => 0x9000 + (BitVec.ofBool b).setWidth 16
  | .dend => 0xA000
  | .rds => 0xB000

/-- The write-data word of a command: `val` for `LDF`, and 0 for every other (R84). -/
def encodeData : Instr → Count
  | .ldf _ val => val
  | .nop | .clr | .rdf _ | .build | .rdn _ | .gencode | .rdc _ | .dstart | .dbit _ | .dend | .rds => 0

/-- The transfer that presents a command (R84). -/
def encode (i : Instr) : Command := { cw := encodeWord i, wd := encodeData i }

/-- A row of the opcode map: a word `w` selects it when `w AND mask = match` (R76). -/
structure OpcodeRow where
  mask : BitVec 16
  value : BitVec 16
deriving DecidableEq, Repr

/-- `w` selects the row (R76). -/
def OpcodeRow.selects (r : OpcodeRow) (w : BitVec 16) : Bool := (w &&& r.mask) == r.value

/-- The twelve pairs of mask and match of R76, in the order of the opcodes. -/
def opcodeMap : List OpcodeRow :=
  [⟨0xFFFF, 0x0000⟩, ⟨0xFFFF, 0x1000⟩, ⟨0xFF00, 0x2000⟩, ⟨0xFF00, 0x3000⟩, ⟨0xFFFF, 0x4000⟩, ⟨0xFE00, 0x5000⟩,
   ⟨0xFFFF, 0x6000⟩, ⟨0xFF00, 0x7000⟩, ⟨0xFFFF, 0x8000⟩, ⟨0xFFFE, 0x9000⟩, ⟨0xFFFF, 0xA000⟩, ⟨0xFFFF, 0xB000⟩]

/-- The position of a command's row in `opcodeMap`, which is its opcode (R76). -/
def opcodeOf : Instr → Nat
  | .nop => 0x0
  | .clr => 0x1
  | .ldf _ _ => 0x2
  | .rdf _ => 0x3
  | .build => 0x4
  | .rdn _ => 0x5
  | .gencode => 0x6
  | .rdc _ => 0x7
  | .dstart => 0x8
  | .dbit _ => 0x9
  | .dend => 0xA
  | .rds => 0xB

end Sys2Proof
end

