-- ==== Sys2Proof/Machine/State.lean ====
section
/-! DEFINITION. The architectural state of the block (R20 to R32), its reset value (R40), and the reasons a step can
stop. Beside the block's own state it carries the two ends of the ports that belong to the host: what the host will do
next, and the responses it has been given (R39 says the command stream is the host's; the step is a function of one
state, so the stream stands here; notes/assumptions/1.md). -/

namespace Sys2Proof.Machine

/-- The state one step reads and writes. -/
structure State where
  /-- `FT[0..255]` (R21): the non-zero entries; an index not listed reads 0. -/
  ft : Memory Count
  /-- `NODE[0..510]` (R22): the records with valid content; any other holds an unspecified value and is not listed. -/
  node : Memory NodeRec
  /-- `CT[0..255]` (R23): while `CV = 1` the non-empty codes, an index not listed holding the empty string; while
  `CV = 0` the content is unspecified and nothing is listed. -/
  ct : Memory CodeRec
  /-- `TV`, tree valid (R25). -/
  tv : Bool
  /-- `TK`, tree kind (R26). -/
  tk : TreeKind
  /-- `ROOT`, node index of the tree root (R27). -/
  root : BitVec 9
  /-- `NCOUNT`, number of valid records of `NODE` (R28). -/
  ncount : BitVec 10
  /-- `CV`, code table valid (R29). -/
  cv : Bool
  /-- `DA`, decoder active (R30). -/
  da : Bool
  /-- `DCUR`, decoder current node (R31). -/
  dcur : BitVec 9
  /-- `ERR`, the first error since reset or `CLR`; `ok` is the code 0 (R32). -/
  err : Status
  /-- The host's side of the command port and of `rst`: what it does next, first item first. -/
  hostIn : List HostInput
  /-- The host's side of the response port: the responses given so far, oldest first (R75). -/
  hostOut : List Response
deriving DecidableEq, Repr

/-- The state right after reset (R40): an all-zero table, all eight control registers 0, nothing valid in `NODE` and
`CT`, nothing presented and nothing answered yet. -/
def State.reset : State where
  ft := []
  node := []
  ct := []
  tv := false
  tk := .noTree
  root := 0
  ncount := 0
  cv := false
  da := false
  dcur := 0
  err := .ok
  hostIn := []
  hostOut := []

/-- Why the machine stops. The block itself has no trap and no fatal state (R230, R237). -/
inductive Fault where
  /-- Raised by `GENCODE` alone, and only where the loop of R163 would never end: a node memory with a cycle below
  `ROOT`. No run reaches such a state (R132, R241). Safe: the machine stops where the pseudocode would hang. -/
  | walkNeverEnds
deriving DecidableEq, Repr

/-- Why an instruction has no meaning. -/
inductive Refusal where
  /-- Raised by `exec` for a row of the opcode table that has no meaning yet; no arm does. Safe: a run stops there. -/
  | notModelled (mnemonic : String)
deriving DecidableEq, Repr

/-- What one step answers. -/
abbrev Result := Host.Outcome State Fault Refusal

end Sys2Proof.Machine
end

