-- ==== Sys2Proof/Machine/Ops.lean ====
section
/-! DEFINITION. The shared operations: reading and writing one element of an element-indexed memory (20_memory.md),
answering a command (R75, R11) and failing one (R233). -/

namespace Sys2Proof

/-- The element a memory lists at an index. -/
def readCell {α : Type} : Memory α → Nat → Option α
  | [], _ => none
  | (k, v) :: m, i => if k = i then some v else readCell m i

/-- Writes one element, keeping the indices strictly rising. -/
def writeCell {α : Type} : Memory α → Nat → α → Memory α
  | [], i, v => [(i, v)]
  | (k, w) :: m, i, v =>
    if i < k then (i, v) :: (k, w) :: m
    else if i = k then (i, v) :: m
    else (k, w) :: writeCell m i v

/-- Takes an index out of a memory's list. -/
def eraseCell {α : Type} : Memory α → Nat → Memory α
  | [], _ => []
  | (k, w) :: m, i => if k = i then eraseCell m i else (k, w) :: eraseCell m i

/-- Writes one element of a memory in which an unlisted index reads as `dflt`: writing that value removes the entry. -/
def storeCell {α : Type} [DecidableEq α] (dflt : α) (m : Memory α) (i : Nat) (v : α) : Memory α :=
  if v = dflt then eraseCell m i else writeCell m i v

/-- The canonical form: indices strictly rising and below `size`, and no entry that equals what an unlisted index reads
as (`none` where an unlisted index has no value of its own). -/
abbrev Memory.wf {α : Type} [DecidableEq α] (size : Nat) (dflt : Option α) (m : Memory α) : Prop :=
  m.Pairwise (fun x y => x.1 < y.1) ∧ ∀ x ∈ m, x.1 < size ∧ some x.2 ≠ dflt

end Sys2Proof

namespace Sys2Proof.Machine

/-- `FT[c]` (R21, R51): an entry never loaded reads 0 (R103). -/
def ftRead (ft : Memory Count) (c : Nat) : Count := (readCell ft c).getD 0

/-- `FT[c] <- v` (R21). -/
def ftWrite (ft : Memory Count) (c : Nat) (v : Count) : Memory Count := storeCell 0 ft c v

/-- A node record from its 67 bits, in the layout of R78: `cc` at 7:0, `lf` at 8, `lc` at 17:9, `rc` at 26:18, `fq`
from 27 up. -/
def nodeOfBits (v : BitVec 67) : NodeRec where
  cc := v.extractLsb' 0 8
  lf := v.getLsbD 8
  lc := v.extractLsb' 9 9
  rc := v.extractLsb' 18 9
  fq := v.extractLsb' 27 40

/-- `NODE[i]` (R22, R52). A record without valid content reads as a free value. -/
def nodeRead (node : Memory NodeRec) (i : Nat) : NodeRec :=
  (readCell node i).getD (nodeOfBits (Config.freeNodeBits i))

/-- `NODE[i] <- r` (R22). -/
def nodeWrite (node : Memory NodeRec) (i : Nat) (r : NodeRec) : Memory NodeRec := writeCell node i r

/-- The empty string: `len = 0` (R23). -/
def emptyCode : CodeRec := { len := 0, bits := 0 }

/-- A code record from its 263 bits, in the layout of R78: `len` at 7:0, `bits` from 8 up. -/
def codeOfBits (v : BitVec 263) : CodeRec where
  len := v.extractLsb' 0 8
  bits := v.extractLsb' 8 255

/-- `CT[c]` (R23, R53) as `CV` stands: unspecified, so a free value, while `CV = 0`. -/
def ctRead (cv : Bool) (ct : Memory CodeRec) (c : Nat) : CodeRec :=
  if cv then (readCell ct c).getD emptyCode else codeOfBits (Config.freeCodeBits c)

/-- `CT[c] <- r` (R23). -/
def ctWrite (ct : Memory CodeRec) (c : Nat) (r : CodeRec) : Memory CodeRec := storeCell emptyCode ct c r

/-- Gives the host one response, after all earlier ones (R75). -/
def State.answer (s : State) (status : Status) (data : RspData) : State :=
  { s with hostOut := s.hostOut ++ [{ status := status, data := data }] }

/-- `ERR <- E if ERR = 0` (R233): the first error since reset or `CLR` is kept. -/
def State.noteError (s : State) (e : Status) : State :=
  { s with err := if s.err = .ok then e else s.err }

/-- `respond(data)` (R11): the command ends with status `OK`. -/
def respond (data : RspData) (s : State) : Result := .next (s.answer .ok data)

/-- `raise E` (R11, R233, R236): what stands for taking an exception. The first error is kept in `ERR`, the response is
`(E, 0)`, nothing else changes. There is no return from it (R237). -/
def raise (e : Status) (s : State) : Result := .next ((s.noteError e).answer e 0)

end Sys2Proof.Machine
end

