-- ==== Sys2Proof/Machine/Flags.lean ====
section
/-! DEFINITION. The flags and the status word (R25 to R34), and the two shared operations that clear the valid flags
(R101, R102, R260). -/

namespace Sys2Proof.Machine

/-- The status codes of R77. -/
def statusCode : Status → BitVec 4
  | .ok => 0
  | .illegal => 1
  | .notree => 2
  | .kind => 3
  | .nocode => 4
  | .idle => 5
  | .range => 6
  | .corrupt => 7

/-- The values of `TK` (R26). -/
def treeKindCode : TreeKind → BitVec 2
  | .noTree => 0
  | .single => 1
  | .general => 2

/-- `DM`, decoder mid-path (R33): computed, not stored. -/
def State.dm (s : State) : Bool := s.da && s.dcur != s.root

/-- `STATUS`, 38 bits: `{DCUR, NCOUNT, ROOT, ERR, DM, DA, CV, TK, TV}` (R34, R104). -/
def State.statusWord (s : State) : BitVec 38 :=
  s.dcur ++ s.ncount ++ s.root ++ statusCode s.err ++ BitVec.ofBool s.dm ++ BitVec.ofBool s.da ++
    BitVec.ofBool s.cv ++ treeKindCode s.tk ++ BitVec.ofBool s.tv

/-- `CV <- 0; DA <- 0; DCUR <- 0` (R102, R130). What `CT` holds is unspecified from here on (R23), so nothing is
listed in it. -/
def State.dropCodesAndDecode (s : State) : State :=
  { s with cv := false, ct := [], da := false, dcur := 0 }

/-- `TV <- 0; TK <- 0; ROOT <- 0; NCOUNT <- 0; CV <- 0; DA <- 0; DCUR <- 0` (R102). What `NODE` holds is unspecified
from here on (R22, U8), so nothing is listed in it. -/
def State.dropTree (s : State) : State :=
  { s.dropCodesAndDecode with tv := false, tk := .noTree, root := 0, ncount := 0, node := [] }

/-- Every architectural element at its reset value (R40, R101, R260); the host's side of the ports is left alone. -/
def State.clearAll (s : State) : State :=
  { s.dropTree with ft := [], err := .ok }

end Sys2Proof.Machine
end

