-- ==== Sys2Proof/Machine/Operands.lean ====
section
/-! DEFINITION. The operand and data forms of the commands: response data by command (R78) and the packing of a bit
sequence into a code record (R163). The operand forms of the command word are in Decode.lean. -/

namespace Sys2Proof.Machine

/-- `RDF`: `data[FREQ_W-1:0] = FT[sym]` (R78). -/
def countData (v : Count) : RspData := v.setWidth 263

/-- `BUILD`: `{NCOUNT[9:0], ROOT[8:0], TK[1:0]}` (R78, R130). -/
def buildData (s : State) : RspData := (s.ncount ++ s.root ++ treeKindCode s.tk).setWidth 263

/-- `RDN`: `{fq, rc, lc, lf, cc}` (R78, R136). -/
def nodeData (r : NodeRec) : RspData := (r.fq ++ r.rc ++ r.lc ++ BitVec.ofBool r.lf ++ r.cc).setWidth 263

/-- `RDC`: `{bits, len}` (R78, R167). -/
def codeData (r : CodeRec) : RspData := (r.bits ++ r.len).setWidth 263

/-- `DBIT` at a leaf: `{cc, 1}` (R78, R182). -/
def symbolData (c : Sym) : RspData := (c ++ 1#1).setWidth 263

/-- `RDS`: `data[37:0] = STATUS` (R78, R104). -/
def statusData (s : State) : RspData := s.statusWord.setWidth 263

/-- A bit sequence as a number, first bit lowest (R12, R23). -/
def packNat : List Bool → Nat
  | [] => 0
  | b :: p => b.toNat + 2 * packNat p

/-- `pack(p)`: bit `k` is `p[k]`, and 0 from `len(p)` on (R163). -/
def pack (p : List Bool) : BitVec 255 := BitVec.ofNat 255 (packNat p)

/-- The code record of a path (R163). -/
def codeOfPath (p : List Bool) : CodeRec := { len := BitVec.ofNat 8 p.length, bits := pack p }

end Sys2Proof.Machine
end

