-- ==== Sys2Proof/Machine/Coder.lean ====
section
/-! DEFINITION. The coder: the iterative traversal with its explicit stack, the recursive form the spec says is equal to
it, and the commands `GENCODE` and `RDC` (42_coder.md). -/

namespace Sys2Proof.Machine

/-- The code table under construction and the assigned bitmap `ASG`, as the list of the codes assigned (R37, R163). -/
structure Coding where
  ct : Memory CodeRec
  asg : List Nat
deriving DecidableEq, Repr

/-- Every record the empty string, nothing assigned (R163). -/
def emptyCoding : Coding := { ct := [], asg := [] }

/-- At a leaf: assign the path to its character "if not already assigned" (R162, R163). -/
def assignCode (t : Coding) (c : Nat) (p : List Bool) : Coding :=
  if c ∈ t.asg then t else { ct := ctWrite t.ct c (codeOfPath p), asg := c :: t.asg }

/-- The loop of R163 over the stack of pairs (node index, path). The first argument bounds the passes. -/
def walk (node : Memory NodeRec) : Nat → List (Nat × List Bool) → Coding → Option Coding
  | _, [], t => some t
  | 0, _ :: _, _ => none
  | k + 1, (i, p) :: stack, t =>
    let r := nodeRead node i
    if r.lf then walk node k stack (assignCode t r.cc.toNat p)
    else walk node k ((r.lc.toNat, p ++ [false]) :: (r.rc.toNat, p ++ [true]) :: stack) t

/-- More passes than any walk that ends can take: node indices have 9 bits, so a walk that ends visits at most
`2 ^ 512 - 1` stack entries (in a tree of a reachable state, at most 511). -/
def walkBound : Nat := 2 ^ 256 * 2 ^ 256

/-- The code table of a tree (R160): `none` where the loop of R163 would not end. -/
def codeTable (node : Memory NodeRec) (root : BitVec 9) (tk : TreeKind) : Option (Memory CodeRec) :=
  if tk = .noTree then some []
  else (walk node walkBound [(root.toNat, [])] emptyCoding).map (·.ct)

/-- The recursive form of R169, to a depth given by its second number. `guarded` says whether the test "if not already
assigned" is made (R168 item 4 says a model may drop it), `leftFirst` which subtree is visited first (R162). -/
def visit (node : Memory NodeRec) (guarded leftFirst : Bool) : Nat → Nat → List Bool → Coding → Coding
  | 0, _, _, t => t
  | d + 1, i, p, t =>
    let r := nodeRead node i
    if r.lf then assignCode (if guarded then t else { t with asg := [] }) r.cc.toNat p
    else if leftFirst then
      visit node guarded leftFirst d r.rc.toNat (p ++ [true])
        (visit node guarded leftFirst d r.lc.toNat (p ++ [false]) t)
    else
      visit node guarded leftFirst d r.lc.toNat (p ++ [false])
        (visit node guarded leftFirst d r.rc.toNat (p ++ [true]) t)

/-- `GENCODE` (R163). -/
def execGencode (s : State) : Result :=
  if s.tv = false then raise .notree s
  else match codeTable s.node s.root s.tk with
    | none => .fault .walkNeverEnds
    | some ct => respond 0 { s with ct := ct, cv := true }

/-- `RDC sym` (R167): the code of an unused character is the empty string, which is no error. -/
def execRdc (sym : Sym) (s : State) : Result :=
  if s.cv = false then raise .nocode s
  else respond (codeData (ctRead s.cv s.ct sym.toNat)) s

end Sys2Proof.Machine
end

