-- ==== Sys2Proof/Machine/Decoder.lean ====
section
/-! DEFINITION. The decoder: `DSTART`, `DBIT` and `DEND` (43_decoder.md). -/

namespace Sys2Proof.Machine

/-- The child of a node for one bit: 0 descends left, 1 descends right (R182). -/
def child (node : Memory NodeRec) (i : Nat) (b : Bool) : BitVec 9 :=
  if b then (nodeRead node i).rc else (nodeRead node i).lc

/-- `DSTART` (R181). -/
def execDstart (s : State) : Result :=
  if s.tv = false then raise .notree s
  else if s.tk ≠ .general then raise .kind s
  else respond 0 { s with da := true, dcur := s.root }

/-- `DBIT b` (R182). -/
def execDbit (b : Bool) (s : State) : Result :=
  if s.da = false then raise .idle s
  else
    let nxt := child s.node s.dcur.toNat b
    let r := nodeRead s.node nxt.toNat
    if r.lf then respond (symbolData r.cc) { s with dcur := s.root }
    else respond 0 { s with dcur := nxt }

/-- `DEND` (R183). -/
def execDend (s : State) : Result :=
  if s.da = false then raise .idle s
  else if s.dcur ≠ s.root then raise .corrupt s
  else respond 0 { s with da := false, dcur := 0 }

end Sys2Proof.Machine
end

