-- ==== Sys2Proof/Machine/System.lean ====
section
/-! DEFINITION. The system commands `NOP`, `CLR` and `RDS` (40_table_and_system.md), and reset (R260, R261). -/

namespace Sys2Proof.Machine

/-- `NOP` (R100). -/
def execNop (s : State) : Result := respond 0 s

/-- `CLR` (R101): the state after it is the reset state (R40). -/
def execClr (s : State) : Result := respond 0 s.clearAll

/-- `RDS` (R104). -/
def execRds (s : State) : Result := respond (statusData s) s

/-- `rst = 1` at a clock edge (R260): the reset state, and no response. -/
def applyReset (s : State) : Result := .next s.clearAll

/-- `rst = 1` with a command in flight (R261): the command is abandoned, no response is ever given for it, and the
state is the reset state. -/
def applyResetDuring (_abandoned : Command) (s : State) : Result := applyReset s

end Sys2Proof.Machine
end

