-- ==== Sys2Proof/Machine/Table.lean ====
section
/-! DEFINITION. The table commands `LDF` and `RDF` (40_table_and_system.md). -/

namespace Sys2Proof.Machine

/-- `LDF sym, val` (R102): replaces the entry and clears the valid flags, even where the value is the old one. -/
def execLdf (sym : Sym) (val : Count) (s : State) : Result :=
  respond 0 { s.dropTree with ft := ftWrite s.ft sym.toNat val }

/-- `RDF sym` (R103). -/
def execRdf (sym : Sym) (s : State) : Result := respond (countData (ftRead s.ft sym.toNat)) s

end Sys2Proof.Machine
end

