-- ==== Sys2Proof/Machine/TreeBuilder.lean ====
section
/-! DEFINITION. The tree builder: the ordering, the priority queue, the merge loop, and the commands `BUILD` and `RDN`
(41_tree_builder.md). The loops are written over any structure that offers the two operations of the queue (R124, R135);
`BUILD` runs them with the linear scan over the live nodes, realisation A (R140). -/

namespace Sys2Proof.Machine

/-- `before(A, B)` (R121): smaller frequency first, then smaller character code, both unsigned. -/
def before (A B : NodeRec) : Bool := A.fq.ult B.fq || (A.fq == B.fq && A.cc.ult B.cc)

/-- The numerically smaller of two character codes (R11). -/
def minSym (a b : Sym) : Sym := if b.ult a then b else a

/-- A live node: its index and the record it names, which never changes once made (R22). -/
abbrev Live := Nat × NodeRec

/-- The node that the scan of R140 keeps: `m` so far, then the rest. -/
def leastFrom : Live → List Live → Live
  | m, [] => m
  | m, x :: xs => leastFrom (if before x.2 m.2 then x else m) xs

/-- `extract()` (R124, R140): the least live node, and the queue without it. -/
def extract : List Live → Option (Live × List Live)
  | [] => none
  | x :: xs =>
    let m := leastFrom x xs
    some (m, (x :: xs).filter (fun y => y.1 != m.1))

/-- What a priority queue offers (R124): the empty queue, `insert` and `extract`. -/
structure QueueOps (Q : Type) where
  empty : Q
  insert : Q → Live → Q
  extract : Q → Option (Live × Q)

/-- Realisation A (R140): the set of live nodes, scanned. -/
def scanQueue : QueueOps (List Live) where
  empty := []
  insert q x := x :: q
  extract := extract

/-- A leaf record (R123). -/
def leafRec (c : Nat) (v : Count) : NodeRec :=
  { cc := BitVec.ofNat 8 c, fq := v.setWidth 40, lf := true, lc := 0, rc := 0 }

/-- `merge(a, b)` (R125): `a` was extracted first, so it comes before `b` and is the left child. -/
def mergeRec (a b : Live) : NodeRec :=
  { cc := minSym a.2.cc b.2.cc, fq := a.2.fq + b.2.fq, lf := false,
    lc := BitVec.ofNat 9 a.1, rc := BitVec.ofNat 9 b.1 }

/-- What `BUILD` holds while it runs (R36, R130): the records written, the next free index and the queue. -/
structure Building (Q : Type) where
  node : Memory NodeRec
  n : Nat
  pq : Q
deriving DecidableEq, Repr

/-- `NODE[n] <- r; PQ.insert(n); n = n + 1` on top of a queue `pq` (R130). -/
def addNode {Q : Type} (ops : QueueOps Q) (b : Building Q) (pq : Q) (r : NodeRec) : Building Q :=
  { node := nodeWrite b.node b.n r, n := b.n + 1, pq := ops.insert pq (b.n, r) }

/-- One pass of the leaf loop (R123): an entry equal to 0 creates nothing. -/
def addLeaf {Q : Type} (ops : QueueOps Q) (ft : Memory Count) (b : Building Q) (c : Nat) : Building Q :=
  if ftRead ft c = 0 then b else addNode ops b b.pq (leafRec c (ftRead ft c))

/-- Step 1: one leaf per non-zero entry, in ascending order of character code (R123, R131). -/
def makeLeaves {Q : Type} (ops : QueueOps Q) (ft : Memory Count) : Building Q :=
  (List.range NSYM).foldl (addLeaf ops ft) { node := [], n := 0, pq := ops.empty }

/-- One pass of the merge loop (R126), or nothing where fewer than two nodes are live. -/
def mergePass {Q : Type} (ops : QueueOps Q) (b : Building Q) : Option (Building Q) :=
  match ops.extract b.pq with
  | none => none
  | some (x, rest) =>
    match ops.extract rest with
    | none => none
    | some (y, rest') => some (addNode ops b rest' (mergeRec x y))

/-- Step 2: passes while more than one node is live (R126). The first argument bounds their number; each pass leaves one
live node fewer, so the number of leaves is always enough. -/
def mergeLoop {Q : Type} (ops : QueueOps Q) : Nat → Building Q → Building Q
  | 0, b => b
  | k + 1, b =>
    match mergePass ops b with
    | none => b
    | some b' => mergeLoop ops k b'

/-- The tree construction as a function of the frequency table (R120): the records written and their number. -/
def buildTreeWith {Q : Type} (ops : QueueOps Q) (ft : Memory Count) : Building Q :=
  let b := makeLeaves ops ft
  mergeLoop ops b.n b

/-- The tree construction of the block. -/
def buildTree (ft : Memory Count) : Building (List Live) := buildTreeWith scanQueue ft

/-- `TK` of a construction that made `n` nodes (R127, R130). -/
def treeKindOf (n : Nat) : TreeKind := if n = 0 then .noTree else if n = 1 then .single else .general

/-- `ROOT` of a construction that made `n` nodes: the last node made; 0 where there is none or one (R130). -/
def rootOf (n : Nat) : BitVec 9 := BitVec.ofNat 9 (n - 1)

/-- The registers and memories as `BUILD` leaves them (R130). -/
def State.withTree (s : State) (b : Building (List Live)) : State :=
  { s.dropCodesAndDecode with
    node := b.node, ncount := BitVec.ofNat 10 b.n, tk := treeKindOf b.n, root := rootOf b.n, tv := true }

/-- `BUILD` (R130). -/
def execBuild (s : State) : Result :=
  let s' := s.withTree (buildTree s.ft)
  respond (buildData s') s'

/-- `RDN idx` (R136): the range is looked at only where a tree is built (R234). -/
def execRdn (idx : NodeIdx) (s : State) : Result :=
  if s.tv = false then raise .notree s
  else if s.ncount.toNat ≤ idx.toNat then raise .range s
  else respond (nodeData (nodeRead s.node idx.toNat)) s

end Sys2Proof.Machine
end

