-- ==== Sys2Proof/Machine/Dispatch.lean ====
section
/-! DEFINITION. One arm per command. -/

namespace Sys2Proof.Machine

def exec (i : Instr) (s : State) : Host.Outcome State Fault Refusal :=
  match i with
  | .nop => Sys2Proof.Machine.execNop s
  | .clr => Sys2Proof.Machine.execClr s
  | .ldf sym val => Sys2Proof.Machine.execLdf sym val s
  | .rdf sym => Sys2Proof.Machine.execRdf sym s
  | .build => Sys2Proof.Machine.execBuild s
  | .rdn idx => Sys2Proof.Machine.execRdn idx s
  | .gencode => Sys2Proof.Machine.execGencode s
  | .rdc sym => Sys2Proof.Machine.execRdc sym s
  | .dstart => Sys2Proof.Machine.execDstart s
  | .dbit b => Sys2Proof.Machine.execDbit b s
  | .dend => Sys2Proof.Machine.execDend s
  | .rds => Sys2Proof.Machine.execRds s

end Sys2Proof.Machine
end

