-- ==== Sys2Proof/Machine/Issue.lean ====
section
/-! DEFINITION. Presenting a command to the block (R58, R83), and taking the host's next action. -/

namespace Sys2Proof.Machine

/-- One command presented and run to completion (R58): decoded before any state is looked at, and an illegal word is
executed as `raise E_ILLEGAL` (R83, R234). -/
def issue (c : Command) (s : State) : Result :=
  match decode c with
  | .ok i => exec i s
  | .error _ => raise .illegal s

/-- The host's next action, the rest of them still to come. With none the block waits, unchanged. -/
def takeInput (s : State) : Result :=
  match s.hostIn with
  | [] => .next s
  | .command c :: rest => issue c { s with hostIn := rest }
  | .reset :: rest => applyReset { s with hostIn := rest }
  | .resetDuring c :: rest => applyResetDuring c { s with hostIn := rest }

/-- The state whose next host action is to present one command. -/
def presentFirst (c : Command) (s : State) : State := { s with hostIn := .command c :: s.hostIn }

end Sys2Proof.Machine
end

