-- ==== Sys2Proof/Machine/Step.lean ====
section
/-! DEFINITION. One step of the machine: one action of the host, and all the block does for it (R58, R87). -/

namespace Sys2Proof.Machine

/-- One step. -/
def step (s : State) : Host.Outcome State Fault Refusal := takeInput s

/-- `s` with the command whose bits are `w` presented next on the command port (the block fetches nothing from memory,
R24; notes/assumptions/2.md). -/
def State.withFetchWord (s : State) (nbits w : Nat) : State := presentFirst (tableCommand nbits w) s

end Sys2Proof.Machine
end

