-- ==== Sys2Proof/Machine/Heap.lean ====
section
/-! DEFINITION. Realisation B of the priority queue, the binary min-heap of R141, transcribed. It is not the one `BUILD`
runs; the spec says it gives the same trees (R135). -/

namespace Sys2Proof.Machine

/-- `H[k]`; the heap of size `hs` is a list of length `hs`. -/
def heapAt (h : List Live) (k : Nat) : Live := h.getD k (0, leafRec 0 0)

/-- `less(H[i], H[j])` (R141). -/
def heapLess (h : List Live) (i j : Nat) : Bool := before (heapAt h i).2 (heapAt h j).2

/-- `swap H[i], H[j]` (R141). -/
def heapSwap (h : List Live) (i j : Nat) : List Live := (h.set i (heapAt h j)).set j (heapAt h i)

/-- The loop of `insert` from position `k` up (R141); the first argument bounds its passes. -/
def siftUp : Nat → List Live → Nat → List Live
  | 0, h, _ => h
  | f + 1, h, k =>
    if 0 < k && heapLess h k ((k - 1) / 2) then siftUp f (heapSwap h k ((k - 1) / 2)) ((k - 1) / 2) else h

/-- `insert(n)` (R141). -/
def heapInsert (h : List Live) (x : Live) : List Live := siftUp h.length (h ++ [x]) h.length

/-- The least of `H[k]` and its children `H[2k+1]`, `H[2k+2]`, by position (R141). -/
def leastChild (h : List Live) (k : Nat) : Nat :=
  let l := 2 * k + 1
  let r := 2 * k + 2
  let m := if l < h.length && heapLess h l k then l else k
  if r < h.length && heapLess h r m then r else m

/-- The loop of `extract` from position `k` down (R141); the first argument bounds its passes. -/
def siftDown : Nat → List Live → Nat → List Live
  | 0, h, _ => h
  | f + 1, h, k =>
    let m := leastChild h k
    if m = k then h else siftDown f (heapSwap h k m) m

/-- `extract()` (R141). -/
def heapExtract (h : List Live) : Option (Live × List Live) :=
  match h with
  | [] => none
  | top :: _ =>
    let hs := h.length - 1
    some (top, siftDown hs ((h.set 0 (heapAt h hs)).take hs) 0)

/-- Realisation B (R141). -/
def heapQueue : QueueOps (List Live) where
  empty := []
  insert := heapInsert
  extract := heapExtract

end Sys2Proof.Machine
end

