-- ==== Sys2Proof/Machine/HostContract.lean ====
section
/-! DEFINITION. The host that follows the contract of 44_host_contract.md: counting, header text, the pseudo-commands of
R85, and the two canonical command sequences of R219. Nothing here is hardware (R6); it stands so that the laws the
source states over host and block together (R214, R216) can be stated of the model. -/

namespace Sys2Proof.Machine

/-- A text over the single-byte alphabet (R2). -/
abbrev Text := List Sym

/-- A frequency table as a literal (R13): pairs of character code and count, codes ascending. -/
abbrev FreqTable := List (Nat × Nat)

/-- A frequency table of the source as such a literal: codes of the alphabet, ascending, with non-zero counts (R13, R201,
R202). -/
abbrev FreqTable.isTable (F : FreqTable) : Prop :=
  F.Pairwise (fun x y => x.1 < y.1) ∧ ∀ x ∈ F, x.1 < NSYM ∧ x.2 ≠ 0

/-- How often a character code occurs (R200). -/
def countOf (T : Text) (c : Nat) : Nat := T.countP (fun t => t.toNat == c)

/-- The non-zero counts of a text (R200). -/
def countTable (T : Text) : FreqTable :=
  (List.range NSYM).filterMap fun c => if countOf T c = 0 then none else some (c, countOf T c)

/-- Every count fits in `FREQ_W` bits (R213). -/
def FreqTable.fits (F : FreqTable) : Bool := F.all fun x => decide (x.2 < 2 ^ FREQ_W)

/-- `LDT {…}` (R85). -/
def ldt (F : FreqTable) : List Instr :=
  .clr :: F.map fun x => .ldf (BitVec.ofNat 8 x.1) (BitVec.ofNat 32 x.2)

/-- `DBITS "…"` (R85). -/
def dbits (bits : List Bool) : List Instr := bits.map .dbit

/-- `DECODE "…"` (R85). -/
def decodeCommands (bits : List Bool) : List Instr := .dstart :: dbits bits ++ [.dend]

/-- `ENC "…"` (R85). -/
def enc (T : Text) : List Instr := T.map .rdc

/-- Commands presented one after the other, each to completion (R58); nothing where one never ends. -/
def runAll : List Instr → State → Option State
  | [], s => some s
  | i :: is, s =>
    match issue (encode i) s with
    | .next s' => runAll is s'
    | .fault _ | .refused _ => none

/-- Commands presented by a host that has taken every earlier response: the state after, and the new responses. -/
def drive (is : List Instr) (s : State) : Option (State × List Response) :=
  (runAll is { s with hostOut := [] }).map fun s' => (s', s'.hostOut)

/-- A number in decimal digits (R201). -/
def decimal (n : Nat) : List Char := Nat.toDigits 10 n

/-- Header make (R201, R202): pairs separated by single spaces, no space at the end. -/
def headerText : FreqTable → List Char
  | [] => []
  | [(c, n)] => decimal c ++ ' ' :: decimal n
  | (c, n) :: F => decimal c ++ ' ' :: (decimal n ++ ' ' :: headerText F)

/-- The tokens of a line (R203). DESIGN CHOICE (N8; notes/assumptions/10.md): the line is split at every single space, so
a leading, a trailing or a doubled space makes an empty token, which is no integer. -/
def tokens : List Char → List (List Char)
  | [] => [[]]
  | ch :: rest =>
    if ch = ' ' then [] :: tokens rest
    else match tokens rest with
      | [] => [[ch]]
      | t :: ts => (ch :: t) :: ts

/-- The number a token of decimal digits stands for. -/
def digitsValue (t : List Char) : Nat := t.foldl (fun v ch => 10 * v + (ch.toNat - 48)) 0

/-- An integer token (R203, R204); anything else is malformed. DESIGN CHOICE (N7; notes/assumptions/10.md): a non-empty
run of decimal digits, leading zeros included and without a sign. -/
def readNumber (t : List Char) : Option Nat :=
  if t = [] then none else if t.all Char.isDigit then some (digitsValue t) else none

/-- Tokens in pairs (R203); an odd number of them is malformed (R204). A code above 255 cannot
be loaded (U2). DESIGN CHOICE (N8; notes/assumptions/10.md): such a code makes the header malformed, and a code that
appears twice or a count of 0 stays in the list. -/
def readPairs : List (List Char) → Option FreqTable
  | [] => some []
  | [_] => none
  | a :: b :: rest =>
    match readNumber a, readNumber b, readPairs rest with
    | some c, some n, some F => if c < NSYM then some ((c, n) :: F) else none
    | _, _, _ => none

/-- Header parse (R203, R204): nothing where the header is malformed. The empty line is the empty table (R202). -/
def parseHeader (line : List Char) : Option FreqTable := if line = [] then some [] else readPairs (tokens line)

/-- Why a host gives up. -/
inductive HostError where
  /-- A count does not fit in `FREQ_W` bits (R213). -/
  | countTooLarge
  /-- Malformed-header (R204). -/
  | malformedHeader
  /-- A character of the bit-text is neither '0' nor '1' (U3). -/
  | badBitCharacter
  /-- Corrupt-bitstream (R211). -/
  | corruptBitstream
  /-- A command never ended; it does not happen (R241). -/
  | blockStopped
deriving DecidableEq, Repr

/-- `TK` as the last response reports it, which is the one of `BUILD` (R78, R219). -/
def kindReported (rs : List Response) : BitVec 2 :=
  match rs.getLast? with
  | some r => r.data.extractLsb' 0 2
  | none => 0

/-- The bits of a code as characters, first code bit first (R12, R167). -/
def codeChars (r : Response) : List Char :=
  (List.range (r.data.extractLsb' 0 8).toNat).map fun k => if r.data.getLsbD (8 + k) then '1' else '0'

/-- `sym` where the response has `sv = 1` (R78, R211). -/
def symbolReported (r : Response) : Option Sym :=
  if r.data.getLsbD 0 then some (r.data.extractLsb' 1 8) else none

/-- One character of the bit-text (R12). DESIGN CHOICE (N9, U3; notes/assumptions/10.md): the host gives up at any other
character. -/
def bitOfChar (ch : Char) : Option Bool := if ch = '0' then some false else if ch = '1' then some true else none

/-- `encode(T)` of R219 (R205 to R207, R217). -/
def encodeText (T : Text) (s : State) : Except HostError (List Char) :=
  let F := countTable T
  if F.fits = false then .error .countTooLarge
  else match drive (ldt F ++ [.build]) s with
    | none => .error .blockStopped
    | some (s1, rs) =>
      if kindReported rs = 0 then .ok []
      else if kindReported rs = 1 then .ok (headerText F)
      else match drive (.gencode :: enc T) s1 with
        | none => .error .blockStopped
        | some (_, rs') => .ok (headerText F ++ '\n' :: (rs'.drop 1).flatMap codeChars)

/-- The single-character case (R210): the character of `RDN 0`, `fq` times. -/
def repeatRoot (rs : List Response) : Text :=
  match rs.getLast? with
  | some r => List.replicate (r.data.extractLsb' 27 40).toNat (r.data.extractLsb' 0 8)
  | none => []

/-- The general case (R211): the symbols reported, or Corrupt-bitstream where `DEND` says so. DESIGN CHOICE (N10;
notes/assumptions/10.md): the symbols reported before it are dropped. -/
def symbolsOrCorrupt (rs : List Response) : Except HostError Text :=
  match rs.getLast? with
  | some r => if r.status = .corrupt then .error .corruptBitstream else .ok (rs.filterMap symbolReported)
  | none => .error .blockStopped

/-- `decode(P)` of R219 from its parsed table on (R208 to R211). -/
def decodeWith (F : FreqTable) (bitText : List Char) (s : State) : Except HostError Text :=
  if F.fits = false then .error .countTooLarge
  else match drive (ldt F ++ [.build]) s with
    | none => .error .blockStopped
    | some (s1, rs) =>
      if kindReported rs = 0 then .ok []
      else if kindReported rs = 1 then
        match drive [.rdn 0] s1 with
        | none => .error .blockStopped
        | some (_, rs') => .ok (repeatRoot rs')
      else match bitText.mapM bitOfChar with
        | none => .error .badBitCharacter
        | some bits =>
          match drive (decodeCommands bits) s1 with
          | none => .error .blockStopped
          | some (_, rs') => symbolsOrCorrupt rs'

/-- `decode(P)` of R219: the first line is the header, what follows the first newline is the bit-text.
That there is none without a newline is R219's own line (N19). -/
def decodeText (P : List Char) (s : State) : Except HostError Text :=
  if P = [] then .ok []
  else match parseHeader (P.takeWhile (· != '\n')) with
    | none => .error .malformedHeader
    | some F => decodeWith F ((P.dropWhile (· != '\n')).drop 1) s

end Sys2Proof.Machine
end

