-- ==== Sys2Proof/Machine/Port.lean ====
section
/-! DEFINITION. The port signals and the handshake, one clock edge at a time (R86, R87, R260, R261, R270). The machine of
Step.lean executes each command as one step (R38, R87); this file says what the pins show around that step. -/

namespace Sys2Proof.Machine

/-- The inputs sampled at a rising edge of `clk` (R86). -/
structure Pins where
  rst : Bool
  cmdValid : Bool
  /-- `cmd_cw` and `cmd_wd`. -/
  cmd : Command
  rspReady : Bool
deriving DecidableEq, Repr

/-- The outputs (R86). `rsp` is present exactly while `rsp_valid = 1`; the spec gives `rsp_status` and `rsp_data` no
value at other times. -/
structure PortOut where
  cmdReady : Bool
  rsp : Option Response
deriving DecidableEq, Repr

/-- Where the port stands between two edges. -/
inductive Phase where
  /-- Reset is over and `cmd_ready` rises after that many more edges (R260). -/
  | starting (left : Nat)
  /-- The block can accept a command. -/
  | ready
  /-- A command is in flight; its response appears after one more edge than that (R87, R270). -/
  | busy (left : Nat) (r : Response)
  /-- The response is presented and not yet taken (R87). -/
  | responding (r : Response)
  /-- A command that never ends; no run from reset gets here (R241). -/
  | hung
deriving DecidableEq, Repr

/-- The block with its port. -/
structure Port where
  /-- The architectural state. Its `hostOut` lists the responses the host has taken. -/
  arch : State
  phase : Phase
  /-- How many commands were accepted; the model's own, it makes each latency a fresh free value. -/
  accepted : Nat
  /-- How many edges sampled `rst = 1`; the model's own, it makes each start-up time a fresh free value. -/
  resets : Nat
deriving DecidableEq, Repr

/-- What the pins show; while `rst = 1`, `cmd_ready = 0` and `rsp_valid = 0` (R260). -/
def Port.out (p : Port) (rst : Bool) : PortOut :=
  if rst then { cmdReady := false, rsp := none }
  else match p.phase with
    | .starting _ | .busy _ _ | .hung => { cmdReady := false, rsp := none }
    | .ready => { cmdReady := true, rsp := none }
    | .responding r => { cmdReady := false, rsp := some r }

/-- A start-up that still takes `n` edges. -/
def startingPhase : Nat → Phase
  | 0 => .ready
  | n + 1 => .starting n

/-- `rst = 1` at an edge (R260, R261): the reset state; a command in flight is abandoned without a response. -/
def Port.reset (p : Port) : Port :=
  { p with arch := p.arch.clearAll, phase := startingPhase (Config.freeStartDelay p.resets), resets := p.resets + 1 }

/-- A command accepted (R87): it runs as one indivisible step (R58), and its response shows `LAT >= 1` edges later. DESIGN
CHOICE (notes/assumptions/9.md): its writes happen here, but its response is no response given until it is taken, so
`hostOut` stays as it is. -/
def Port.accept (p : Port) (c : Command) : Port :=
  match issue c p.arch with
  | .next s =>
    match s.hostOut.getLast? with
    | some r =>
      { p with
        arch := { s with hostOut := p.arch.hostOut }
        phase := .busy (Config.freeLatency p.accepted) r
        accepted := p.accepted + 1 }
    | none => { p with phase := .hung, accepted := p.accepted + 1 }
  | .fault _ | .refused _ => { p with phase := .hung, accepted := p.accepted + 1 }

/-- The response taken (R87): only now is it one that was given, and the port is ready (R236). -/
def Port.take (p : Port) (r : Response) : Port := { p with arch := p.arch.answer r.status r.data, phase := .ready }

/-- One rising edge of `clk` (R86, R87, R260). -/
def Port.edge (p : Port) (i : Pins) : Port :=
  if i.rst then p.reset
  else match p.phase with
    | .starting n => { p with phase := startingPhase n }
    | .ready => if i.cmdValid then p.accept i.cmd else p
    | .busy 0 r => { p with phase := .responding r }
    | .busy (n + 1) r => { p with phase := .busy n r }
    | .responding r => if i.rspReady then p.take r else p
    | .hung => p

/-- Several edges, first first. -/
def Port.edges (p : Port) (is : List Pins) : Port := is.foldl Port.edge p

end Sys2Proof.Machine
end

