-- ==== Sys2Proof/Safety.lean ====
section
/-! DEFINITION. The terms claims are stated in: the invariants of R35 with what R25 and R29 say of `TV` and `CV`, the two
ways a command can end, the structure of a tree (R122, R132), paths and codes (R161, R165, R168), decoding as a function
of a bit sequence (R184), and which error a command word meets (R231, R234). -/

namespace Sys2Proof.Machine

/-! ## How a command ends -/

/-- `s` after a command that changed nothing and answered `OK` with `data` (R11, R75). -/
def State.succeeded (s : State) (data : RspData) : State :=
  { s with hostOut := s.hostOut ++ [{ status := .ok, data := data }] }

/-- `s` after a command that failed with `e` (R233). -/
def State.failedWith (s : State) (e : Status) : State :=
  { s with err := (match s.err with | .ok => e | first => first), hostOut := s.hostOut ++ [{ status := e, data := 0 }] }

/-- The reset values of R40, for everything the spec gives one. -/
structure IsResetState (s : State) : Prop where
  ft : ∀ c, ftRead s.ft c = 0
  tv : s.tv = false
  tk : s.tk = .noTree
  root : s.root = 0
  ncount : s.ncount = 0
  cv : s.cv = false
  da : s.da = false
  dcur : s.dcur = 0
  err : s.err = .ok

/-- The positions of `arg` that the format of an opcode marks "must be 0" (R72, R76); none for the reserved opcodes,
which are illegal as a whole (R79). -/
def mustBeZero (op : Nat) : BitVec 16 :=
  match op with
  | 0x0 | 0x1 | 0x4 | 0x6 | 0x8 | 0xA | 0xB => 0x01FF
  | 0x2 | 0x3 | 0x7 => 0x0100
  | 0x9 => 0x01FE
  | _ => 0

/-- The status of a command presented in a state (R231), its checks in the order of R234. -/
def expectedStatus (c : Command) (s : State) : Status :=
  if opcodeMap.all (fun r => !r.selects c.cw) then .illegal
  else match c.cw.toNat / 0x1000 with
    | 0x5 => if s.tv = false then .notree else if s.ncount.toNat ≤ c.cw.toNat % 0x200 then .range else .ok
    | 0x6 => if s.tv = false then .notree else .ok
    | 0x7 => if s.cv = false then .nocode else .ok
    | 0x8 => if s.tv = false then .notree else if s.tk = .general then .ok else .kind
    | 0x9 => if s.da = false then .idle else .ok
    | 0xA => if s.da = false then .idle else if s.dcur = s.root then .ok else .corrupt
    | _ => .ok

/-! ## Trees -/

/-- The character codes with a non-zero count, ascending (R123). -/
def usedCodes (ft : Memory Count) : List Nat := (List.range NSYM).filter fun c => ftRead ft c != 0

/-- `L`, the number of leaves (R28, R35). -/
def leafCount (ft : Memory Count) : Nat := (usedCodes ft).length

/-- Node `j` is live when node `i` is made: it exists and no internal node before `i` has taken it as a child (R16). The
internal nodes are those from `L` on (R131). -/
def LiveAt (node : Memory NodeRec) (L i j : Nat) : Prop :=
  j < i ∧ ∀ k, L ≤ k → k < i → (nodeRead node k).lc.toNat ≠ j ∧ (nodeRead node k).rc.toNat ≠ j

/-- The child indices of all internal nodes below `n`, in order. -/
def childIndices (node : Memory NodeRec) (L n : Nat) : List Nat :=
  ((List.range n).filter (fun i => L ≤ i)).flatMap fun i => [(nodeRead node i).lc.toNat, (nodeRead node i).rc.toNat]

/-- The character codes of the leaves below a node, down to a depth (R132 item 4). -/
def codesBelow (node : Memory NodeRec) : Nat → Nat → List Nat
  | 0, _ => []
  | d + 1, i =>
    let r := nodeRead node i
    if r.lf then [r.cc.toNat] else codesBelow node d r.lc.toNat ++ codesBelow node d r.rc.toNat

/-- R132, item by item, of a state whose tree was built from `ft`. -/
structure TreeFacts (ft : Memory Count) (t : State) : Prop where
  counts : t.ncount.toNat = 2 * leafCount ft - 1
  leaves : ∀ i, i < t.ncount.toNat → ((nodeRead t.node i).lf = true ↔ i < leafCount ft)
  children : ∀ i, leafCount ft ≤ i → i < t.ncount.toNat →
    (nodeRead t.node i).lc.toNat < i ∧ (nodeRead t.node i).rc.toNat < i ∧
      (nodeRead t.node i).lc ≠ (nodeRead t.node i).rc
  oneParent : ∀ j, j < t.ncount.toNat → j ≠ t.root.toNat →
    (childIndices t.node (leafCount ft) t.ncount.toNat).count j = 1
  rootFree : (childIndices t.node (leafCount ft) t.ncount.toNat).count t.root.toNat = 0
  sums : ∀ i, i < t.ncount.toNat →
    (nodeRead t.node i).fq.toNat = ((codesBelow t.node NNODE i).map fun c => (ftRead ft c).toNat).sum
  least : ∀ i, i < t.ncount.toNat → (nodeRead t.node i).cc.toNat ∈ codesBelow t.node NNODE i ∧
    ∀ c ∈ codesBelow t.node NNODE i, (nodeRead t.node i).cc.toNat ≤ c
  rootSum : (nodeRead t.node t.root.toNat).fq.toNat = ((List.range NSYM).map fun c => (ftRead ft c).toNat).sum
  rootLeast : (usedCodes ft).head? = some (nodeRead t.node t.root.toNat).cc.toNat
  leftFirst : ∀ i, leafCount ft ≤ i → i < t.ncount.toNat →
    before (nodeRead t.node (nodeRead t.node i).lc.toNat) (nodeRead t.node (nodeRead t.node i).rc.toNat) = true
  positive : ∀ i, i < t.ncount.toNat → 1 ≤ (nodeRead t.node i).fq.toNat
  rising : ∀ i, leafCount ft ≤ i → i + 1 < t.ncount.toNat →
    (nodeRead t.node i).fq.toNat ≤ (nodeRead t.node (i + 1)).fq.toNat

/-- Two nodes the queue may hold at once (R122): different indices, different character codes. -/
abbrev Distinct (x y : Live) : Prop := x.1 ≠ y.1 ∧ x.2.cc ≠ y.2.cc

/-- A structure holds the queue (R124, R135): `members` are the live nodes of a value, `good` the values its own
operations make; `extract()` of a non-empty one removes the node that comes before every other. -/
structure QueueOps.Conforms {Q : Type} (ops : QueueOps Q) (good : Q → Prop) (members : Q → List Live) : Prop where
  emptyGood : good ops.empty
  emptyHolds : members ops.empty = []
  insertGood : ∀ q x, good q → good (ops.insert q x)
  insertHolds : ∀ q x, good q → (members (ops.insert q x)).Perm (x :: members q)
  extractNone : ∀ q, good q → members q = [] → ops.extract q = none
  extractLeast : ∀ q, good q → members q ≠ [] → (members q).Pairwise Distinct →
    ∃ x q', ops.extract q = some (x, q') ∧ good q' ∧ (members q).Perm (x :: members q') ∧
      ∀ y ∈ members q', before x.2 y.2 = true

/-! ## Paths, codes and decoding -/

/-- `Reaches node i p j`: from node `i` the path `p`, first edge first, leads to node `j` (R161). -/
def Reaches (node : Memory NodeRec) : Nat → List Bool → Nat → Prop
  | i, [], j => i = j
  | i, b :: p, j => (nodeRead node i).lf = false ∧ Reaches node (child node i b).toNat p j

/-- The bits of a code record, first code bit first (R23). -/
def codeBits (r : CodeRec) : List Bool := (List.range r.len.toNat).map r.bits.getLsbD

/-- `dec(cur, bits)` of R184: the symbols, and the node where the bits end. -/
def decBits (node : Memory NodeRec) (root : Nat) : Nat → List Bool → List Sym × Nat
  | cur, [] => ([], cur)
  | cur, b :: rest =>
    let nxt := (child node cur b).toNat
    if (nodeRead node nxt).lf then
      let out := decBits node root root rest
      ((nodeRead node nxt).cc :: out.1, out.2)
    else decBits node root nxt rest

/-- R168 items 1 to 3 and 5, of a state with `CV = 1` (item 4 is about the walk, not about the table). -/
structure CodeFacts (s : State) : Prop where
  used : s.tk = .general → ∀ c, c < NSYM → (0 < (ctRead s.cv s.ct c).len.toNat ↔ ftRead s.ft c ≠ 0)
  paths : s.tk = .general → ∀ c, c < NSYM → ftRead s.ft c ≠ 0 →
    ∃ j, Reaches s.node s.root.toNat (codeBits (ctRead s.cv s.ct c)) j ∧ (nodeRead s.node j).lf = true ∧
      (nodeRead s.node j).cc.toNat = c
  empty : s.tk ≠ .general → ∀ c, c < NSYM → (ctRead s.cv s.ct c).len = 0
  padded : ∀ c, c < NSYM → ∀ k, (ctRead s.cv s.ct c).len.toNat ≤ k → (ctRead s.cv s.ct c).bits.getLsbD k = false
  complete : s.tk = .general →
    ((usedCodes s.ft).map fun c => 2 ^ (CODE_MAX - (ctRead s.cv s.ct c).len.toNat)).sum = 2 ^ CODE_MAX

/-! ## Invariants -/

/-- R35, item by item (`NCOUNT = 0`, `ROOT = 0` for `NONE` as R27 and R28 say). -/
structure ControlInvariants (s : State) : Prop where
  item1 : s.tv = false → s.tk = .noTree ∧ s.root = 0 ∧ s.ncount = 0 ∧ s.cv = false ∧ s.da = false
  item2 : s.cv = true → s.tv = true
  item3 : s.da = true → s.tv = true ∧ s.tk = .general
  item4 : s.da = false → s.dcur = 0
  item5 : s.da = true → s.dcur.toNat < s.ncount.toNat ∧ (nodeRead s.node s.dcur.toNat).lf = false
  item6 : s.tv = true → (s.tk = .noTree ∧ s.ncount = 0) ∨ (s.tk = .single ∧ s.ncount = 1 ∧ s.root = 0) ∨
    (s.tk = .general ∧ s.ncount.toNat = 2 * leafCount s.ft - 1 ∧ 3 ≤ s.ncount.toNat ∧
      s.root.toNat = s.ncount.toNat - 1)
  item7 : treeKindCode s.tk ≠ 3

/-- The invariant of the machine: the canonical form of the memories, R35, and what `TV = 1` (R25) and `CV = 1` (R29)
say of the tree and of the code table. -/
structure Inv (s : State) : Prop where
  ftForm : Memory.wf NSYM (some 0) s.ft
  nodeForm : Memory.wf NNODE none s.node
  ctForm : Memory.wf NSYM (some emptyCode) s.ct
  control : ControlInvariants s
  noneBuilt : s.tv = false → s.node = []
  treeBuilt : s.tv = true → s.node = (buildTree s.ft).node ∧ s.ncount.toNat = (buildTree s.ft).n ∧
    s.tk = treeKindOf (buildTree s.ft).n ∧ s.root = rootOf (buildTree s.ft).n
  noneCoded : s.cv = false → s.ct = []
  codesMade : s.cv = true → codeTable s.node s.root s.tk = some s.ct

end Sys2Proof.Machine
end

