-- ==== Sys2Proof/Certificates/Slice0/Obligations.lean ====
section
/-! DEFINITION. The statements for the provers. Each docstring names the rule of spec/ it formalises, or the sections it
rests on. Where a statement covers `NODE` or `CT`, it speaks of what a rule lets the block read and never of content the
spec calls unspecified (R40, U8). -/

open Sys2Proof Sys2Proof.Machine

/-! ## Encoding and decoding -/

/-- The words that R84 and the encoding vectors of 95_test_vectors.md section 2 give, and what they decode to. -/
def Obligations.DecodeReadsTheWordsOfTheSpec : Prop :=
  ∀ wd : Count,
    decode ⟨0x0000, wd⟩ = .ok .nop ∧ decode ⟨0x1000, wd⟩ = .ok .clr ∧
    decode ⟨0x2061, wd⟩ = .ok (.ldf 97 wd) ∧ decode ⟨0x20FF, wd⟩ = .ok (.ldf 255 wd) ∧
    decode ⟨0x3000, wd⟩ = .ok (.rdf 0) ∧ decode ⟨0x4000, wd⟩ = .ok .build ∧
    decode ⟨0x5000, wd⟩ = .ok (.rdn 0) ∧ decode ⟨0x51FE, wd⟩ = .ok (.rdn 510) ∧
    decode ⟨0x51FF, wd⟩ = .ok (.rdn 511) ∧ decode ⟨0x6000, wd⟩ = .ok .gencode ∧
    decode ⟨0x7064, wd⟩ = .ok (.rdc 100) ∧ decode ⟨0x8000, wd⟩ = .ok .dstart ∧
    decode ⟨0x9000, wd⟩ = .ok (.dbit false) ∧ decode ⟨0x9001, wd⟩ = .ok (.dbit true) ∧
    decode ⟨0xA000, wd⟩ = .ok .dend ∧ decode ⟨0xB000, wd⟩ = .ok .rds ∧
    decode ⟨0x2100, wd⟩ = .error .operandBit ∧ decode ⟨0x2161, wd⟩ = .error .operandBit ∧
    decode ⟨0x4001, wd⟩ = .error .operandBit ∧ decode ⟨0x9002, wd⟩ = .error .operandBit ∧
    decode ⟨0xB100, wd⟩ = .error .operandBit ∧ decode ⟨0x5200, wd⟩ = .error .reservedField ∧
    decode ⟨0x5E00, wd⟩ = .error .reservedField ∧ decode ⟨0x0200, wd⟩ = .error .reservedField ∧
    decode ⟨0xC000, wd⟩ = .error .reservedOpcode ∧ decode ⟨0xD123, wd⟩ = .error .reservedOpcode ∧
    decode ⟨0xE000, wd⟩ = .error .reservedOpcode ∧ decode ⟨0xFFFF, wd⟩ = .error .reservedField

/-- Decoding the word that encodes a command gives the command back, at every operand (R73, R76, R83, R84). -/
def Obligations.DecodeInvertsEncode : Prop := ∀ i : Instr, decode (encode i) = .ok i

/-- A legal word has one meaning: encoding what it decodes to gives the word back, and `val` is `WD` (R73, R83, R84). -/
def Obligations.EncodeInvertsDecode : Prop :=
  ∀ (c : Command) (i : Instr), decode c = .ok i →
    (encode i).cw = c.cw ∧ (encode i).wd = if c.cw.extractLsb' 12 4 = 2 then c.wd else 0

/-- R80: a word is legal exactly when it matches a row of R76; a word with a set bit in `rsv` or in a position its format
marks "must be 0" is illegal; an illegal word fails with `E_ILLEGAL` and changes nothing but `ERR`; 1289 words are
legal, by row as counted. -/
def Obligations.LegalWordsAreTheRowsOfTheMap : Prop :=
  (∀ c : Command, (∃ i, decode c = .ok i) ↔ ∃ r ∈ opcodeMap, r.selects c.cw = true) ∧
  (∀ c : Command, c.cw &&& 0x0E00 ≠ 0 ∨ c.cw &&& mustBeZero (c.cw.toNat / 0x1000) ≠ 0 →
    ∀ r ∈ opcodeMap, r.selects c.cw = false) ∧
  (∀ (c : Command) (s : State), (∀ r ∈ opcodeMap, r.selects c.cw = false) →
    issue c s = .next (s.failedWith .illegal)) ∧
  (List.range 65536).countP (fun w => opcodeMap.any fun r => r.selects (BitVec.ofNat 16 w)) = 1289 ∧
  opcodeMap.map (fun r => (List.range 65536).countP fun w => r.selects (BitVec.ofNat 16 w)) =
    [1, 1, 256, 256, 1, 512, 1, 256, 1, 2, 1, 1]

/-- R88: the opcode field is inside every mask and differs between rows, and no word selects two rows. -/
def Obligations.NoWordSelectsTwoRows : Prop :=
  (∀ r ∈ opcodeMap, r.mask &&& 0xF000 = 0xF000) ∧
  opcodeMap.map (fun r => r.value.toNat / 0x1000) = List.range 12 ∧
  ∀ w : BitVec 16, opcodeMap.Pairwise fun r r' => ¬ (r.selects w = true ∧ r'.selects w = true)

/-- R79: a reserved opcode fails with `E_ILLEGAL` and changes no state except `ERR`. -/
def Obligations.ReservedOpcodesFail : Prop :=
  ∀ (c : Command) (s : State), 0xC000 ≤ c.cw.toNat → issue c s = .next (s.failedWith .illegal)

/-- R74: for every opcode but that of `LDF`, any value of `WD` gives the same result. -/
def Obligations.OnlyLdfReadsTheDataWord : Prop :=
  ∀ (cw : BitVec 16) (wd wd' : Count) (s : State), cw.toNat / 0x1000 ≠ 2 → issue ⟨cw, wd⟩ s = issue ⟨cw, wd'⟩ s

/-! ## The step, failing, and errors -/

/-- A step runs the command the host presents next (R58, R83): decoded, it is `exec` of the command in the state with the
item taken off the host's list; an illegal word fails; with nothing to do the block waits, unchanged. That the host's
items stand in the state is the model's own choice (notes/assumptions/1.md). -/
def Obligations.StepRunsTheDecodedCommand : Prop :=
  (∀ (s : State) (c : Command) (rest : List HostInput) (i : Instr),
    s.hostIn = .command c :: rest → decode c = .ok i → step s = exec i { s with hostIn := rest }) ∧
  (∀ (s : State) (c : Command) (rest : List HostInput) (e : Illegal),
    s.hostIn = .command c :: rest → decode c = .error e →
      step s = .next (State.failedWith { s with hostIn := rest } .illegal)) ∧
  ∀ s : State, s.hostIn = [] → step s = .next s

/-- R75 (its sentence on responses): a step on a command adds exactly one response after the earlier ones, and a failing
one carries data 0. -/
def Obligations.OneResponsePerCommand : Prop :=
  ∀ (s t : State) (c : Command) (rest : List HostInput), s.hostIn = .command c :: rest → step s = .next t →
    t.hostIn = rest ∧ ∃ r, t.hostOut = s.hostOut ++ [r] ∧ (r.status ≠ .ok → r.data = 0)

/-- R233: a command that ends with a status other than `OK` has response data 0, notes its status in `ERR` if `ERR` was
0, and changes nothing else. -/
def Obligations.FailedCommandChangesOnlyErr : Prop :=
  ∀ (c : Command) (s t : State) (r : Response),
    issue c s = .next t → t.hostOut = s.hostOut ++ [r] → r.status ≠ .ok → t = s.failedWith r.status

/-- R231 and R234: in every state of the invariant every command word is answered with the status of the first check
that fails, `E_ILLEGAL` before any check of state, and that status is what is recorded. -/
def Obligations.ErrorCausesAndPriority : Prop :=
  ∀ (c : Command) (s : State), Inv s →
    ∃ t r, issue c s = .next t ∧ t.hostOut = s.hostOut ++ [r] ∧ r.status = expectedStatus c s ∧
      (r.status ≠ .ok → t.err = if s.err = .ok then r.status else s.err)

/-- R32: `ERR` is 0 after reset; the first failing command's code is kept; `CLR` and reset clear it, and nothing else
does. -/
def Obligations.ErrKeepsTheFirstError : Prop :=
  State.reset.err = .ok ∧
  (∀ (c : Command) (s t : State) (r : Response), issue c s = .next t → t.hostOut = s.hostOut ++ [r] → s.err = .ok →
    t.err = r.status) ∧
  (∀ s t : State, step s = .next t → s.err ≠ .ok → t.err = s.err ∨
    (t.err = .ok ∧ ∃ rest, s.hostIn = .reset :: rest ∨ (∃ c, s.hostIn = .resetDuring c :: rest) ∨
      ∃ c, s.hostIn = .command c :: rest ∧ c.cw = 0x1000)) ∧
  ∀ (s : State) (rest : List HostInput),
    (s.hostIn = .reset :: rest ∨ (∃ c, s.hostIn = .resetDuring c :: rest) ∨
      ∃ c, s.hostIn = .command c :: rest ∧ c.cw = 0x1000) → ∃ t, step s = .next t ∧ t.err = .ok

/-- R263: every command in the reset state, `BUILD` answering `TK = NONE`. -/
def Obligations.EveryCommandIsDefinedAfterReset : Prop :=
  (∀ i : Instr, ∃ t r, exec i State.reset = .next t ∧ t.hostOut = [r] ∧
    r.status = match i with
      | .nop | .clr | .ldf _ _ | .rdf _ | .build | .rds => Status.ok
      | .rdn _ | .gencode | .dstart => .notree
      | .rdc _ => .nocode
      | .dbit _ | .dend => .idle) ∧
  ∃ t, exec .build State.reset = .next t ∧ t.tv = true ∧ t.tk = .noTree ∧ t.hostOut = [⟨.ok, 0⟩]

/-- `rst = 1`, with or without a command in flight, as one step: the reset values of R40, no response, and the host's
later items and the responses already given left alone (70_reset_and_hazards.md section 1). That the host's items stand
in the state is the model's choice (notes/assumptions/1.md). -/
def Obligations.ResetGivesTheResetState : Prop :=
  ∀ (s : State) (c : Command) (rest : List HostInput),
    s.hostIn = .reset :: rest ∨ s.hostIn = .resetDuring c :: rest →
      ∃ t, step s = .next t ∧ IsResetState t ∧ t.hostIn = rest ∧ t.hostOut = s.hostOut

/-! ## Table and system commands -/

/-- R100: `NOP` answers `OK` with data 0 in every state and changes nothing; with an operand bit it is illegal. -/
def Obligations.NopDoesNothing : Prop :=
  (∀ s : State, exec .nop s = .next (s.succeeded 0)) ∧
  (∀ (wd : Count) (s : State), issue ⟨0x0000, wd⟩ s = .next (s.succeeded 0)) ∧
  ∀ (c : Command) (s : State), c.cw.toNat / 0x1000 = 0 → c.cw.toNat % 0x1000 ≠ 0 →
    issue c s = .next (s.failedWith .illegal)

/-- R101: after `CLR` every element that R40 gives a reset value has it, as it has after reset; a `CLR` that fails decode
clears nothing. What `NODE` and `CT` hold is unspecified in both, so nothing is said of it. -/
def Obligations.ClrReturnsToTheResetState : Prop :=
  (∀ s : State, ∃ t, exec .clr s = .next t ∧ IsResetState t ∧ t.hostIn = s.hostIn ∧
    t.hostOut = s.hostOut ++ [⟨.ok, 0⟩]) ∧
  IsResetState State.reset ∧
  (∀ (wd : Count) (s : State), issue ⟨0x1000, wd⟩ s = exec .clr s) ∧
  ∀ (c : Command) (s : State), c.cw.toNat / 0x1000 = 1 → c.cw.toNat % 0x1000 ≠ 0 →
    issue c s = .next (s.failedWith .illegal)

/-- R102: `LDF` replaces one entry, leaves every other, clears `TV`, `TK`, `ROOT`, `NCOUNT`, `CV`, `DA` and `DCUR`
whatever the value, leaves `ERR`, and fails only where `CW[11:8]` is not 0. -/
def Obligations.LdfLoadsOneEntry : Prop :=
  (∀ (sym : Sym) (val : Count) (s : State), ∃ t, exec (.ldf sym val) s = .next t ∧
    ftRead t.ft sym.toNat = val ∧ (∀ c, c ≠ sym.toNat → ftRead t.ft c = ftRead s.ft c) ∧
    t.tv = false ∧ t.tk = .noTree ∧ t.root = 0 ∧ t.ncount = 0 ∧ t.cv = false ∧ t.da = false ∧ t.dcur = 0 ∧
    t.err = s.err ∧ t.hostIn = s.hostIn ∧ t.hostOut = s.hostOut ++ [⟨.ok, 0⟩]) ∧
  (∀ (sym : Sym) (val : Count) (s : State),
    issue ⟨0x2000 + sym.setWidth 16, val⟩ s = exec (.ldf sym val) s) ∧
  ∀ (c : Command) (s : State), c.cw.toNat / 0x1000 = 2 → c.cw.toNat / 0x100 % 0x10 ≠ 0 →
    issue c s = .next (s.failedWith .illegal)

/-- R103: `RDF` answers the entry, 0 where none was loaded, changes nothing, and fails only where `CW[11:8]` is not 0. -/
def Obligations.RdfReadsOneEntry : Prop :=
  (∀ (sym : Sym) (s : State), ∃ d : RspData, exec (.rdf sym) s = .next (s.succeeded d) ∧
    d.toNat = (ftRead s.ft sym.toNat).toNat) ∧
  (∀ (sym : Sym) (wd : Count) (s : State), issue ⟨0x3000 + sym.setWidth 16, wd⟩ s = exec (.rdf sym) s) ∧
  (∀ c, ftRead State.reset.ft c = 0) ∧
  ∀ (c : Command) (s : State), c.cw.toNat / 0x1000 = 3 → c.cw.toNat / 0x100 % 0x10 ≠ 0 →
    issue c s = .next (s.failedWith .illegal)

/-- R104 with the layout of R34 and `DM` of R33: `RDS` answers the status word, bit range by bit range, and changes
nothing; with an operand bit it is illegal. -/
def Obligations.RdsReportsTheStatusWord : Prop :=
  (∀ s : State, ∃ d : RspData, exec .rds s = .next (s.succeeded d) ∧
    d.getLsbD 0 = s.tv ∧ d.extractLsb' 1 2 = treeKindCode s.tk ∧ d.getLsbD 3 = s.cv ∧ d.getLsbD 4 = s.da ∧
    (d.getLsbD 5 = true ↔ s.da = true ∧ s.dcur ≠ s.root) ∧ d.extractLsb' 6 4 = statusCode s.err ∧
    d.extractLsb' 10 9 = s.root ∧ d.extractLsb' 19 10 = s.ncount ∧ d.extractLsb' 29 9 = s.dcur ∧
    d.toNat < 2 ^ 38) ∧
  (∀ (wd : Count) (s : State), issue ⟨0xB000, wd⟩ s = exec .rds s) ∧
  ∀ (c : Command) (s : State), c.cw.toNat / 0x1000 = 0xB → c.cw.toNat % 0x1000 ≠ 0 →
    issue c s = .next (s.failedWith .illegal)

/-! ## Tree builder -/

/-- R121: the ordering is the lexicographic one on the pair of frequency and character code, as unsigned numbers, and
the two comparisons the source works out (95_test_vectors.md S5). -/
def Obligations.OrderingIsFrequencyThenCode : Prop :=
  (∀ A B : NodeRec, before A B = true ↔
    A.fq.toNat < B.fq.toNat ∨ (A.fq.toNat = B.fq.toNat ∧ A.cc.toNat < B.cc.toNat)) ∧
  ∀ (lf lf' : Bool) (lc lc' rc rc' : NodeIdx),
    before ⟨97, 4, lf, lc, rc⟩ ⟨44, 4, lf', lc', rc'⟩ = false ∧
    before ⟨44, 4, lf, lc, rc⟩ ⟨97, 4, lf', lc', rc'⟩ = true ∧
    before ⟨97, 4, lf, lc, rc⟩ ⟨52, 16, lf', lc', rc'⟩ = true

/-- R127 and what R130 says of the registers and the response: `BUILD` completes in every state; with no leaf there is no
tree, with one leaf it is the root at `NODE[0]`, with more the last node created is the root; `FT` and `ERR` are read
or left alone. -/
def Obligations.BuildCompletes : Prop :=
  ∀ s : State, ∃ (t : State) (d : RspData), exec .build s = .next t ∧
    t.ft = s.ft ∧ t.err = s.err ∧ t.hostIn = s.hostIn ∧ t.hostOut = s.hostOut ++ [⟨.ok, d⟩] ∧
    t.tv = true ∧ t.cv = false ∧ t.da = false ∧ t.dcur = 0 ∧
    d.extractLsb' 0 2 = treeKindCode t.tk ∧ d.extractLsb' 2 9 = t.root ∧ d.extractLsb' 11 10 = t.ncount ∧
    d.toNat < 2 ^ 21 ∧
    (leafCount s.ft = 0 → t.tk = .noTree ∧ t.root = 0 ∧ t.ncount = 0) ∧
    (leafCount s.ft = 1 → t.tk = .single ∧ t.root = 0 ∧ t.ncount = 1 ∧ (nodeRead t.node 0).lf = true) ∧
    (2 ≤ leafCount s.ft → t.tk = .general ∧ t.ncount.toNat = 2 * leafCount s.ft - 1 ∧
      t.root.toNat = t.ncount.toNat - 1 ∧ (nodeRead t.node t.root.toNat).lf = false)

/-- R123: the k-th non-zero entry, codes ascending, is the leaf at `NODE[k]`; there are no other leaves. -/
def Obligations.LeavesAreMadeInCodeOrder : Prop :=
  ∀ s t : State, exec .build s = .next t →
    (∀ (k c : Nat), (usedCodes s.ft)[k]? = some c →
      nodeRead t.node k = ⟨BitVec.ofNat 8 c, (ftRead s.ft c).setWidth 40, true, 0, 0⟩) ∧
    ∀ i, i < t.ncount.toNat → (nodeRead t.node i).lf = true → i < leafCount s.ft

/-- R125 and R126: there are `L - 1` internal nodes, and each, in the order of creation (R131), merges the two
least nodes live at that moment, the least one on the left, with the exact sum of the frequencies and the smaller
code. -/
def Obligations.EachPassMergesTheTwoLeastNodes : Prop :=
  ∀ s t : State, exec .build s = .next t →
    (1 ≤ leafCount s.ft → t.ncount.toNat = leafCount s.ft + (leafCount s.ft - 1)) ∧
    ∀ i, leafCount s.ft ≤ i → i < t.ncount.toNat →
      let a := (nodeRead t.node i).lc.toNat
      let b := (nodeRead t.node i).rc.toNat
      LiveAt t.node (leafCount s.ft) i a ∧ LiveAt t.node (leafCount s.ft) i b ∧ a ≠ b ∧
      (∀ j, LiveAt t.node (leafCount s.ft) i j → j ≠ a → before (nodeRead t.node a) (nodeRead t.node j) = true) ∧
      (∀ j, LiveAt t.node (leafCount s.ft) i j → j ≠ a → j ≠ b →
        before (nodeRead t.node b) (nodeRead t.node j) = true) ∧
      (nodeRead t.node i).lf = false ∧
      (nodeRead t.node i).cc.toNat = min (nodeRead t.node a).cc.toNat (nodeRead t.node b).cc.toNat ∧
      (nodeRead t.node i).fq.toNat = (nodeRead t.node a).fq.toNat + (nodeRead t.node b).fq.toNat

/-- R122: whenever a node is about to be made, and at the end, different live nodes have different character codes, and
exactly one of two comes before the other. -/
def Obligations.LiveNodesHaveDistinctKeys : Prop :=
  ∀ s t : State, exec .build s = .next t →
    ∀ i, leafCount s.ft ≤ i → i ≤ t.ncount.toNat → ∀ j k, j ≠ k →
      LiveAt t.node (leafCount s.ft) i j → LiveAt t.node (leafCount s.ft) i k →
        (nodeRead t.node j).cc ≠ (nodeRead t.node k).cc ∧
        (before (nodeRead t.node j) (nodeRead t.node k) = true ↔
          before (nodeRead t.node k) (nodeRead t.node j) = false)

/-- R132: the seven items, for every table with at least one non-zero entry. -/
def Obligations.BuiltTreeHasItsStructure : Prop :=
  ∀ s t : State, exec .build s = .next t → 1 ≤ leafCount s.ft → TreeFacts s.ft t

/-- R138 and R120: whatever else the block holds, the same 256 entries give the same records, root, count and kind. -/
def Obligations.TreeDependsOnTheTableAlone : Prop :=
  ∀ s s' t t' : State, (∀ c, c < NSYM → ftRead s.ft c = ftRead s'.ft c) →
    exec .build s = .next t → exec .build s' = .next t' →
      t.node = t'.node ∧ t.root = t'.root ∧ t.ncount = t'.ncount ∧ t.tk = t'.tk

/-- R135: any structure whose `extract()` removes the least live node gives the records and the count `BUILD` makes. -/
def Obligations.AnyConformingQueueBuildsTheSameTree : Prop :=
  ∀ (Q : Type) (ops : QueueOps Q) (good : Q → Prop) (members : Q → List Live), ops.Conforms good members →
    ∀ ft : Memory Count,
      (buildTreeWith ops ft).node = (buildTree ft).node ∧ (buildTreeWith ops ft).n = (buildTree ft).n

/-- R140 and R141: both realisations conform to the queue of R124, the heap on the arrays its own operations make, and
the heap gives the same trees as the scan. -/
def Obligations.BothRealisationsConform : Prop :=
  scanQueue.Conforms (fun _ => True) id ∧ (∃ good, heapQueue.Conforms good id) ∧
  ∀ ft : Memory Count, (buildTreeWith heapQueue ft).node = (buildTreeWith scanQueue ft).node ∧
    (buildTreeWith heapQueue ft).n = (buildTreeWith scanQueue ft).n

/-- R134: the source's tie-break law fails for `{97:1, 98:1, 99:1, 100:2}`, where the least common ancestor `NODE[5]` of
the leaves 97 and 99 has the leaf 99 on the left and the node that holds 97 on the right; what holds is that of two
sibling leaves of equal frequency the one with the smaller code is the left child. -/
def Obligations.TieBreakLawAsCorrected : Prop :=
  (∀ s t : State, s.ft = [(97, 1), (98, 1), (99, 1), (100, 2)] → exec .build s = .next t →
    nodeRead t.node 0 = ⟨97, 1, true, 0, 0⟩ ∧ nodeRead t.node 2 = ⟨99, 1, true, 0, 0⟩ ∧
    nodeRead t.node 4 = ⟨97, 2, false, 0, 1⟩ ∧ nodeRead t.node 5 = ⟨97, 3, false, 2, 4⟩) ∧
  ∀ s t : State, exec .build s = .next t → ∀ i, leafCount s.ft ≤ i → i < t.ncount.toNat →
    let A := nodeRead t.node (nodeRead t.node i).lc.toNat
    let B := nodeRead t.node (nodeRead t.node i).rc.toNat
    before A B = true ∧ (A.lf = true → B.lf = true → A.fq = B.fq → A.cc.toNat < B.cc.toNat)

/-- R136: `RDN` answers the five fields of the record where `TV = 1` and `idx < NCOUNT`, fails otherwise with `TV`
checked first, and changes nothing else. -/
def Obligations.RdnReadsOneRecord : Prop :=
  (∀ (idx : NodeIdx) (s : State), s.tv = true → idx.toNat < s.ncount.toNat →
    ∃ d : RspData, exec (.rdn idx) s = .next (s.succeeded d) ∧
      d.extractLsb' 0 8 = (nodeRead s.node idx.toNat).cc ∧ d.getLsbD 8 = (nodeRead s.node idx.toNat).lf ∧
      d.extractLsb' 9 9 = (nodeRead s.node idx.toNat).lc ∧ d.extractLsb' 18 9 = (nodeRead s.node idx.toNat).rc ∧
      d.extractLsb' 27 40 = (nodeRead s.node idx.toNat).fq ∧ d.toNat < 2 ^ 67) ∧
  (∀ (idx : NodeIdx) (s : State), s.tv = false → exec (.rdn idx) s = .next (s.failedWith .notree)) ∧
  (∀ (idx : NodeIdx) (s : State), s.tv = true → s.ncount.toNat ≤ idx.toNat →
    exec (.rdn idx) s = .next (s.failedWith .range)) ∧
  (∀ (idx : NodeIdx) (wd : Count) (s : State), issue ⟨0x5000 + idx.setWidth 16, wd⟩ s = exec (.rdn idx) s) ∧
  ∀ (c : Command) (s : State), c.cw.toNat / 0x1000 = 5 → c.cw.toNat / 0x200 % 8 ≠ 0 →
    issue c s = .next (s.failedWith .illegal)

/-! ## Coder -/

/-- R163 as far as completion, flags, frame and errors go: with a tree built `GENCODE` completes, sets `CV`, writes `CT`
alone beside it and leaves a decode in progress alone; without one it fails with `E_NOTREE`; with an operand bit it is
illegal. What it writes is `CodesArePathsOfTheTree`. -/
def Obligations.GencodeCompletes : Prop :=
  (∀ s : State, Inv s → s.tv = true →
    ∃ t, exec .gencode s = .next t ∧ t.cv = true ∧
      t = { s with ct := t.ct, cv := true, hostOut := s.hostOut ++ [⟨.ok, 0⟩] }) ∧
  (∀ s : State, s.tv = false → exec .gencode s = .next (s.failedWith .notree)) ∧
  (∀ (wd : Count) (s : State), issue ⟨0x6000, wd⟩ s = exec .gencode s) ∧
  ∀ (c : Command) (s : State), c.cw.toNat / 0x1000 = 6 → c.cw.toNat % 0x1000 ≠ 0 →
    issue c s = .next (s.failedWith .illegal)

/-- R168: items 1, 2, 3 and 5 of every state with `CV = 1`, and item 4: with or without the guard "if not already
assigned", and whichever subtree is visited first, the walk gives the same table. -/
def Obligations.CodesArePathsOfTheTree : Prop :=
  (∀ s : State, Inv s → s.cv = true → CodeFacts s) ∧
  ∀ (s : State) (guarded leftFirst : Bool), Inv s → s.tv = true → s.tk ≠ .noTree →
    codeTable s.node s.root s.tk = some (visit s.node guarded leftFirst (NNODE + 1) s.root.toNat [] emptyCoding).ct

/-- R169: the recursive form gives the same code table as the loop with the explicit stack. -/
def Obligations.RecursiveWalkGivesTheSameCodes : Prop :=
  ∀ s : State, Inv s → s.tv = true →
    codeTable s.node s.root s.tk =
      some (if s.tk = .noTree then [] else (visit s.node true true (NNODE + 1) s.root.toNat [] emptyCoding).ct)

/-- R165: while `CV = 1` and `TK = GENERAL`, no code of a character is a prefix of the code of another. -/
def Obligations.CodesArePrefixFree : Prop :=
  ∀ (s : State) (c d : Sym), Inv s → s.cv = true → s.tk = .general → c ≠ d →
    0 < (ctRead s.cv s.ct c.toNat).len.toNat → 0 < (ctRead s.cv s.ct d.toNat).len.toNat →
      ¬ codeBits (ctRead s.cv s.ct c.toNat) <+: codeBits (ctRead s.cv s.ct d.toNat)

/-- R164 (its bound on a code): with `L` leaves no code is longer than `L - 1` bits, and `L - 1` is at most 255. -/
def Obligations.CodesAreShorterThanTheAlphabet : Prop :=
  ∀ (s : State) (c : Sym), Inv s → s.cv = true → 1 ≤ leafCount s.ft →
    (ctRead s.cv s.ct c.toNat).len.toNat ≤ leafCount s.ft - 1 ∧ leafCount s.ft - 1 ≤ CODE_MAX

/-- R167: `RDC` answers the code where `CV = 1`, length at 7:0 and code bit `k` at `8+k`, fails with `E_NOCODE`
otherwise, and changes nothing else. -/
def Obligations.RdcReadsOneCode : Prop :=
  (∀ (sym : Sym) (s : State), s.cv = true → ∃ d : RspData, exec (.rdc sym) s = .next (s.succeeded d) ∧
    d.extractLsb' 0 8 = (ctRead s.cv s.ct sym.toNat).len ∧
    ∀ k, k < CODE_MAX → d.getLsbD (8 + k) = (ctRead s.cv s.ct sym.toNat).bits.getLsbD k) ∧
  (∀ (sym : Sym) (s : State), s.cv = false → exec (.rdc sym) s = .next (s.failedWith .nocode)) ∧
  (∀ (sym : Sym) (wd : Count) (s : State), issue ⟨0x7000 + sym.setWidth 16, wd⟩ s = exec (.rdc sym) s) ∧
  ∀ (c : Command) (s : State), c.cw.toNat / 0x1000 = 7 → c.cw.toNat / 0x100 % 0x10 ≠ 0 →
    issue c s = .next (s.failedWith .illegal)

/-! ## Decoder -/

/-- R181: `DSTART` begins at the root where a general tree is built, also in the middle of a decode; otherwise it fails,
`TV` checked before the kind. -/
def Obligations.DstartBeginsAtTheRoot : Prop :=
  (∀ s : State, s.tv = true → s.tk = .general →
    exec .dstart s = .next { s with da := true, dcur := s.root, hostOut := s.hostOut ++ [⟨.ok, 0⟩] }) ∧
  (∀ s : State, s.tv = false → exec .dstart s = .next (s.failedWith .notree)) ∧
  (∀ s : State, s.tv = true → s.tk ≠ .general → exec .dstart s = .next (s.failedWith .kind)) ∧
  (∀ (wd : Count) (s : State), issue ⟨0x8000, wd⟩ s = exec .dstart s) ∧
  ∀ (c : Command) (s : State), c.cw.toNat / 0x1000 = 8 → c.cw.toNat % 0x1000 ≠ 0 →
    issue c s = .next (s.failedWith .illegal)

/-- R182: `DBIT` goes left on 0 and right on 1; at a leaf it reports the character and returns to the root, else it moves
`DCUR` and reports nothing; without a decode in progress it fails with `E_IDLE`. -/
def Obligations.DbitDescendsOneEdge : Prop :=
  (∀ (b : Bool) (s : State) (nxt : NodeIdx), s.da = true →
    nxt = (match b with | false => (nodeRead s.node s.dcur.toNat).lc | true => (nodeRead s.node s.dcur.toNat).rc) →
      ((nodeRead s.node nxt.toNat).lf = false →
        exec (.dbit b) s = .next { s with dcur := nxt, hostOut := s.hostOut ++ [⟨.ok, 0⟩] }) ∧
      ((nodeRead s.node nxt.toNat).lf = true → ∃ d : RspData,
        exec (.dbit b) s = .next { s with dcur := s.root, hostOut := s.hostOut ++ [⟨.ok, d⟩] } ∧
        d.toNat = 2 * (nodeRead s.node nxt.toNat).cc.toNat + 1)) ∧
  (∀ (b : Bool) (s : State), s.da = false → exec (.dbit b) s = .next (s.failedWith .idle)) ∧
  (∀ (b : Bool) (wd : Count) (s : State), issue ⟨if b then 0x9001 else 0x9000, wd⟩ s = exec (.dbit b) s) ∧
  ∀ (c : Command) (s : State), c.cw.toNat / 0x1000 = 9 → c.cw.toNat / 2 % 0x800 ≠ 0 →
    issue c s = .next (s.failedWith .illegal)

/-- R183: `DEND` closes a decode at the root; in mid-path it fails with `E_CORRUPT` and leaves the decode open; without
a decode it fails with `E_IDLE`. -/
def Obligations.DendClosesAtTheRoot : Prop :=
  (∀ s : State, s.da = true → s.dcur = s.root →
    exec .dend s = .next { s with da := false, dcur := 0, hostOut := s.hostOut ++ [⟨.ok, 0⟩] }) ∧
  (∀ s : State, s.da = true → s.dcur ≠ s.root → exec .dend s = .next (s.failedWith .corrupt)) ∧
  (∀ s : State, s.da = false → exec .dend s = .next (s.failedWith .idle)) ∧
  (∀ (wd : Count) (s : State), issue ⟨0xA000, wd⟩ s = exec .dend s) ∧
  ∀ (c : Command) (s : State), c.cw.toNat / 0x1000 = 0xA → c.cw.toNat % 0x1000 ≠ 0 →
    issue c s = .next (s.failedWith .illegal)

/-- R184: `DSTART`, `DBITS s`, `DEND` report, in order, the symbols of `dec(ROOT, s)`; `DEND` succeeds where the bits end
at the root and fails with `E_CORRUPT` otherwise; every earlier command succeeds. -/
def Obligations.DecodeFollowsTheRecursiveFunction : Prop :=
  ∀ (s : State) (bits : List Bool), Inv s → s.tv = true → s.tk = .general →
    ∃ (t : State) (rs : List Response) (last : Response),
      runAll (decodeCommands bits) s = some t ∧ t.hostOut = s.hostOut ++ rs ++ [last] ∧
      rs.length = bits.length + 1 ∧ (∀ r ∈ rs, r.status = .ok) ∧
      rs.filterMap symbolReported = (decBits s.node s.root.toNat s.root.toNat bits).1 ∧
      last.status = if (decBits s.node s.root.toNat s.root.toNat bits).2 = s.root.toNat then .ok else .corrupt

/-- R185: from the root, the bits of the code of a used character report nothing but, on the last bit, the character,
and end at the root; the concatenated codes of a text of used characters report exactly the text, and `DEND` succeeds. -/
def Obligations.DecoderInvertsCoder : Prop :=
  (∀ (s : State) (c : Sym), Inv s → s.tk = .general → s.cv = true → s.da = true → s.dcur = s.root →
    ftRead s.ft c.toNat ≠ 0 →
      ∃ d : RspData, d.toNat = 2 * c.toNat + 1 ∧
        runAll (dbits (codeBits (ctRead s.cv s.ct c.toNat))) s =
          some { s with hostOut := s.hostOut ++
            (List.replicate ((ctRead s.cv s.ct c.toNat).len.toNat - 1) ⟨.ok, 0⟩ ++ [⟨.ok, d⟩]) }) ∧
  ∀ (s : State) (T : Text), Inv s → s.tk = .general → s.cv = true → s.da = true → s.dcur = s.root →
    (∀ c ∈ T, ftRead s.ft c.toNat ≠ 0) →
      ∃ rs, runAll (dbits (T.flatMap fun c => codeBits (ctRead s.cv s.ct c.toNat)) ++ [.dend]) s =
          some { s with da := false, dcur := 0, hostOut := s.hostOut ++ rs ++ [⟨.ok, 0⟩] } ∧
        (∀ r ∈ rs, r.status = .ok) ∧ rs.filterMap symbolReported = T

/-! ## Invariants and whole-machine rules -/

/-- The reset state satisfies the invariant (10_state.md sections 4 and 6). -/
def Obligations.ResetSatisfiesTheInvariant : Prop := Inv State.reset

/-- Every step, whatever the host does, keeps the invariant (10_state.md section 4): R35 item by item, `TV = 1` meaning
that the tree is the one of the present table (R25), `CV = 1` that the code table is the one of the present tree (R29),
and the canonical form of the memories, which is the model's (notes/assumptions/3.md). -/
def Obligations.StepKeepsTheInvariant : Prop := ∀ s t : State, Inv s → step s = .next t → Inv t

/-- R35: after reset and any number of steps, whatever the host presents, all seven items hold. -/
def Obligations.ControlInvariantsHoldAfterEveryCommand : Prop :=
  ∀ (inputs : List HostInput) (k : Nat) (t : State),
    core.run k { State.reset with hostIn := inputs } = .next t → ControlInvariants t

/-- R241 (its first sentence): no command hangs and none is stuck; in every state of the invariant every step answers a
next state, whatever the host does next. -/
def Obligations.NoCommandHangs : Prop := ∀ s : State, Inv s → ∃ t, step s = .next t

/-- R60: after `BUILD` or `LDF` a decode in progress is over and the next `DBIT` fails with `E_IDLE`, and no code of an
earlier tree can be read: `RDC` fails with `E_NOCODE`. -/
def Obligations.NothingStaleIsRead : Prop :=
  ∀ (s t : State) (i : Instr), (i = .build ∨ ∃ sym val, i = .ldf sym val) → exec i s = .next t →
    (∀ b, exec (.dbit b) t = .next (t.failedWith .idle)) ∧
    ∀ sym, exec (.rdc sym) t = .next (t.failedWith .nocode)

/-- R56 (its sentences on reads): a read command changes no state, and repeated it answers the same. The response log
grows, and `ERR` notes a failure. -/
def Obligations.ReadsHaveNoSideEffect : Prop :=
  ∀ (s t : State) (i : Instr),
    (i = .nop ∨ (∃ sym, i = .rdf sym) ∨ (∃ idx, i = .rdn idx) ∨ (∃ sym, i = .rdc sym) ∨ i = .rds) →
    exec i s = .next t →
      ∃ r, t = { s with err := t.err, hostOut := s.hostOut ++ [r] } ∧
        (r.status = .ok → t.err = s.err ∧ exec i t = .next { t with hostOut := t.hostOut ++ [r] })

/-- 10_state.md sections 2, 4 and 7: over a whole step, `FT` is written by `LDF`, `CLR` and reset alone; a tree becomes
valid by `BUILD` alone; a code table becomes valid by `GENCODE` alone; a decode begins by `DSTART` alone; and while a
tree stays valid with no `BUILD` its records, root, count and kind stay as they are. -/
def Obligations.OnlyTheirCommandsWriteEachElement : Prop :=
  ∀ (s t : State) (c : Command) (rest : List HostInput), s.hostIn = .command c :: rest → step s = .next t →
    ((∃ a, ftRead t.ft a ≠ ftRead s.ft a) → decode c = .ok .clr ∨ ∃ sym val, decode c = .ok (.ldf sym val)) ∧
    (s.tv = false → t.tv = true → decode c = .ok .build) ∧
    (s.cv = false → t.cv = true → decode c = .ok .gencode) ∧
    (s.da = false → t.da = true → decode c = .ok .dstart) ∧
    (s.tv = true → t.tv = true → decode c ≠ .ok .build →
      t.node = s.node ∧ t.root = s.root ∧ t.ncount = s.ncount ∧ t.tk = s.tk) ∧
    (s.cv = true → t.cv = true → decode c ≠ .ok .gencode → t.ct = s.ct)

/-! ## The port -/

/-- The handshake (30_encoding.md section 6). At an edge with `rst = 0` that accepts nothing, the state stays as it is,
but that a response taken there joins the list of responses given. A command is accepted where `cmd_valid = 1` and
`cmd_ready = 1`; until its response is taken `cmd_ready` is 0; `rsp_valid` rises after `LAT >= 1` edges, a finite number,
and stays, with the same response, until `rsp_ready`; at the edge that takes it `cmd_ready` rises (60_exceptions.md
section 5) and the state is that of the command run as one step. Choices of the model it rests on: the list of responses
(notes/assumptions/1.md), that each latency is a free value (8.md), and, for the state staying as it is between acceptance
and response, that the command writes at acceptance (9.md). -/
def Obligations.PortAnswersEachCommand : Prop :=
  (∀ (p : Port) (i : Pins), i.rst = false → i.cmdValid = false ∨ (p.out false).cmdReady = false →
    (p.edge i).accepted = p.accepted ∧
    (p.edge i).arch =
      { p.arch with hostOut := p.arch.hostOut ++ if i.rspReady then (p.out false).rsp.toList else [] }) ∧
  (∀ (p : Port) (i : Pins) (t : State) (r : Response), i.rst = false → i.cmdValid = true →
    (p.out false).cmdReady = true → issue i.cmd p.arch = .next t → t.hostOut = p.arch.hostOut ++ [r] →
      (p.edge i).accepted = p.accepted + 1 ∧
      ∃ lat, 1 ≤ lat ∧
        (∀ is : List Pins, (∀ j ∈ is, j.rst = false) → is.length ≤ lat →
          ((p.edge i).edges is).out false = ⟨false, if is.length = lat then some r else none⟩) ∧
        ∀ (is js : List Pins) (k : Pins), (∀ j ∈ is, j.rst = false) → is.length = lat →
          (∀ j ∈ js, j.rst = false ∧ j.rspReady = false) → k.rst = false → k.rspReady = true →
            ((p.edge i).edges (is ++ js)).out false = ⟨false, some r⟩ ∧
            (((p.edge i).edges (is ++ js)).edge k).out false = ⟨true, none⟩ ∧
            (((p.edge i).edges (is ++ js)).edge k).arch = t) ∧
  (∀ (p : Port) (i : Pins) (r : Response), (p.out false).rsp = some r → i.rst = false →
    (i.rspReady = false → (p.edge i).out false = ⟨false, some r⟩) ∧
    (i.rspReady = true → (p.edge i).out false = ⟨true, none⟩))

/-- R260 and R261, as the pins show them: while `rst = 1` both `cmd_ready` and `rsp_valid` are 0; an edge with `rst = 1`
gives the reset state, and what the port was doing is forgotten, so that no response to a command in flight can follow;
and once `rst` is 0 again `cmd_ready` rises after finitely many edges, whatever the host presents before it, with no
response shown and the full reset state still there for the first command accepted. -/
def Obligations.ResetWinsAtEveryEdge : Prop :=
  (∀ p : Port, p.out true = ⟨false, none⟩) ∧
  (∀ (p : Port) (i : Pins), i.rst = true →
    IsResetState (p.edge i).arch ∧ ∀ ph : Phase, ({ p with phase := ph } : Port).edge i = p.edge i) ∧
  ∀ (p : Port) (i : Pins), i.rst = true → ∃ delay, ∀ is : List Pins,
    (∀ j ∈ is, j.rst = false) → (∀ j ∈ is.drop delay, j.cmdValid = false) →
      IsResetState ((p.edge i).edges is).arch ∧
      ((p.edge i).edges is).out false = ⟨decide (delay ≤ is.length), none⟩

/-! ## Host and block together -/

/-- R216: parsing the header made of a frequency table gives the table, for every table: codes of the alphabet in
ascending order, with any counts other than 0 (R13, R201). -/
def Obligations.HeaderRoundTrip : Prop :=
  ∀ F : FreqTable, F.isTable → parseHeader (headerText F) = some F

/-- R214, with the duty of R213 as a premise: for every text, from any state of the encoding and of the decoding block,
decoding what was encoded gives the text back. -/
def Obligations.TextRoundTrip : Prop :=
  ∀ (T : Text) (s s' : State), (∀ c, c < NSYM → countOf T c < 2 ^ FREQ_W) →
    ∃ P, encodeText T s = .ok P ∧ decodeText P s' = .ok T

/-! ## The port and the step -/

/-- The port, edge by edge, and the step, a command or a reset at a time, agree (30_encoding.md section 6,
70_reset_and_hazards.md section 1). The list of responses given grows by the response taken at an edge and by nothing
else, a reset included. While the response of an accepted command has not been taken, the edge that takes it gives the
state of the step that runs the command, and an edge with `rst = 1` that of the step on a command cut short, with no
response listed for it. The two lists in the state are the model's choice (notes/assumptions/1.md), and a reset in
mid-command as one step its inference (notes/assumptions/13.md). -/
def Obligations.PortAgreesWithTheStep : Prop :=
  (∀ (p : Port) (i : Pins),
    (p.edge i).arch.hostOut = p.arch.hostOut ++ if i.rspReady then (p.out i.rst).rsp.toList else []) ∧
  ∀ (p : Port) (i k : Pins) (is : List Pins), i.rst = false → i.cmdValid = true → (p.out false).cmdReady = true →
    (∀ j ∈ is, j.rst = false) →
    (∀ (pre post : List Pins) (j : Pins), is = pre ++ j :: post → j.rspReady = true →
      (((p.edge i).edges pre).out false).rsp = none) →
      (k.rst = false → k.rspReady = true → (((p.edge i).edges is).out false).rsp ≠ none →
        step { p.arch with hostIn := .command i.cmd :: p.arch.hostIn } =
          .next (((p.edge i).edges is).edge k).arch) ∧
      (k.rst = true →
        step { p.arch with hostIn := .resetDuring i.cmd :: p.arch.hostIn } =
          .next (((p.edge i).edges is).edge k).arch)
end

