-- ==== Sys2Proof/Laws/Memory.lean ====
section
/-! SUPPORT. The laws of the element-indexed memories: read after write, and that every operation keeps the canonical
form. -/

namespace Sys2Proof

variable {α : Type}

@[simp] theorem readCell_nil (i : Nat) : readCell ([] : Memory α) i = none := rfl

theorem readCell_cons (k : Nat) (v : α) (m : Memory α) (i : Nat) :
    readCell ((k, v) :: m) i = if k = i then some v else readCell m i := rfl

/-- An index below all listed ones is not listed. -/
theorem readCell_eq_none {m : Memory α} {i : Nat} (h : ∀ x ∈ m, x.1 ≠ i) : readCell m i = none := by
  induction m with
  | nil => rfl
  | cons x m ih =>
    rw [show x = (x.1, x.2) from rfl, readCell_cons, if_neg (h x (by simp))]
    exact ih fun y hy => h y (by simp [hy])

/-- What a memory lists at an index is one of its entries. -/
theorem readCell_mem {m : Memory α} {i : Nat} {v : α} (h : readCell m i = some v) : (i, v) ∈ m := by
  induction m with
  | nil => simp at h
  | cons x m ih =>
    rw [show x = (x.1, x.2) from rfl, readCell_cons] at h
    split at h
    · next hk => cases h; subst hk; simp
    · exact List.mem_cons_of_mem _ (ih h)

/-- In a memory with rising indices every entry is what reading its index gives. -/
theorem readCell_of_mem {m : Memory α} (hm : m.Pairwise fun x y => x.1 < y.1) {i : Nat} {v : α} (h : (i, v) ∈ m) :
    readCell m i = some v := by
  induction m with
  | nil => simp at h
  | cons x m ih =>
    rw [List.pairwise_cons] at hm
    rw [show x = (x.1, x.2) from rfl, readCell_cons]
    rcases List.mem_cons.1 h with h | h
    · simp [← h]
    · rw [if_neg (Nat.ne_of_lt (hm.1 _ h)), ih hm.2 h]

/-- Reading an entry just written. -/
@[simp] theorem readCell_writeCell_same (m : Memory α) (i : Nat) (v : α) : readCell (writeCell m i v) i = some v := by
  induction m with
  | nil => simp [writeCell, readCell]
  | cons x m ih =>
    simp only [writeCell]
    split
    · simp [readCell]
    · split
      · simp [readCell]
      · next h => simp [readCell, Ne.symm h, ih]

/-- A write leaves every other index alone. -/
theorem readCell_writeCell_other (m : Memory α) {i j : Nat} (v : α) (h : j ≠ i) :
    readCell (writeCell m i v) j = readCell m j := by
  induction m with
  | nil => simp [writeCell, readCell, Ne.symm h]
  | cons x m ih =>
    simp only [writeCell]
    split
    · simp [readCell, Ne.symm h]
    · split
      · next hk => simp [readCell, Ne.symm h, ← hk]
      · simp only [readCell, ih]

@[simp] theorem readCell_eraseCell_same (m : Memory α) (i : Nat) : readCell (eraseCell m i) i = none := by
  induction m with
  | nil => rfl
  | cons x m ih =>
    simp only [eraseCell]
    split
    · exact ih
    · next h => simp [readCell, h, ih]

theorem readCell_eraseCell_other (m : Memory α) {i j : Nat} (h : j ≠ i) :
    readCell (eraseCell m i) j = readCell m j := by
  induction m with
  | nil => rfl
  | cons x m ih =>
    simp only [eraseCell]
    split
    · next hk => simp [readCell, ih, hk, Ne.symm h]
    · simp only [readCell, ih]

/-- Reading an element of a memory with a default, after storing to it. -/
@[simp] theorem getD_readCell_storeCell_same [DecidableEq α] (dflt : α) (m : Memory α) (i : Nat) (v : α) :
    (readCell (storeCell dflt m i v) i).getD dflt = v := by
  unfold storeCell
  split
  · next h => simp [h]
  · simp

theorem readCell_storeCell_other [DecidableEq α] (dflt : α) (m : Memory α) {i j : Nat} (v : α) (h : j ≠ i) :
    readCell (storeCell dflt m i v) j = readCell m j := by
  unfold storeCell
  split
  · exact readCell_eraseCell_other m h
  · exact readCell_writeCell_other m v h

/-- An entry after a write is the one written or an entry from before. -/
theorem mem_writeCell {m : Memory α} {i : Nat} {v : α} {x : Nat × α} (h : x ∈ writeCell m i v) :
    x = (i, v) ∨ x ∈ m := by
  induction m with
  | nil => simpa [writeCell] using h
  | cons y m ih =>
    simp only [writeCell] at h
    split at h
    · simpa using h
    · split at h
      · rcases List.mem_cons.1 h with h | h
        · exact .inl h
        · exact .inr (List.mem_cons_of_mem _ h)
      · rcases List.mem_cons.1 h with h | h
        · exact .inr (h ▸ List.mem_cons_self)
        · exact (ih h).imp_right (List.mem_cons_of_mem _)

theorem mem_eraseCell {m : Memory α} {i : Nat} {x : Nat × α} (h : x ∈ eraseCell m i) : x ∈ m := by
  induction m with
  | nil => exact h
  | cons y m ih =>
    simp only [eraseCell] at h
    split at h
    · exact List.mem_cons_of_mem _ (ih h)
    · rcases List.mem_cons.1 h with h | h
      · exact h ▸ List.mem_cons_self
      · exact List.mem_cons_of_mem _ (ih h)

/-- Writing keeps the indices rising. -/
theorem writeCell_rising {m : Memory α} (i : Nat) (v : α) (h : m.Pairwise fun x y => x.1 < y.1) :
    (writeCell m i v).Pairwise fun x y => x.1 < y.1 := by
  induction m with
  | nil => simp [writeCell]
  | cons y m ih =>
    have hy := List.pairwise_cons.1 h
    simp only [writeCell]
    split
    · next hi =>
      refine List.pairwise_cons.2 ⟨fun z hz => ?_, h⟩
      rcases List.mem_cons.1 hz with hz | hz
      · exact hz ▸ hi
      · exact Nat.lt_trans hi (hy.1 z hz)
    · split
      · next hk => exact List.pairwise_cons.2 ⟨fun z hz => hk ▸ hy.1 z hz, hy.2⟩
      · next hi hk =>
        refine List.pairwise_cons.2 ⟨fun z hz => ?_, ih hy.2⟩
        rcases mem_writeCell hz with hz | hz
        · subst hz; change y.1 < i; change ¬ i < y.1 at hi; change ¬ i = y.1 at hk; omega
        · exact hy.1 z hz

theorem eraseCell_rising {m : Memory α} (i : Nat) (h : m.Pairwise fun x y => x.1 < y.1) :
    (eraseCell m i).Pairwise fun x y => x.1 < y.1 := by
  induction m with
  | nil => exact h
  | cons y m ih =>
    have hy := List.pairwise_cons.1 h
    simp only [eraseCell]
    split
    · exact ih hy.2
    · exact List.pairwise_cons.2 ⟨fun z hz => hy.1 z (mem_eraseCell hz), ih hy.2⟩

/-- A plain write of an element that is no default keeps the canonical form. -/
theorem writeCell_wf [DecidableEq α] {size : Nat} {dflt : Option α} {m : Memory α} {i : Nat} {v : α}
    (h : Memory.wf size dflt m) (hi : i < size) (hv : some v ≠ dflt) : Memory.wf size dflt (writeCell m i v) :=
  ⟨writeCell_rising i v h.1, fun x hx => (mem_writeCell hx).elim (fun e => e ▸ ⟨hi, hv⟩) (h.2 x)⟩

/-- Storing to a memory with a default keeps the canonical form, whatever is stored. -/
theorem storeCell_wf [DecidableEq α] {size : Nat} {dflt : α} {m : Memory α} {i : Nat} (v : α)
    (h : Memory.wf size (some dflt) m) (hi : i < size) : Memory.wf size (some dflt) (storeCell dflt m i v) := by
  unfold storeCell
  split
  · exact ⟨eraseCell_rising i h.1, fun x hx => h.2 x (mem_eraseCell hx)⟩
  · next hv => exact writeCell_wf h hi (by simpa using hv)

theorem nil_wf [DecidableEq α] (size : Nat) (dflt : Option α) : Memory.wf size dflt ([] : Memory α) := by
  simp [Memory.wf]

/-- Two memories with rising indices that list the same are the same data. -/
theorem eq_of_readCell_eq {m m' : Memory α} (h : m.Pairwise fun x y => x.1 < y.1)
    (h' : m'.Pairwise fun x y => x.1 < y.1) (he : ∀ i, readCell m i = readCell m' i) : m = m' := by
  induction m generalizing m' with
  | nil =>
    cases m' with
    | nil => rfl
    | cons y m' => have := he y.1; simp [readCell] at this
  | cons x m ih =>
    cases m' with
    | nil => have := he x.1; simp [readCell] at this
    | cons y m' =>
      have hx := List.pairwise_cons.1 h
      have hy := List.pairwise_cons.1 h'
      have low : ∀ {z : Nat × α} {n : Memory α} {i : Nat}, (∀ w ∈ n, z.1 < w.1) → i < z.1 →
          readCell (z :: n) i = none := fun {z n i} hn hi => readCell_eq_none fun w hw => by
        rcases List.mem_cons.1 hw with hw | hw
        · subst hw; omega
        · have := hn w hw; omega
      have hk : x.1 = y.1 := by
        rcases Nat.lt_trichotomy x.1 y.1 with hlt | heq | hlt
        · have := he x.1; rw [low hy.1 hlt] at this; simp [readCell] at this
        · exact heq
        · have := he y.1; rw [low hx.1 hlt] at this; simp [readCell] at this
      have hv : x.2 = y.2 := by have := he x.1; simpa [readCell, hk] using this
      have hxy : x = y := Prod.ext hk hv
      refine hxy ▸ congrArg (x :: ·) (ih hx.2 hy.2 fun i => ?_)
      by_cases hi : x.1 = i
      · rw [readCell_eq_none fun w hw => by have := hx.1 w hw; omega,
          readCell_eq_none fun w hw => by have := hy.1 w hw; omega]
      · have := he i; simpa [readCell, hi, hk ▸ hi] using this

end Sys2Proof

namespace Sys2Proof.Machine

/-- `LDF` reads back (R102). -/
@[simp] theorem ftRead_ftWrite_same (ft : Memory Count) (c : Nat) (v : Count) : ftRead (ftWrite ft c v) c = v :=
  getD_readCell_storeCell_same 0 ft c v

/-- A table write leaves every other entry alone. -/
theorem ftRead_ftWrite_other (ft : Memory Count) {c a : Nat} (v : Count) (h : a ≠ c) :
    ftRead (ftWrite ft c v) a = ftRead ft a := by
  simp only [ftRead, ftWrite, readCell_storeCell_other 0 ft v h]

@[simp] theorem ftRead_nil (c : Nat) : ftRead [] c = 0 := rfl

@[simp] theorem nodeRead_nodeWrite_same (m : Memory NodeRec) (i : Nat) (r : NodeRec) :
    nodeRead (nodeWrite m i r) i = r := by
  simp [nodeRead, nodeWrite]

theorem nodeRead_nodeWrite_other (m : Memory NodeRec) {i j : Nat} (r : NodeRec) (h : j ≠ i) :
    nodeRead (nodeWrite m i r) j = nodeRead m j := by
  simp only [nodeRead, nodeWrite, readCell_writeCell_other m r h]

@[simp] theorem ctRead_ctWrite_same (ct : Memory CodeRec) (c : Nat) (r : CodeRec) :
    ctRead true (ctWrite ct c r) c = r := by
  simp [ctRead, ctWrite]

theorem ctRead_ctWrite_other (ct : Memory CodeRec) {c a : Nat} (r : CodeRec) (h : a ≠ c) :
    ctRead true (ctWrite ct c r) a = ctRead true ct a := by
  simp only [ctRead, ctWrite, readCell_storeCell_other emptyCode ct r h]

/-- Table writes keep the canonical form of `FT`. -/
theorem ftWrite_wf {ft : Memory Count} (h : Memory.wf NSYM (some 0) ft) (sym : Sym) (v : Count) :
    Memory.wf NSYM (some 0) (ftWrite ft sym.toNat v) :=
  storeCell_wf v h sym.isLt

/-- Record writes keep the canonical form of `NODE`. -/
theorem nodeWrite_wf {m : Memory NodeRec} (h : Memory.wf NNODE none m) {i : Nat} (hi : i < NNODE) (r : NodeRec) :
    Memory.wf NNODE none (nodeWrite m i r) :=
  writeCell_wf h hi (by simp)

/-- Code writes keep the canonical form of `CT`. -/
theorem ctWrite_wf {ct : Memory CodeRec} (h : Memory.wf NSYM (some emptyCode) ct) (sym : Sym) (r : CodeRec) :
    Memory.wf NSYM (some emptyCode) (ctWrite ct sym.toNat r) :=
  storeCell_wf r h sym.isLt

/-- The three memories of the reset state have the canonical form. -/
theorem reset_memories_wf : Memory.wf NSYM (some 0) State.reset.ft ∧ Memory.wf NNODE none State.reset.node ∧
    Memory.wf NSYM (some emptyCode) State.reset.ct :=
  ⟨nil_wf _ _, nil_wf _ _, nil_wf _ _⟩

end Sys2Proof.Machine
end

