-- ==== Sys2Proof/Laws/State.lean ====
section
/-! SUPPORT. One lemma per field per update of the state, so that no later proof unfolds a record update. -/

namespace Sys2Proof.Machine

@[simp] theorem State.answer_ft (s : State) (st : Status) (d : RspData) : (s.answer st d).ft = s.ft := rfl
@[simp] theorem State.answer_node (s : State) (st : Status) (d : RspData) : (s.answer st d).node = s.node := rfl
@[simp] theorem State.answer_ct (s : State) (st : Status) (d : RspData) : (s.answer st d).ct = s.ct := rfl
@[simp] theorem State.answer_tv (s : State) (st : Status) (d : RspData) : (s.answer st d).tv = s.tv := rfl
@[simp] theorem State.answer_tk (s : State) (st : Status) (d : RspData) : (s.answer st d).tk = s.tk := rfl
@[simp] theorem State.answer_root (s : State) (st : Status) (d : RspData) : (s.answer st d).root = s.root := rfl
@[simp] theorem State.answer_ncount (s : State) (st : Status) (d : RspData) : (s.answer st d).ncount = s.ncount := rfl
@[simp] theorem State.answer_cv (s : State) (st : Status) (d : RspData) : (s.answer st d).cv = s.cv := rfl
@[simp] theorem State.answer_da (s : State) (st : Status) (d : RspData) : (s.answer st d).da = s.da := rfl
@[simp] theorem State.answer_dcur (s : State) (st : Status) (d : RspData) : (s.answer st d).dcur = s.dcur := rfl
@[simp] theorem State.answer_err (s : State) (st : Status) (d : RspData) : (s.answer st d).err = s.err := rfl
@[simp] theorem State.answer_hostIn (s : State) (st : Status) (d : RspData) : (s.answer st d).hostIn = s.hostIn := rfl
@[simp] theorem State.answer_hostOut (s : State) (st : Status) (d : RspData) : (s.answer st d).hostOut = s.hostOut ++ [{ status := st, data := d }] := rfl

@[simp] theorem State.noteError_ft (s : State) (e : Status) : (s.noteError e).ft = s.ft := rfl
@[simp] theorem State.noteError_node (s : State) (e : Status) : (s.noteError e).node = s.node := rfl
@[simp] theorem State.noteError_ct (s : State) (e : Status) : (s.noteError e).ct = s.ct := rfl
@[simp] theorem State.noteError_tv (s : State) (e : Status) : (s.noteError e).tv = s.tv := rfl
@[simp] theorem State.noteError_tk (s : State) (e : Status) : (s.noteError e).tk = s.tk := rfl
@[simp] theorem State.noteError_root (s : State) (e : Status) : (s.noteError e).root = s.root := rfl
@[simp] theorem State.noteError_ncount (s : State) (e : Status) : (s.noteError e).ncount = s.ncount := rfl
@[simp] theorem State.noteError_cv (s : State) (e : Status) : (s.noteError e).cv = s.cv := rfl
@[simp] theorem State.noteError_da (s : State) (e : Status) : (s.noteError e).da = s.da := rfl
@[simp] theorem State.noteError_dcur (s : State) (e : Status) : (s.noteError e).dcur = s.dcur := rfl
@[simp] theorem State.noteError_err (s : State) (e : Status) : (s.noteError e).err = if s.err = .ok then e else s.err := rfl
@[simp] theorem State.noteError_hostIn (s : State) (e : Status) : (s.noteError e).hostIn = s.hostIn := rfl
@[simp] theorem State.noteError_hostOut (s : State) (e : Status) : (s.noteError e).hostOut = s.hostOut := rfl

@[simp] theorem State.dropCodesAndDecode_ft (s : State) : s.dropCodesAndDecode.ft = s.ft := rfl
@[simp] theorem State.dropCodesAndDecode_node (s : State) : s.dropCodesAndDecode.node = s.node := rfl
@[simp] theorem State.dropCodesAndDecode_ct (s : State) : s.dropCodesAndDecode.ct = [] := rfl
@[simp] theorem State.dropCodesAndDecode_tv (s : State) : s.dropCodesAndDecode.tv = s.tv := rfl
@[simp] theorem State.dropCodesAndDecode_tk (s : State) : s.dropCodesAndDecode.tk = s.tk := rfl
@[simp] theorem State.dropCodesAndDecode_root (s : State) : s.dropCodesAndDecode.root = s.root := rfl
@[simp] theorem State.dropCodesAndDecode_ncount (s : State) : s.dropCodesAndDecode.ncount = s.ncount := rfl
@[simp] theorem State.dropCodesAndDecode_cv (s : State) : s.dropCodesAndDecode.cv = false := rfl
@[simp] theorem State.dropCodesAndDecode_da (s : State) : s.dropCodesAndDecode.da = false := rfl
@[simp] theorem State.dropCodesAndDecode_dcur (s : State) : s.dropCodesAndDecode.dcur = 0 := rfl
@[simp] theorem State.dropCodesAndDecode_err (s : State) : s.dropCodesAndDecode.err = s.err := rfl
@[simp] theorem State.dropCodesAndDecode_hostIn (s : State) : s.dropCodesAndDecode.hostIn = s.hostIn := rfl
@[simp] theorem State.dropCodesAndDecode_hostOut (s : State) : s.dropCodesAndDecode.hostOut = s.hostOut := rfl

@[simp] theorem State.dropTree_ft (s : State) : s.dropTree.ft = s.ft := rfl
@[simp] theorem State.dropTree_node (s : State) : s.dropTree.node = [] := rfl
@[simp] theorem State.dropTree_ct (s : State) : s.dropTree.ct = [] := rfl
@[simp] theorem State.dropTree_tv (s : State) : s.dropTree.tv = false := rfl
@[simp] theorem State.dropTree_tk (s : State) : s.dropTree.tk = .noTree := rfl
@[simp] theorem State.dropTree_root (s : State) : s.dropTree.root = 0 := rfl
@[simp] theorem State.dropTree_ncount (s : State) : s.dropTree.ncount = 0 := rfl
@[simp] theorem State.dropTree_cv (s : State) : s.dropTree.cv = false := rfl
@[simp] theorem State.dropTree_da (s : State) : s.dropTree.da = false := rfl
@[simp] theorem State.dropTree_dcur (s : State) : s.dropTree.dcur = 0 := rfl
@[simp] theorem State.dropTree_err (s : State) : s.dropTree.err = s.err := rfl
@[simp] theorem State.dropTree_hostIn (s : State) : s.dropTree.hostIn = s.hostIn := rfl
@[simp] theorem State.dropTree_hostOut (s : State) : s.dropTree.hostOut = s.hostOut := rfl

@[simp] theorem State.clearAll_ft (s : State) : s.clearAll.ft = [] := rfl
@[simp] theorem State.clearAll_node (s : State) : s.clearAll.node = [] := rfl
@[simp] theorem State.clearAll_ct (s : State) : s.clearAll.ct = [] := rfl
@[simp] theorem State.clearAll_tv (s : State) : s.clearAll.tv = false := rfl
@[simp] theorem State.clearAll_tk (s : State) : s.clearAll.tk = .noTree := rfl
@[simp] theorem State.clearAll_root (s : State) : s.clearAll.root = 0 := rfl
@[simp] theorem State.clearAll_ncount (s : State) : s.clearAll.ncount = 0 := rfl
@[simp] theorem State.clearAll_cv (s : State) : s.clearAll.cv = false := rfl
@[simp] theorem State.clearAll_da (s : State) : s.clearAll.da = false := rfl
@[simp] theorem State.clearAll_dcur (s : State) : s.clearAll.dcur = 0 := rfl
@[simp] theorem State.clearAll_err (s : State) : s.clearAll.err = .ok := rfl
@[simp] theorem State.clearAll_hostIn (s : State) : s.clearAll.hostIn = s.hostIn := rfl
@[simp] theorem State.clearAll_hostOut (s : State) : s.clearAll.hostOut = s.hostOut := rfl

@[simp] theorem State.withTree_ft (s : State) (b : Building (List Live)) : (s.withTree b).ft = s.ft := rfl
@[simp] theorem State.withTree_node (s : State) (b : Building (List Live)) : (s.withTree b).node = b.node := rfl
@[simp] theorem State.withTree_ct (s : State) (b : Building (List Live)) : (s.withTree b).ct = [] := rfl
@[simp] theorem State.withTree_tv (s : State) (b : Building (List Live)) : (s.withTree b).tv = true := rfl
@[simp] theorem State.withTree_tk (s : State) (b : Building (List Live)) : (s.withTree b).tk = treeKindOf b.n := rfl
@[simp] theorem State.withTree_root (s : State) (b : Building (List Live)) : (s.withTree b).root = rootOf b.n := rfl
@[simp] theorem State.withTree_ncount (s : State) (b : Building (List Live)) : (s.withTree b).ncount = BitVec.ofNat 10 b.n := rfl
@[simp] theorem State.withTree_cv (s : State) (b : Building (List Live)) : (s.withTree b).cv = false := rfl
@[simp] theorem State.withTree_da (s : State) (b : Building (List Live)) : (s.withTree b).da = false := rfl
@[simp] theorem State.withTree_dcur (s : State) (b : Building (List Live)) : (s.withTree b).dcur = 0 := rfl
@[simp] theorem State.withTree_err (s : State) (b : Building (List Live)) : (s.withTree b).err = s.err := rfl
@[simp] theorem State.withTree_hostIn (s : State) (b : Building (List Live)) : (s.withTree b).hostIn = s.hostIn := rfl
@[simp] theorem State.withTree_hostOut (s : State) (b : Building (List Live)) : (s.withTree b).hostOut = s.hostOut := rfl

@[simp] theorem State.succeeded_ft (s : State) (d : RspData) : (s.succeeded d).ft = s.ft := rfl
@[simp] theorem State.succeeded_node (s : State) (d : RspData) : (s.succeeded d).node = s.node := rfl
@[simp] theorem State.succeeded_ct (s : State) (d : RspData) : (s.succeeded d).ct = s.ct := rfl
@[simp] theorem State.succeeded_tv (s : State) (d : RspData) : (s.succeeded d).tv = s.tv := rfl
@[simp] theorem State.succeeded_tk (s : State) (d : RspData) : (s.succeeded d).tk = s.tk := rfl
@[simp] theorem State.succeeded_root (s : State) (d : RspData) : (s.succeeded d).root = s.root := rfl
@[simp] theorem State.succeeded_ncount (s : State) (d : RspData) : (s.succeeded d).ncount = s.ncount := rfl
@[simp] theorem State.succeeded_cv (s : State) (d : RspData) : (s.succeeded d).cv = s.cv := rfl
@[simp] theorem State.succeeded_da (s : State) (d : RspData) : (s.succeeded d).da = s.da := rfl
@[simp] theorem State.succeeded_dcur (s : State) (d : RspData) : (s.succeeded d).dcur = s.dcur := rfl
@[simp] theorem State.succeeded_err (s : State) (d : RspData) : (s.succeeded d).err = s.err := rfl
@[simp] theorem State.succeeded_hostIn (s : State) (d : RspData) : (s.succeeded d).hostIn = s.hostIn := rfl
@[simp] theorem State.succeeded_hostOut (s : State) (d : RspData) : (s.succeeded d).hostOut = s.hostOut ++ [{ status := .ok, data := d }] := rfl

@[simp] theorem State.failedWith_ft (s : State) (e : Status) : (s.failedWith e).ft = s.ft := rfl
@[simp] theorem State.failedWith_node (s : State) (e : Status) : (s.failedWith e).node = s.node := rfl
@[simp] theorem State.failedWith_ct (s : State) (e : Status) : (s.failedWith e).ct = s.ct := rfl
@[simp] theorem State.failedWith_tv (s : State) (e : Status) : (s.failedWith e).tv = s.tv := rfl
@[simp] theorem State.failedWith_tk (s : State) (e : Status) : (s.failedWith e).tk = s.tk := rfl
@[simp] theorem State.failedWith_root (s : State) (e : Status) : (s.failedWith e).root = s.root := rfl
@[simp] theorem State.failedWith_ncount (s : State) (e : Status) : (s.failedWith e).ncount = s.ncount := rfl
@[simp] theorem State.failedWith_cv (s : State) (e : Status) : (s.failedWith e).cv = s.cv := rfl
@[simp] theorem State.failedWith_da (s : State) (e : Status) : (s.failedWith e).da = s.da := rfl
@[simp] theorem State.failedWith_dcur (s : State) (e : Status) : (s.failedWith e).dcur = s.dcur := rfl
@[simp] theorem State.failedWith_hostIn (s : State) (e : Status) : (s.failedWith e).hostIn = s.hostIn := rfl
@[simp] theorem State.failedWith_hostOut (s : State) (e : Status) : (s.failedWith e).hostOut = s.hostOut ++ [{ status := e, data := 0 }] := rfl

@[simp] theorem State.failedWith_err (s : State) (e : Status) :
    (s.failedWith e).err = if s.err = .ok then e else s.err := by
  cases h : s.err <;> simp [State.failedWith, h]

/-- Answering `OK` is what the statements call succeeding. -/
theorem State.answer_ok (s : State) (d : RspData) : s.answer .ok d = s.succeeded d := rfl

/-- Noting an error and answering it is what the statements call failing. -/
theorem State.noteError_answer (s : State) (e : Status) : (s.noteError e).answer e 0 = s.failedWith e := by
  cases h : s.err <;> simp [State.failedWith, State.noteError, State.answer, h]

theorem State.reset_isResetState : IsResetState State.reset :=
  ⟨fun _ => rfl, rfl, rfl, rfl, rfl, rfl, rfl, rfl, rfl⟩

theorem State.clearAll_isResetState (s : State) : IsResetState s.clearAll :=
  ⟨fun _ => rfl, rfl, rfl, rfl, rfl, rfl, rfl, rfl, rfl⟩

end Sys2Proof.Machine
end

