-- ==== Sys2Proof/Laws/Ops.lean ====
section
/-! SUPPORT. What each shared operation can do, said once: answering and failing, one extraction, one merge pass, the
three commands' tests, and every meaning's outcome. -/

namespace Sys2Proof.Machine

/-- Deriving the widths of R8 that Config.lean writes as numbers. -/
theorem Laws.nfreqW_eq : NFREQ_W = FREQ_W + 8 := rfl

theorem Laws.rspW_eq : RSP_W = max (LEN_W + CODE_MAX) (27 + NFREQ_W) := rfl

theorem Laws.nnode_eq : NNODE = 2 * NSYM - 1 ∧ CODE_MAX = NSYM - 1 ∧ NODE_W = 27 + NFREQ_W ∧
    CODE_W = LEN_W + CODE_MAX := by decide

/-- The types of Word.lean, whose widths are written as numbers, have the widths R8 names. -/
theorem Laws.widths_eq : Sym = BitVec SYM_W ∧ Count = BitVec FREQ_W ∧ NodeFreq = BitVec NFREQ_W ∧
    NodeIdx = BitVec IDX_W ∧ RspData = BitVec RSP_W := ⟨rfl, rfl, rfl, rfl, rfl⟩

/-- The same of the fields: command word, code length and code bits, `NCOUNT`. -/
theorem Laws.fieldWidths_eq (c : Command) (r : CodeRec) (s : State) :
    (∃ v : BitVec CW_W, v = c.cw) ∧ (∃ v : BitVec LEN_W, v = r.len) ∧ (∃ v : BitVec CODE_MAX, v = r.bits) ∧
      ∃ v : BitVec CNT_W, v = s.ncount := ⟨⟨_, rfl⟩, ⟨_, rfl⟩, ⟨_, rfl⟩, ⟨_, rfl⟩⟩

/-- A command that responds succeeds with that data. -/
theorem respond_eq (d : RspData) (s : State) : respond d s = .next (s.succeeded d) := rfl

/-- A command that raises fails with that status. -/
theorem raise_eq (e : Status) (s : State) : raise e s = .next (s.failedWith e) :=
  congrArg _ (s.noteError_answer e)

theorem respond_next {d : RspData} {s t : State} (h : respond d s = .next t) : t = s.succeeded d := by
  cases h; rfl

theorem raise_next {e : Status} {s t : State} (h : raise e s = .next t) : t = s.failedWith e := by
  rw [raise_eq] at h; cases h; rfl

/-- `applyReset` gives the reset values and no response. -/
theorem applyReset_eq (s : State) : applyReset s = .next s.clearAll := rfl

/-! ## The meanings: what each can answer -/

theorem execLdf_next {sym : Sym} {val : Count} {s t : State} (h : execLdf sym val s = .next t) :
    t = State.succeeded { s.dropTree with ft := ftWrite s.ft sym.toNat val } 0 := respond_next h

theorem execBuild_next {s t : State} (h : execBuild s = .next t) :
    t = (s.withTree (buildTree s.ft)).succeeded (buildData (s.withTree (buildTree s.ft))) := respond_next h

theorem execRdn_cases (idx : NodeIdx) (s : State) :
    (s.tv = false ∧ execRdn idx s = .next (s.failedWith .notree)) ∨
    (s.tv = true ∧ s.ncount.toNat ≤ idx.toNat ∧ execRdn idx s = .next (s.failedWith .range)) ∨
    (s.tv = true ∧ idx.toNat < s.ncount.toNat ∧
      execRdn idx s = .next (s.succeeded (nodeData (nodeRead s.node idx.toNat)))) := by
  unfold execRdn
  cases htv : s.tv
  · simp [raise_eq]
  · by_cases h : s.ncount.toNat ≤ idx.toNat
    · simp [h, raise_eq]
    · simp only [Bool.true_eq_false, if_false, h, respond_eq]
      exact .inr (.inr ⟨trivial, Nat.lt_of_not_le h, trivial⟩)

theorem execRdc_cases (sym : Sym) (s : State) :
    (s.cv = false ∧ execRdc sym s = .next (s.failedWith .nocode)) ∨
    (s.cv = true ∧ execRdc sym s = .next (s.succeeded (codeData (ctRead s.cv s.ct sym.toNat)))) := by
  unfold execRdc
  cases hcv : s.cv
  · simp [raise_eq]
  · simp [respond_eq]

/-- `GENCODE` fails, or writes the code table and sets `CV`, or (in no reachable state) stops. -/
theorem execGencode_cases (s : State) :
    (s.tv = false ∧ execGencode s = .next (s.failedWith .notree)) ∨
    (s.tv = true ∧ ∃ ct, codeTable s.node s.root s.tk = some ct ∧
      execGencode s = .next (State.succeeded { s with ct := ct, cv := true } 0)) ∨
    (s.tv = true ∧ codeTable s.node s.root s.tk = none ∧ execGencode s = .fault .walkNeverEnds) := by
  unfold execGencode
  cases htv : s.tv
  · simp [raise_eq]
  · cases hc : codeTable s.node s.root s.tk <;> simp [respond_eq]

theorem execDstart_cases (s : State) :
    (s.tv = false ∧ execDstart s = .next (s.failedWith .notree)) ∨
    (s.tv = true ∧ s.tk ≠ .general ∧ execDstart s = .next (s.failedWith .kind)) ∨
    (s.tv = true ∧ s.tk = .general ∧
      execDstart s = .next (State.succeeded { s with da := true, dcur := s.root } 0)) := by
  unfold execDstart
  cases htv : s.tv
  · simp [raise_eq]
  · by_cases h : s.tk = .general
    · simp [h, respond_eq]
    · simp [h, raise_eq]

theorem execDbit_cases (b : Bool) (s : State) :
    (s.da = false ∧ execDbit b s = .next (s.failedWith .idle)) ∨
    (s.da = true ∧ (nodeRead s.node (child s.node s.dcur.toNat b).toNat).lf = true ∧
      execDbit b s = .next (State.succeeded { s with dcur := s.root }
        (symbolData (nodeRead s.node (child s.node s.dcur.toNat b).toNat).cc))) ∨
    (s.da = true ∧ (nodeRead s.node (child s.node s.dcur.toNat b).toNat).lf = false ∧
      execDbit b s = .next (State.succeeded { s with dcur := child s.node s.dcur.toNat b } 0)) := by
  unfold execDbit
  cases hda : s.da
  · simp [raise_eq]
  · cases hl : (nodeRead s.node (child s.node s.dcur.toNat b).toNat).lf <;> simp [hl, respond_eq]

theorem execDend_cases (s : State) :
    (s.da = false ∧ execDend s = .next (s.failedWith .idle)) ∨
    (s.da = true ∧ s.dcur ≠ s.root ∧ execDend s = .next (s.failedWith .corrupt)) ∨
    (s.da = true ∧ s.dcur = s.root ∧
      execDend s = .next (State.succeeded { s with da := false, dcur := 0 } 0)) := by
  unfold execDend
  cases hda : s.da
  · simp [raise_eq]
  · by_cases h : s.dcur = s.root
    · simp [h, respond_eq]
    · simp [h, raise_eq]

/-! ## The scan of the live nodes -/

/-- The node a scan keeps is one of those it saw. -/
theorem leastFrom_mem (m : Live) (xs : List Live) : leastFrom m xs ∈ m :: xs := by
  induction xs generalizing m with
  | nil => simp [leastFrom]
  | cons x xs ih =>
    simp only [leastFrom]
    have h := ih (if before x.2 m.2 then x else m)
    revert h
    split <;> simp +contextual [or_left_comm]

theorem extract_nil : extract [] = none := rfl

/-- `extract()` of a non-empty queue answers a node of it and drops exactly that index. -/
theorem extract_some {q r : List Live} {x : Live} (h : extract q = some (x, r)) :
    x ∈ q ∧ r = q.filter (fun y => y.1 != x.1) := by
  cases q with
  | nil => cases h
  | cons a q =>
    simp only [extract, Option.some.injEq, Prod.mk.injEq] at h
    obtain ⟨rfl, rfl⟩ := h
    exact ⟨leastFrom_mem a q, rfl⟩

/-- `before` orders the keys as pairs of numbers (R121). -/
theorem before_iff (A B : NodeRec) : before A B = true ↔
    A.fq.toNat < B.fq.toNat ∨ (A.fq.toNat = B.fq.toNat ∧ A.cc.toNat < B.cc.toNat) := by
  simp [before, BitVec.ult, ← BitVec.toNat_inj]

theorem before_trans {A B C : NodeRec} (h : before A B = true) (h' : before B C = true) : before A C = true := by
  rw [before_iff] at *; omega

theorem before_total {A B : NodeRec} (h : A.cc ≠ B.cc) : before A B = true ∨ before B A = true := by
  have : A.cc.toNat ≠ B.cc.toNat := fun e => h (BitVec.eq_of_toNat_eq e)
  rw [before_iff, before_iff]; omega

/-- In a queue whose members are pairwise distinct, the node a scan keeps comes before every other (R122, R140). -/
theorem leastFrom_least {m : Live} {xs : List Live} (h : (m :: xs).Pairwise Distinct) :
    ∀ y ∈ m :: xs, y = leastFrom m xs ∨ before (leastFrom m xs).2 y.2 = true := by
  induction xs generalizing m with
  | nil => simp [leastFrom]
  | cons x xs ih =>
    obtain ⟨hm, hx⟩ := List.pairwise_cons.1 h
    have hmx : m.2.cc ≠ x.2.cc := (hm x (by simp)).2
    have key : ∀ w z : Live, (w :: xs).Pairwise Distinct → before w.2 z.2 = true →
        ∀ y, y = w ∨ y = z ∨ y ∈ xs → y = leastFrom w xs ∨ before (leastFrom w xs).2 y.2 = true := by
      intro w z hw hwz y hy
      have hwl := ih hw
      rcases hy with rfl | rfl | hy
      · exact hwl _ (by simp)
      · refine .inr ?_
        rcases hwl w (by simp) with e | e
        · exact e ▸ hwz
        · exact before_trans e hwz
      · exact hwl y (by simp [hy])
    intro y hy
    simp only [List.mem_cons] at hy
    simp only [leastFrom]
    by_cases hb : before x.2 m.2 = true
    · rw [if_pos hb]
      exact key x m hx hb y (by tauto)
    · rw [if_neg hb]
      refine key m x (List.pairwise_cons.2 ⟨fun z hz => hm z (by simp [hz]), (List.pairwise_cons.1 hx).2⟩)
        ((before_total hmx).resolve_right hb) y (by tauto)

/-- Dropping the index of a member leaves the other members. -/
theorem filter_index_perm {q : List Live} (h : q.Pairwise Distinct) {x : Live} (hx : x ∈ q) :
    q.Perm (x :: q.filter fun y => y.1 != x.1) := by
  induction q with
  | nil => simp at hx
  | cons a q ih =>
    obtain ⟨ha, hq⟩ := List.pairwise_cons.1 h
    rcases List.mem_cons.1 hx with rfl | hx
    · have : q.filter (fun y => y.1 != x.1) = q :=
        List.filter_eq_self.2 fun y hy => by simpa using Ne.symm (ha y hy).1
      simp [this]
    · have hne : a.1 ≠ x.1 := (ha x hx).1
      rw [List.filter_cons_of_pos (by simpa using hne)]
      exact ((ih hq hx).cons a).trans (List.Perm.swap _ _ _)

/-- The scan extracts the least live node (R124, R140). -/
theorem extract_least {q : List Live} (h : q.Pairwise Distinct) (hq : q ≠ []) :
    ∃ x r, extract q = some (x, r) ∧ q.Perm (x :: r) ∧ ∀ y ∈ r, before x.2 y.2 = true := by
  cases q with
  | nil => exact absurd rfl hq
  | cons a q =>
    refine ⟨_, _, rfl, filter_index_perm h (leastFrom_mem a q), fun y hy => ?_⟩
    obtain ⟨hy, hne⟩ := List.mem_filter.1 hy
    rcases leastFrom_least h y hy with e | e
    · simp [← e] at hne
    · exact e

/-- Realisation A conforms to the queue of R124 on every list of live nodes. -/
theorem scanQueue_conforms : scanQueue.Conforms (fun _ => True) id where
  emptyGood := trivial
  emptyHolds := rfl
  insertGood _ _ _ := trivial
  insertHolds _ _ _ := List.Perm.refl _
  extractNone q _ h := by simp only [id] at h; rw [h]; rfl
  extractLeast q _ h hd := by
    obtain ⟨x, r, he, hp, hl⟩ := extract_least hd h
    exact ⟨x, r, he, trivial, hp, hl⟩

/-! ## The walk -/

@[simp] theorem walk_empty (node : Memory NodeRec) (k : Nat) (t : Coding) : walk node k [] t = some t := by
  cases k <;> rfl

theorem walk_leaf (node : Memory NodeRec) (k i : Nat) (p : List Bool) (stack : List (Nat × List Bool)) (t : Coding)
    (h : (nodeRead node i).lf = true) :
    walk node (k + 1) ((i, p) :: stack) t =
      walk node k stack (assignCode t (nodeRead node i).cc.toNat p) := by
  simp [walk, h]

theorem walk_internal (node : Memory NodeRec) (k i : Nat) (p : List Bool) (stack : List (Nat × List Bool))
    (t : Coding) (h : (nodeRead node i).lf = false) :
    walk node (k + 1) ((i, p) :: stack) t =
      walk node k (((nodeRead node i).lc.toNat, p ++ [false]) :: ((nodeRead node i).rc.toNat, p ++ [true]) :: stack)
        t := by
  simp [walk, h]

end Sys2Proof.Machine
end

