-- ==== Sys2Proof/Laws/PerInstr.lean ====
section
/-! SUPPORT. Facts about every command as syntax, one lemma per constructor. Family `OwnRow`: the word that encodes a
command selects its own row of the opcode map and no other (R76, R84, R88). -/

namespace Sys2Proof.Laws

/-- The encoded word selects row `opcodeOf i` of `opcodeMap`, and only that one. -/
def OwnRow.Statement (i : Instr) : Prop :=
  opcodeMap.map (fun r => r.selects (encodeWord i)) = (List.range 12).map (fun k => k == opcodeOf i)

theorem OwnRow.nop : OwnRow.Statement .nop := by unfold OwnRow.Statement; decide

theorem OwnRow.clr : OwnRow.Statement .clr := by unfold OwnRow.Statement; decide

theorem OwnRow.ldf (sym : Sym) (val : Count) : OwnRow.Statement (.ldf sym val) := by
  have h : ∀ a : Sym, opcodeMap.map (fun r => r.selects (0x2000 + a.setWidth 16)) =
      (List.range 12).map (fun k => k == 2) := by decide +kernel
  exact h sym

theorem OwnRow.rdf (sym : Sym) : OwnRow.Statement (.rdf sym) := by
  have h : ∀ a : Sym, opcodeMap.map (fun r => r.selects (0x3000 + a.setWidth 16)) =
      (List.range 12).map (fun k => k == 3) := by decide +kernel
  exact h sym

theorem OwnRow.build : OwnRow.Statement .build := by unfold OwnRow.Statement; decide

theorem OwnRow.rdn (idx : NodeIdx) : OwnRow.Statement (.rdn idx) := by
  have h : ∀ a : NodeIdx, opcodeMap.map (fun r => r.selects (0x5000 + a.setWidth 16)) =
      (List.range 12).map (fun k => k == 5) := by decide +kernel
  exact h idx

theorem OwnRow.gencode : OwnRow.Statement .gencode := by unfold OwnRow.Statement; decide

theorem OwnRow.rdc (sym : Sym) : OwnRow.Statement (.rdc sym) := by
  have h : ∀ a : Sym, opcodeMap.map (fun r => r.selects (0x7000 + a.setWidth 16)) =
      (List.range 12).map (fun k => k == 7) := by decide +kernel
  exact h sym

theorem OwnRow.dstart : OwnRow.Statement .dstart := by unfold OwnRow.Statement; decide

theorem OwnRow.dbit (b : Bool) : OwnRow.Statement (.dbit b) := by unfold OwnRow.Statement; cases b <;> decide

theorem OwnRow.dend : OwnRow.Statement .dend := by unfold OwnRow.Statement; decide

theorem OwnRow.rds : OwnRow.Statement .rds := by unfold OwnRow.Statement; decide

end Sys2Proof.Laws
end

