-- ==== Sys2Proof/Laws/Step.lean ====
section
/-! SUPPORT. What a step can do, said once. -/

namespace Sys2Proof.Machine

/-- Every command that answers a next state gives one response and takes nothing off the host's list. -/
theorem exec_next_hostIn {i : Instr} {s t : State} (h : exec i s = .next t) : t.hostIn = s.hostIn := by
  cases i with
  | nop | clr | ldf _ _ | rdf _ | build | rds => exact (respond_next h) ▸ rfl
  | rdn idx =>
    obtain ⟨-, e⟩ | ⟨-, -, e⟩ | ⟨-, -, e⟩ := execRdn_cases idx s <;>
      (have := e.symm.trans h; cases this; rfl)
  | gencode =>
    obtain ⟨-, e⟩ | ⟨-, ct, -, e⟩ | ⟨-, -, e⟩ := execGencode_cases s <;>
      (have := e.symm.trans h; cases this <;> rfl)
  | rdc sym =>
    obtain ⟨-, e⟩ | ⟨-, e⟩ := execRdc_cases sym s <;>
      (have := e.symm.trans h; cases this; rfl)
  | dstart =>
    obtain ⟨-, e⟩ | ⟨-, -, e⟩ | ⟨-, -, e⟩ := execDstart_cases s <;>
      (have := e.symm.trans h; cases this; rfl)
  | dbit b =>
    obtain ⟨-, e⟩ | ⟨-, -, e⟩ | ⟨-, -, e⟩ := execDbit_cases b s <;>
      (have := e.symm.trans h; cases this; rfl)
  | dend =>
    obtain ⟨-, e⟩ | ⟨-, -, e⟩ | ⟨-, -, e⟩ := execDend_cases s <;>
      (have := e.symm.trans h; cases this; rfl)

theorem issue_of_decode {c : Command} {i : Instr} (h : decode c = .ok i) (s : State) : issue c s = exec i s := by
  simp [issue, h]

theorem issue_of_illegal {c : Command} {e : Illegal} (h : decode c = .error e) (s : State) :
    issue c s = .next (s.failedWith .illegal) := by
  simp [issue, h, raise_eq]

/-- A step: the block waits, runs a decoded command, fails an illegal word, or is reset. -/
theorem step_cases (s : State) :
    (s.hostIn = [] ∧ step s = .next s) ∨
    (∃ c rest i, s.hostIn = .command c :: rest ∧ decode c = .ok i ∧ step s = exec i { s with hostIn := rest }) ∨
    (∃ c rest, s.hostIn = .command c :: rest ∧ (∃ e, decode c = .error e) ∧
      step s = .next (State.failedWith { s with hostIn := rest } .illegal)) ∨
    (∃ rest, (s.hostIn = .reset :: rest ∨ ∃ c, s.hostIn = .resetDuring c :: rest) ∧
      step s = .next (State.clearAll { s with hostIn := rest })) := by
  unfold step takeInput
  cases h : s.hostIn with
  | nil => exact .inl ⟨rfl, rfl⟩
  | cons x rest =>
    cases x with
    | command c =>
      cases hd : decode c with
      | ok i => exact .inr (.inl ⟨c, rest, i, rfl, hd, issue_of_decode hd _⟩)
      | error e => exact .inr (.inr (.inl ⟨c, rest, rfl, ⟨e, hd⟩, issue_of_illegal hd _⟩))
    | reset => exact .inr (.inr (.inr ⟨rest, .inl rfl, rfl⟩))
    | resetDuring c => exact .inr (.inr (.inr ⟨rest, .inr ⟨c, rfl⟩, rfl⟩))

/-- The next step after `withFetchWord` is the command with those bits, in the state it was given. -/
theorem step_withFetchWord (s : State) (nbits w : Nat) :
    step (s.withFetchWord nbits w) = issue (tableCommand nbits w) s := rfl

end Sys2Proof.Machine
end

