-- ==== Sys2Proof/Laws/Port.lean ====
section
/-! SUPPORT. What one edge does to the port, phase by phase, and what several quiet edges do to a command in flight. -/

namespace Sys2Proof.Machine

/-- An edge with `rst = 1`, in any phase. -/
theorem Port.edge_rst {p : Port} {i : Pins} (h : i.rst = true) : p.edge i = p.reset := by simp [Port.edge, h]

/-- A ready port takes a command that is presented. -/
theorem Port.edge_accept {p : Port} {i : Pins} (hr : i.rst = false) (hp : p.phase = .ready) (hv : i.cmdValid = true) :
    p.edge i = p.accept i.cmd := by simp [Port.edge, hr, hp, hv]

/-- A port that is starting counts down. -/
theorem Port.edge_starting {p : Port} {i : Pins} {n : Nat} (hr : i.rst = false) (hp : p.phase = .starting n) :
    p.edge i = { p with phase := startingPhase n } := by simp [Port.edge, hr, hp]

/-- A command in flight comes one edge closer to its response. -/
theorem Port.edge_busy_succ {p : Port} {i : Pins} {n : Nat} {r : Response} (hr : i.rst = false)
    (hp : p.phase = .busy (n + 1) r) : p.edge i = { p with phase := .busy n r } := by simp [Port.edge, hr, hp]

/-- The response appears. -/
theorem Port.edge_busy_zero {p : Port} {i : Pins} {r : Response} (hr : i.rst = false) (hp : p.phase = .busy 0 r) :
    p.edge i = { p with phase := .responding r } := by simp [Port.edge, hr, hp]

/-- A response shown is taken, or held. -/
theorem Port.edge_responding {p : Port} {i : Pins} {r : Response} (hr : i.rst = false) (hp : p.phase = .responding r) :
    p.edge i = if i.rspReady then p.take r else p := by simp [Port.edge, hr, hp]

@[simp] theorem Port.edges_nil (p : Port) : p.edges [] = p := rfl

@[simp] theorem Port.edges_cons (p : Port) (i : Pins) (is : List Pins) : p.edges (i :: is) = (p.edge i).edges is := rfl

@[simp] theorem Port.edges_append (p : Port) (is js : List Pins) : p.edges (is ++ js) = (p.edges is).edges js :=
  List.foldl_append

/-- Taking a response gives the host exactly that response. -/
@[simp] theorem Port.take_hostOut (p : Port) (r : Response) : (p.take r).arch.hostOut = p.arch.hostOut ++ [r] := rfl

@[simp] theorem Port.take_phase (p : Port) (r : Response) : (p.take r).phase = .ready := rfl

/-- A reset gives no response, and takes nothing off what the host was given. -/
@[simp] theorem Port.reset_hostOut (p : Port) : p.reset.arch.hostOut = p.arch.hostOut := rfl

/-- What an accepted command leaves: its state, its response held back. -/
theorem Port.accept_next {p : Port} {c : Command} {t : State} {r : Response} (h : issue c p.arch = .next t)
    (hr : t.hostOut = p.arch.hostOut ++ [r]) :
    p.accept c =
      { p with
        arch := { t with hostOut := p.arch.hostOut }
        phase := .busy (Config.freeLatency p.accepted) r
        accepted := p.accepted + 1 } := by
  simp [Port.accept, h, hr]

/-- Taking the response held back completes the state of the command. -/
theorem Port.take_accepted {s t : State} {r : Response} (hr : t.hostOut = s.hostOut ++ [r]) :
    ({ t with hostOut := s.hostOut } : State).answer r.status r.data = t := by
  cases t; cases hr; rfl

/-- The edges of the latency, and nothing but the phase changes. -/
theorem Port.edges_busy_done {n : Nat} {r : Response} (p : Port) (is : List Pins) (hr : ∀ j ∈ is, j.rst = false)
    (hn : is.length = n + 1) :
    ({ p with phase := .busy n r } : Port).edges is = { p with phase := .responding r } := by
  induction n generalizing is with
  | zero =>
    obtain ⟨i, rfl⟩ := List.length_eq_one_iff.mp hn
    exact Port.edge_busy_zero (p := { p with phase := .busy 0 r }) (hr i (by simp)) rfl
  | succ n ih =>
    obtain - | ⟨i, is⟩ := is
    · simp at hn
    · rw [Port.edges_cons, Port.edge_busy_succ (p := { p with phase := .busy (n + 1) r }) (hr i (by simp)) rfl]
      exact ih is (fun j hj => hr j (by simp [hj])) (by simpa using hn)

end Sys2Proof.Machine
end

