-- ==== Sys2Proof/Tests/Slice0.lean ====
section
/-! SUPPORT. Tests. Every expected value is from spec/95_test_vectors.md or worked by hand from the rule named. The last
part shows, for each statement with hypotheses, a state and operands that meet them. -/

namespace Sys2Proof.Tests

open Sys2Proof Sys2Proof.Machine

/-! ## Well-formedness: each check refuses a line -/

theorem test_asm_symbol : AsmLine.assemble (.ldf 353 5) = .error .symbolTooLarge := by decide

theorem test_asm_symbol_rdf : AsmLine.assemble (.rdf 256) = .error .symbolTooLarge := by decide

theorem test_asm_count : AsmLine.assemble (.ldf 97 4294967296) = .error .countTooLarge := by decide

theorem test_asm_index : AsmLine.assemble (.rdn 512) = .error .indexTooLarge := by decide

theorem test_asm_bit : AsmLine.assemble (.dbit 2) = .error .bitTooLarge := by decide

theorem test_asm_accepts : AsmLine.assemble (.ldf 255 4294967295) = .ok (.ldf 255 0xFFFFFFFF) ∧
    AsmLine.assemble (.rdn 511) = .ok (.rdn 511) := by decide

/-! ## Decoding: words written out bit by bit from R76 -/

theorem test_decode_system : decode ⟨0b0000_000_000000000#16, 5⟩ = .ok .nop ∧
    decode ⟨0b0001_000_000000000#16, 5⟩ = .ok .clr ∧ decode ⟨0b1011_000_000000000#16, 5⟩ = .ok .rds := by decide

theorem test_decode_table : decode ⟨0b0010_000_001100001#16, 7⟩ = .ok (.ldf 97 7) ∧
    decode ⟨0b0011_000_011111110#16, 7⟩ = .ok (.rdf 254) := by decide

theorem test_decode_builder : decode ⟨0b0100_000_000000000#16, 0⟩ = .ok .build ∧
    decode ⟨0b0101_000_100000001#16, 0⟩ = .ok (.rdn 257) := by decide

theorem test_decode_coder : decode ⟨0b0110_000_000000000#16, 0⟩ = .ok .gencode ∧
    decode ⟨0b0111_000_010000001#16, 0⟩ = .ok (.rdc 129) := by decide

theorem test_decode_decoder : decode ⟨0b1000_000_000000000#16, 0⟩ = .ok .dstart ∧
    decode ⟨0b1001_000_000000000#16, 0⟩ = .ok (.dbit false) ∧
    decode ⟨0b1001_000_000000001#16, 0⟩ = .ok (.dbit true) ∧
    decode ⟨0b1010_000_000000000#16, 0⟩ = .ok .dend := by decide

theorem test_decode_rejects : decode ⟨0b0010_000_101100001#16, 7⟩ = .error .operandBit ∧
    decode ⟨0b0101_001_000000000#16, 0⟩ = .error .reservedField ∧
    decode ⟨0b1100_000_000000000#16, 0⟩ = .error .reservedOpcode := by decide

theorem test_decodeTableWord : decodeTableWord 16 0x2061 = some (.ldf 97 0) ∧
    decodeTableWord 48 0x000000072061 = some (.ldf 97 7) ∧ decodeTableWord 16 0x9002 = none := by decide

/-! ## States -/

/-- Table, tree and codes of V1, and a decode at the root. -/
def v1 : State :=
  { State.reset with
    ft := [(97, 3), (98, 4), (99, 2)]
    node := [(0, ⟨97, 3, true, 0, 0⟩), (1, ⟨98, 4, true, 0, 0⟩), (2, ⟨99, 2, true, 0, 0⟩),
      (3, ⟨97, 5, false, 2, 0⟩), (4, ⟨97, 9, false, 1, 3⟩)]
    ct := [(97, ⟨2, 0b11⟩), (98, ⟨1, 0b0⟩), (99, ⟨2, 0b01⟩)]
    tv := true, tk := .general, root := 4, ncount := 5, cv := true, da := true, dcur := 4 }

/-- V1 with only its table loaded. -/
def v1Table : State := { State.reset with ft := v1.ft }

/-- V1 before its code table is made and with no decode begun. -/
def v1Built : State := { v1 with cv := false, ct := [], da := false, dcur := 0 }

/-- V1 in mid-path, after the bit 1. -/
def v1Mid : State := { v1 with dcur := 3 }

/-- The table of V3 loaded. -/
def v3Table : State := { State.reset with ft := [(97, 1), (98, 1), (99, 1), (100, 2)] }

/-- Table and tree of V7, the single character. -/
def v7 : State :=
  { State.reset with
    ft := [(66, 4)], node := [(0, ⟨66, 4, true, 0, 0⟩)], tv := true, tk := .single, root := 0, ncount := 1 }

/-- The state a command leads to; `State.reset` where it leads to none. -/
def after (r : Result) : State :=
  match r with
  | .next s => s
  | .fault _ | .refused _ => State.reset

/-- The status code and the data of the last response. -/
def answerOf (r : Result) : Option (Nat × Nat) :=
  match r with
  | .next s => s.hostOut.getLast?.map fun a => ((statusCode a.status).toNat, a.data.toNat)
  | .fault _ | .refused _ => none

/-! ## Commands, one step each -/

theorem test_nop_in_a_decode : after (exec .nop v1Mid) = { v1Mid with hostOut := [⟨.ok, 0⟩] } := by decide +kernel

theorem test_clr : after (exec .clr { v1 with err := .kind }) = { State.reset with hostOut := [⟨.ok, 0⟩] } := by decide +kernel

/-- 95_test_vectors.md 3.2 step 4: replaced, not added. -/
theorem test_ldf_replaces : ftRead (after (exec (.ldf 97 2) v1)).ft 97 = 2 ∧
    ftRead (after (exec (.ldf 97 2) v1)).ft 98 = 4 := by decide

/-- 95_test_vectors.md 3.2 step 10 and R102: the same value still invalidates; `ERR` stays. -/
theorem test_ldf_invalidates : (after (exec (.ldf 97 3) { v1 with err := .range })).tv = false ∧
    (after (exec (.ldf 97 3) { v1 with err := .range })).dcur = 0 ∧
    (after (exec (.ldf 97 3) { v1 with err := .range })).err = .range := by decide

theorem test_rdf : answerOf (exec (.rdf 98) v1) = some (0, 4) ∧ answerOf (exec (.rdf 100) v1) = some (0, 0) := by decide

/-- R104's example, and P2b row 12. -/
theorem test_rds : answerOf (exec .rds { v1 with da := false, dcur := 0 }) = some (0, 0x28100D) ∧
    answerOf (exec .rds { v1Mid with cv := false, err := .corrupt }) = some (0, 0x602811F5) := by decide

/-- V1. -/
theorem test_build_v1 : answerOf (exec .build v1Table) = some (0, 0x2812) ∧
    (after (exec .build v1Table)).node = v1.node := by decide +kernel

/-- V3: the node memory of the counterexample to the source's tie-break law. -/
theorem test_build_v3 : (after (exec .build v3Table)).node.drop 4 =
    [(4, ⟨97, 2, false, 0, 1⟩), (5, ⟨97, 3, false, 2, 4⟩), (6, ⟨97, 5, false, 3, 5⟩)] := by decide +kernel

/-- R136's example and its order of checks. -/
theorem test_rdn : answerOf (exec (.rdn 4) v1) = some (0, 0x480C0261) ∧
    answerOf (exec (.rdn 5) v1) = some (6, 0) ∧ answerOf (exec (.rdn 511) State.reset) = some (2, 0) := by decide +kernel

/-- V1. -/
theorem test_gencode_v1 : (after (exec .gencode v1Built)).ct = v1.ct ∧
    (after (exec .gencode v1Built)).cv = true := by decide +kernel

/-- V7: the empty code. -/
theorem test_gencode_v7 : (after (exec .gencode v7)).ct = [] ∧ answerOf (exec .gencode v7) = some (0, 0) := by
  decide +kernel

/-- R167's example. -/
theorem test_rdc : answerOf (exec (.rdc 99) v1) = some (0, 0x102) ∧ answerOf (exec (.rdc 97) v1) = some (0, 0x302) ∧
    answerOf (exec (.rdc 100) v1) = some (0, 0) ∧ answerOf (exec (.rdc 97) v7) = some (4, 0) := by decide +kernel

theorem test_dstart : (after (exec .dstart v1Mid)).dcur = 4 ∧ answerOf (exec .dstart v7) = some (3, 0) ∧
    answerOf (exec .dstart State.reset) = some (2, 0) := by decide +kernel

/-- R182's example. -/
theorem test_dbit : (after (exec (.dbit true) v1)).dcur = 3 ∧ answerOf (exec (.dbit true) v1) = some (0, 0) ∧
    (after (exec (.dbit false) v1Mid)).dcur = 4 ∧ answerOf (exec (.dbit false) v1Mid) = some (0, 0x0C7) := by decide +kernel

/-- R183's example: `E_CORRUPT` leaves the decode open. -/
theorem test_dend : (after (exec .dend v1)).da = false ∧ answerOf (exec .dend v1Mid) = some (7, 0) ∧
    after (exec .dend v1Mid) = { v1Mid with err := .corrupt, hostOut := [⟨.corrupt, 0⟩] } := by decide +kernel

/-- P5 row 18: an illegal `LDF` leaves `FT` untouched and is noted. -/
theorem test_illegal_word :
    after (issue ⟨0x2161, 5⟩ v1) = { v1 with err := .illegal, hostOut := [⟨.illegal, 0⟩] } := by decide +kernel

/-- The sticky `ERR` of 95_test_vectors.md 3.4: the first code is kept. -/
theorem test_first_error_is_kept : (after (exec (.dbit false) (after (exec (.rdc 0) State.reset)))).err = .nocode := by
  decide

/-- The header of S1, both ways (R201, R203), and R204's odd number of tokens. -/
theorem test_header : headerText [(97, 3), (98, 4), (99, 2)] = "97 3 98 4 99 2".toList ∧
    parseHeader ['9', '7', ' ', '3'] = some [(97, 3)] ∧ parseHeader ['9', '7'] = none := by decide +kernel

/-- The first step after reset runs the command placed there. -/
theorem test_step_runs_the_word_placed : answerOf (step (State.reset.withFetchWord 16 0xB000)) = some (0, 0) ∧
    answerOf (step (State.reset.withFetchWord 16 0xC000)) = some (1, 0) := by decide +kernel

/-! ## The hypotheses of the statements can be met -/

/-- The control part of a state with a general tree. -/
theorem control_v1 : ControlInvariants v1 where
  item1 h := absurd h (by decide)
  item2 _ := rfl
  item3 _ := ⟨rfl, rfl⟩
  item4 h := absurd h (by decide)
  item5 _ := ⟨by decide, rfl⟩
  item6 _ := .inr (.inr ⟨rfl, by decide +kernel, by decide, by decide⟩)
  item7 := by decide

theorem inv_v1 : Inv v1 where
  ftForm := by decide
  nodeForm := by decide
  ctForm := by decide
  control := control_v1
  noneBuilt h := absurd h (by decide)
  treeBuilt _ := ⟨by decide +kernel, by decide +kernel, by decide +kernel, by decide +kernel⟩
  noneCoded h := absurd h (by decide)
  codesMade _ := by decide +kernel

/-- `EncodeInvertsDecode`. -/
theorem witness_decoded_word : decode ⟨0x2061, 7⟩ = .ok (.ldf 97 7) ∧ decode ⟨0x51FF, 7⟩ = .ok (.rdn 511) := by decide

/-- `LegalWordsAreTheRowsOfTheMap`: a set bit of `rsv`, a set operand bit, a word that selects no row. -/
theorem witness_illegal_words : (0x5200 : BitVec 16) &&& 0x0E00 ≠ 0 ∧
    (0x2161 : BitVec 16) &&& mustBeZero ((0x2161 : BitVec 16).toNat / 0x1000) ≠ 0 ∧
    ∀ r ∈ opcodeMap, r.selects 0xC000 = false := by decide

/-- `ReservedOpcodesFail` and `OnlyLdfReadsTheDataWord`, at the ends of their ranges. -/
theorem witness_opcode_ranges : 0xC000 ≤ (0xC000 : BitVec 16).toNat ∧ 0xC000 ≤ (0xFFFF : BitVec 16).toNat ∧
    (0x1FFF : BitVec 16).toNat / 0x1000 ≠ 2 ∧ (0x3000 : BitVec 16).toNat / 0x1000 ≠ 2 := by decide

/-- `StepRunsTheDecodedCommand`, `OneResponsePerCommand`, `ResetGivesTheResetState`: a host item of each kind. -/
theorem witness_host_items :
    (presentFirst ⟨0x2061, 7⟩ v1).hostIn = .command ⟨0x2061, 7⟩ :: [] ∧ decode ⟨0x2061, 7⟩ = .ok (.ldf 97 7) ∧
    decode ⟨0xC000, 7⟩ = .error .reservedOpcode ∧ v1.hostIn = [] ∧
    step (presentFirst ⟨0xB000, 0⟩ v1) = .next (v1.succeeded (statusData v1)) ∧
    ({ v1 with hostIn := [.reset] } : State).hostIn = .reset :: [] ∧
    ({ v1 with hostIn := [.resetDuring ⟨0x4000, 0⟩] } : State).hostIn = .resetDuring ⟨0x4000, 0⟩ :: [] :=
  ⟨rfl, by decide, by decide, rfl, rfl, rfl, rfl⟩

/-- `FailedCommandChangesOnlyErr` and `ErrKeepsTheFirstError`. -/
theorem witness_failed_command :
    issue ⟨0x7061, 0⟩ State.reset = .next (State.reset.failedWith .nocode) ∧
    (State.reset.failedWith .nocode).hostOut = State.reset.hostOut ++ [⟨.nocode, 0⟩] ∧ Status.nocode ≠ .ok ∧
    State.reset.err = .ok ∧
    step (presentFirst ⟨0x8000, 0⟩ (State.reset.failedWith .nocode)) =
      .next ((State.reset.failedWith .nocode).failedWith .notree) ∧
    (presentFirst ⟨0x8000, 0⟩ (State.reset.failedWith .nocode)).err ≠ .ok :=
  ⟨rfl, rfl, by decide, rfl, rfl, by decide⟩

/-- The illegal forms of each opcode's statement: a set operand bit for formats N, S, W, X and B. -/
theorem witness_operand_bits :
    (∀ w ∈ [0x0001, 0x1001, 0x4001, 0x6001, 0x8001, 0xA001, 0xB100], w < 0xC000 ∧ w % 0x1000 ≠ 0) ∧
    (∀ w ∈ [0x2161, 0x3100, 0x7F00], w / 0x100 % 0x10 ≠ 0) ∧ 0x5200 / 0x200 % 8 ≠ 0 ∧ 0x9002 / 2 % 0x800 ≠ 0 := by decide

/-- The premise that `BUILD` answers a next state, which the statements on built trees share, at V1, with two live nodes
at the first pass, an internal node, a leaf, and a table that is not empty. -/
theorem witness_built_tree : ∃ t, exec .build v1Table = .next t ∧ t.node = v1.node ∧ t.root = 4 ∧ t.ncount = 5 :=
  ⟨_, rfl, by decide +kernel, by decide +kernel, by decide +kernel⟩

theorem witness_built_tree_nodes : leafCount v1Table.ft = 3 ∧ (usedCodes v1Table.ft)[2]? = some 99 ∧
    (nodeRead v1.node 2).lf = true ∧ (nodeRead v1.node 3).lf = false := by decide +kernel

theorem witness_live_nodes : LiveAt v1.node 3 3 0 ∧ LiveAt v1.node 3 3 1 ∧ LiveAt v1.node 3 5 4 := by
  refine ⟨⟨by decide, fun k hk hk' => by omega⟩, ⟨by decide, fun k hk hk' => by omega⟩, by decide, fun k hk hk' => ?_⟩
  obtain rfl | rfl : k = 3 ∨ k = 4 := by omega
  all_goals decide

/-- `BuildCompletes`: a table with no leaf, with one and with more. -/
theorem witness_leaf_counts : leafCount State.reset.ft = 0 ∧ leafCount v7.ft = 1 ∧ leafCount v1.ft = 3 := by
  decide +kernel

/-- `TreeDependsOnTheTableAlone`: two states that differ in all but the table. -/
theorem witness_same_table : (∀ c, c < NSYM → ftRead v1.ft c = ftRead v1Table.ft c) ∧ v1 ≠ v1Table :=
  ⟨fun _ _ => rfl, by decide⟩

/-- `AnyConformingQueueBuildsTheSameTree`: the scan conforms. -/
theorem witness_conforming_queue : scanQueue.Conforms (fun _ => True) id := scanQueue_conforms

/-- `TieBreakLawAsCorrected`: its table, an internal node, and two sibling leaves of equal frequency (V3, node 4). -/
theorem witness_tie_break : v3Table.ft = [(97, 1), (98, 1), (99, 1), (100, 2)] ∧ leafCount v3Table.ft = 4 ∧
    (∃ t, exec .build v3Table = .next t ∧ (nodeRead t.node 4).lc = 0 ∧ (nodeRead t.node 4).rc = 1 ∧
      (nodeRead t.node 0).lf = true ∧ (nodeRead t.node 1).lf = true ∧
      (nodeRead t.node 0).fq = (nodeRead t.node 1).fq) :=
  ⟨rfl, by decide +kernel, _, rfl, by decide +kernel, by decide +kernel, by decide +kernel, by decide +kernel,
    by decide +kernel⟩

/-- `RdnReadsOneRecord`: each clause, the range at its ends. -/
theorem witness_rdn : v1.tv = true ∧ (4 : NodeIdx).toNat < v1.ncount.toNat ∧ v1.ncount.toNat ≤ (5 : NodeIdx).toNat ∧
    State.reset.tv = false := by decide

/-- `GencodeCompletes`, `CodesArePathsOfTheTree`, `RecursiveWalkGivesTheSameCodes`, `CodesArePrefixFree`,
`CodesAreShorterThanTheAlphabet`, `RdcReadsOneCode`, `ErrorCausesAndPriority`, `NoCommandHangs`. -/
theorem witness_coded_state : Inv v1 ∧ v1.tv = true ∧ v1.cv = true ∧ v1.tk = .general ∧ v1.tk ≠ .noTree ∧
    1 ≤ leafCount v1.ft ∧ (97 : Sym) ≠ 99 ∧ 0 < (ctRead v1.cv v1.ct (97 : Sym).toNat).len.toNat ∧
    0 < (ctRead v1.cv v1.ct (99 : Sym).toNat).len.toNat ∧ v7.cv = false ∧ State.reset.tv = false :=
  ⟨inv_v1, by decide, by decide, by decide, by decide, by decide +kernel, by decide, by decide, by decide, by decide,
    by decide⟩

/-- `DstartBeginsAtTheRoot`, `DbitDescendsOneEdge`, `DendClosesAtTheRoot`: each clause. -/
theorem witness_decoder_states : v1.tv = true ∧ v1.tk = .general ∧ v7.tv = true ∧ v7.tk ≠ .general ∧
    v1.da = true ∧ v1.dcur = v1.root ∧ v1Mid.da = true ∧ v1Mid.dcur ≠ v1Mid.root ∧ v7.da = false ∧
    (nodeRead v1.node 3).lf = false ∧ (3 : NodeIdx) = (nodeRead v1.node v1.dcur.toNat).rc ∧
    (nodeRead v1.node 1).lf = true ∧ (1 : NodeIdx) = (nodeRead v1.node v1.dcur.toNat).lc := by decide

/-- `DecodeFollowsTheRecursiveFunction` and `DecoderInvertsCoder`. -/
theorem witness_decode_at_the_root : Inv v1 ∧ v1.tv = true ∧ v1.tk = .general ∧ v1.cv = true ∧ v1.da = true ∧
    v1.dcur = v1.root ∧ ∀ c ∈ ([97, 98, 99] : Text), ftRead v1.ft c.toNat ≠ 0 :=
  ⟨inv_v1, rfl, rfl, rfl, rfl, rfl, by decide⟩

/-- `StepKeepsTheInvariant`: a state of the invariant, and a step from it. -/
theorem witness_step_from_the_invariant : Inv v1 ∧ step v1 = .next v1 := ⟨inv_v1, rfl⟩

/-- `ControlInvariantsHoldAfterEveryCommand`: a run that does something. -/
theorem witness_run : ∃ t, core.run 2 { State.reset with hostIn := [.command ⟨0x2061, 7⟩, .command ⟨0x8000, 0⟩] } =
    .next t ∧ t.err = .notree ∧ ftRead t.ft 97 = 7 := ⟨_, rfl, by decide, by decide⟩

/-- `NothingStaleIsRead`: `LDF` in the middle of a decode. -/
theorem witness_stale : ∃ t, exec (.ldf 97 1) v1Mid = .next t := ⟨_, rfl⟩

/-- `ReadsHaveNoSideEffect`: a read that succeeds. -/
theorem witness_read : ∃ t, exec (.rdn 4) v1 = .next t ∧ t.hostOut.map (·.status) = [.ok] := ⟨_, rfl, by decide⟩

/-- `OnlyTheirCommandsWriteEachElement`: steps that meet the premise of each clause. -/
theorem witness_writers :
    (∃ t, step (presentFirst ⟨0x2061, 7⟩ v1) = .next t ∧ ftRead t.ft 97 ≠ ftRead v1.ft 97) ∧
    (∃ t, step (presentFirst ⟨0x4000, 0⟩ v1Table) = .next t ∧ v1Table.tv = false ∧ t.tv = true) ∧
    (∃ t, step (presentFirst ⟨0x6000, 0⟩ v1Built) = .next t ∧ t.cv = true) ∧
    (∃ t, step (presentFirst ⟨0x8000, 0⟩ v1Built) = .next t ∧ t.da = true) ∧
    (∃ t, step (presentFirst ⟨0x9001, 0⟩ v1) = .next t ∧ v1.tv = true ∧ t.tv = true ∧ v1.cv = true ∧ t.cv = true ∧
      decode ⟨0x9001, 0⟩ ≠ .ok .build ∧ decode ⟨0x9001, 0⟩ ≠ .ok .gencode) := by
  obtain ⟨h, -⟩ | ⟨-, ct, -, h⟩ | ⟨-, h, -⟩ := execGencode_cases v1Built
  · exact absurd h (by decide)
  · exact ⟨⟨_, rfl, by decide⟩, ⟨_, rfl, by decide, rfl⟩, ⟨_, h, rfl⟩, ⟨_, rfl, by decide⟩, ⟨_, rfl, by decide⟩⟩
  · exact absurd h (by decide +kernel)

/-- The port, ready, before a command. -/
def readyPort : Port := { arch := State.reset, phase := .ready, accepted := 0, resets := 0 }

/-- `PortAnswersEachCommand`: a command offered to a ready port, a port that offers a response. -/
theorem witness_port : (readyPort.out false).cmdReady = true ∧
    issue ⟨0x0000, 0⟩ readyPort.arch = .next (State.reset.succeeded 0) ∧
    (State.reset.succeeded 0).hostOut = readyPort.arch.hostOut ++ [⟨.ok, 0⟩] ∧
    (({ readyPort with phase := .responding ⟨.ok, 5⟩ } : Port).out false).rsp = some ⟨.ok, 5⟩ ∧
    (({ readyPort with phase := .starting 3 } : Port).out false).cmdReady = false := ⟨rfl, rfl, rfl, rfl, rfl⟩

/-- Pins on which the host presents nothing and takes nothing. -/
def quiet : Pins := ⟨false, false, ⟨0, 0⟩, false⟩

/-- `PortAnswersEachCommand`: as many quiet edges as the latency may be, then as many as wanted. -/
theorem witness_edges (n : Nat) : (∀ j ∈ List.replicate n quiet, j.rst = false ∧ j.rspReady = false) ∧
    (List.replicate n quiet).length = n := by simp [quiet]

/-- `ResetWinsAtEveryEdge`: pins with `rst = 1`, and pins that present a command only before the port is ready. -/
theorem witness_pins : (⟨true, true, ⟨0x4000, 0⟩, true⟩ : Pins).rst = true ∧
    (∀ j ∈ [(⟨false, true, ⟨0, 0⟩, true⟩ : Pins), quiet], j.rst = false) ∧
    (∀ j ∈ [(⟨false, true, ⟨0, 0⟩, true⟩ : Pins), quiet].drop 1, j.cmdValid = false) := by decide

/-- `PortAgreesWithTheStep`: an accepted command whose latency passes with nothing taken, and then its response. -/
theorem witness_in_flight (i : Pins) (hr : i.rst = false) (hv : i.cmdValid = true) (hc : i.cmd = ⟨0x0000, 0⟩) :
    (((readyPort.edge i).edges (List.replicate (Config.freeLatency 0 + 1) quiet)).out false).rsp = some ⟨.ok, 0⟩ ∧
    ∀ (pre post : List Pins) (j : Pins), List.replicate (Config.freeLatency 0 + 1) quiet = pre ++ j :: post →
      j.rspReady = true → (((readyPort.edge i).edges pre).out false).rsp = none := by
  refine ⟨?_, fun pre post j e h => ?_⟩
  · rw [Port.edge_accept hr rfl hv, Port.accept_next (t := State.reset.succeeded 0) (r := ⟨.ok, 0⟩) (by rw [hc]; rfl) rfl]
    exact congrArg (fun p => (Port.out p false).rsp)
      (Port.edges_busy_done ⟨State.reset, .ready, 1, 0⟩ (List.replicate (Config.freeLatency 0 + 1) quiet)
        (fun j hj => ((witness_edges _).1 j hj).1) (witness_edges _).2)
  · have : j ∈ List.replicate (Config.freeLatency 0 + 1) quiet := e ▸ by simp
    simp [List.eq_of_mem_replicate this, quiet] at h

/-- A response taken is a response given; one abandoned by reset is not (R87, R261). -/
theorem test_hostOut_lists_the_response_taken :
    (({ readyPort with phase := .responding ⟨.ok, 5⟩ } : Port).edge ⟨false, false, ⟨0, 0⟩, true⟩).arch.hostOut =
      [⟨.ok, 5⟩] ∧
    (({ readyPort with phase := .responding ⟨.ok, 5⟩ } : Port).edge ⟨true, false, ⟨0, 0⟩, true⟩).arch.hostOut = [] :=
  ⟨rfl, rfl⟩

/-- `HeaderRoundTrip` and `TextRoundTrip`: a frequency table, and a text whose counts fit. -/
theorem witness_texts : FreqTable.isTable [(97, 3), (255, 5000000000)] ∧
    ∀ c, c < NSYM → countOf [97, 98, 97] c < 2 ^ FREQ_W := by decide +kernel

end Sys2Proof.Tests
end

section
/-! PROOFS. What a command that succeeds leaves behind, said once for all twelve, with the guard under which it
succeeds and the data it answers (R41 and the command rules of files 40 to 43). -/

namespace Sys2Proof.Machine

/-- `Succeeds s i u d`: in state `s` the command `i` succeeds, leaves `u` and answers `d`. -/
inductive Succeeds (s : State) : Instr → State → RspData → Prop where
  | nop : Succeeds s .nop s 0
  | clr : Succeeds s .clr s.clearAll 0
  | ldf (sym : Sym) (val : Count) :
      Succeeds s (.ldf sym val) { s.dropTree with ft := ftWrite s.ft sym.toNat val } 0
  | rdf (sym : Sym) : Succeeds s (.rdf sym) s (countData (ftRead s.ft sym.toNat))
  | build : Succeeds s .build (s.withTree (buildTree s.ft)) (buildData (s.withTree (buildTree s.ft)))
  | rdn {idx : NodeIdx} (built : s.tv = true) (inRange : idx.toNat < s.ncount.toNat) :
      Succeeds s (.rdn idx) s (nodeData (nodeRead s.node idx.toNat))
  | gencode {ct : Memory CodeRec} (built : s.tv = true) (made : codeTable s.node s.root s.tk = some ct) :
      Succeeds s .gencode { s with ct := ct, cv := true } 0
  | rdc {sym : Sym} (coded : s.cv = true) :
      Succeeds s (.rdc sym) s (codeData (ctRead s.cv s.ct sym.toNat))
  | dstart (built : s.tv = true) (general : s.tk = .general) :
      Succeeds s .dstart { s with da := true, dcur := s.root } 0
  | dbitLeaf {b : Bool} (active : s.da = true)
      (leaf : (nodeRead s.node (child s.node s.dcur.toNat b).toNat).lf = true) :
      Succeeds s (.dbit b) { s with dcur := s.root }
        (symbolData (nodeRead s.node (child s.node s.dcur.toNat b).toNat).cc)
  | dbitInner {b : Bool} (active : s.da = true)
      (inner : (nodeRead s.node (child s.node s.dcur.toNat b).toNat).lf = false) :
      Succeeds s (.dbit b) { s with dcur := child s.node s.dcur.toNat b } 0
  | dend (active : s.da = true) (atRoot : s.dcur = s.root) :
      Succeeds s .dend { s with da := false, dcur := 0 } 0
  | rds : Succeeds s .rds s (statusData s)

/-- A command that answers a next state has failed with some status, or succeeded. -/
theorem exec_next_cases {i : Instr} {s t : State} (h : exec i s = .next t) :
    (∃ e, t = s.failedWith e) ∨ ∃ u d, Succeeds s i u d ∧ t = u.succeeded d := by
  have failed {e : Status} (he : exec i s = .next (s.failedWith e)) : ∃ e, t = s.failedWith e :=
    ⟨e, by rw [he] at h; cases h; rfl⟩
  have done {u : State} {d : RspData} (hu : Succeeds s i u d) (he : exec i s = .next (u.succeeded d)) :
      ∃ u d, Succeeds s i u d ∧ t = u.succeeded d :=
    ⟨u, d, hu, by rw [he] at h; cases h; rfl⟩
  cases i with
  | nop => exact .inr (done .nop rfl)
  | clr => exact .inr (done .clr rfl)
  | ldf sym val => exact .inr (done (.ldf sym val) rfl)
  | rdf sym => exact .inr (done (.rdf sym) rfl)
  | build => exact .inr (done .build rfl)
  | rds => exact .inr (done .rds rfl)
  | rdn idx =>
    obtain ⟨-, e⟩ | ⟨-, -, e⟩ | ⟨built, inRange, e⟩ := execRdn_cases idx s
    · exact .inl (failed e)
    · exact .inl (failed e)
    · exact .inr (done (.rdn built inRange) e)
  | gencode =>
    obtain ⟨-, e⟩ | ⟨built, ct, made, e⟩ | ⟨-, -, e⟩ := execGencode_cases s
    · exact .inl (failed e)
    · exact .inr (done (.gencode built made) e)
    · cases e.symm.trans h
  | rdc sym =>
    obtain ⟨-, e⟩ | ⟨coded, e⟩ := execRdc_cases sym s
    · exact .inl (failed e)
    · exact .inr (done (.rdc coded) e)
  | dstart =>
    obtain ⟨-, e⟩ | ⟨-, -, e⟩ | ⟨built, general, e⟩ := execDstart_cases s
    · exact .inl (failed e)
    · exact .inl (failed e)
    · exact .inr (done (.dstart built general) e)
  | dbit b =>
    obtain ⟨-, e⟩ | ⟨active, leaf, e⟩ | ⟨active, inner, e⟩ := execDbit_cases b s
    · exact .inl (failed e)
    · exact .inr (done (.dbitLeaf active leaf) e)
    · exact .inr (done (.dbitInner active inner) e)
  | dend =>
    obtain ⟨-, e⟩ | ⟨-, -, e⟩ | ⟨active, atRoot, e⟩ := execDend_cases s
    · exact .inl (failed e)
    · exact .inl (failed e)
    · exact .inr (done (.dend active atRoot) e)

/-- Until it answers, a succeeding command leaves the list of responses alone. -/
theorem Succeeds.hostOut {i : Instr} {s u : State} {d : RspData} (h : Succeeds s i u d) : u.hostOut = s.hostOut := by
  cases h <;> rfl

/-- A succeeding command leaves `ERR` alone, except `CLR`, which clears it (R32, R41). -/
theorem Succeeds.err {i : Instr} {s u : State} {d : RspData} (h : Succeeds s i u d) :
    u.err = s.err ∨ (i = .clr ∧ u.err = .ok) := by
  cases h with
  | clr => exact .inr ⟨rfl, rfl⟩
  | _ => exact .inl rfl

/-- The same of a presented command word: an illegal one fails (R83). -/
theorem issue_next_cases {c : Command} {s t : State} (h : issue c s = .next t) :
    (∃ e, t = s.failedWith e) ∨ ∃ i u d, decode c = .ok i ∧ Succeeds s i u d ∧ t = u.succeeded d := by
  cases hd : decode c with
  | ok i =>
    rw [issue_of_decode hd] at h
    obtain failed | ⟨u, d, hu, ht⟩ := exec_next_cases h
    · exact .inl failed
    · exact .inr ⟨i, u, d, rfl, hu, ht⟩
  | error e =>
    rw [issue_of_illegal hd] at h
    cases h
    exact .inl ⟨.illegal, rfl⟩

/-- The step on each item the host can present. -/
theorem step_of_command {c : Command} {rest : List HostInput} {s : State} (h : s.hostIn = .command c :: rest) :
    step s = issue c { s with hostIn := rest } := by
  simp [step, takeInput, h]

theorem step_of_reset {rest : List HostInput} {s : State}
    (h : s.hostIn = .reset :: rest ∨ ∃ c, s.hostIn = .resetDuring c :: rest) :
    step s = .next (State.clearAll { s with hostIn := rest }) := by
  obtain h | ⟨c, h⟩ := h <;> simp [step, takeInput, h, applyResetDuring, applyReset_eq]

/-- A step waits, runs the word presented, or resets. -/
theorem step_next_cases {s t : State} (h : step s = .next t) :
    t = s ∨ (∃ c rest, s.hostIn = .command c :: rest ∧ issue c { s with hostIn := rest } = .next t) ∨
    ∃ rest, (s.hostIn = .reset :: rest ∨ ∃ c, s.hostIn = .resetDuring c :: rest) ∧
      t = State.clearAll { s with hostIn := rest } := by
  cases hin : s.hostIn with
  | nil =>
    simp only [step, takeInput, hin] at h
    cases h
    exact .inl rfl
  | cons item rest =>
    cases item with
    | command c => exact .inr (.inl ⟨c, rest, rfl, step_of_command hin ▸ h⟩)
    | reset =>
      rw [step_of_reset (.inl hin)] at h
      cases h
      exact .inr (.inr ⟨rest, .inl rfl, rfl⟩)
    | resetDuring c =>
      rw [step_of_reset (.inr ⟨c, hin⟩)] at h
      cases h
      exact .inr (.inr ⟨rest, .inr ⟨c, rfl⟩, rfl⟩)

/-- What every step keeps, every run keeps. -/
theorem run_keeps {P : State → Prop} (keeps : ∀ s t, P s → step s = .next t → P t) :
    ∀ (k : Nat) (s t : State), P s → core.run k s = .next t → P t
  | 0, s, t, hs, h => by cases h; exact hs
  | k + 1, s, t, hs, h => by
    cases hstep : step s with
    | next u =>
      have hrun : core.run (k + 1) s = core.run k u := by simp [Host.Core.run, core, hstep]
      exact run_keeps keeps k u t (keeps s u hs hstep) (hrun ▸ h)
    | fault r => simp [Host.Core.run, core, hstep] at h
    | refused r => simp [Host.Core.run, core, hstep] at h

end Sys2Proof.Machine
end

section
/-! PROOFS. `ERR` (R32): the command words that clear it, and that a step does nothing else to it but note the first
error. -/

namespace Sys2Proof

/-- A command word is its three fields (R71). -/
theorem fields_append (cw : BitVec 16) : opField cw ++ rsvField cw ++ argField cw = cw := by
  refine BitVec.eq_of_getLsbD_eq fun k hk => ?_
  simp only [opField, rsvField, argField, BitVec.getLsbD_append, BitVec.getLsbD_extractLsb']
  split
  · simp [*]
  · split
    · have : 9 + (k - 9) = k := by omega
      simp [*]
    · have : 12 + (k - 9 - 3) = k := by omega
      simp [*]; omega

/-- What a format accepts, and which command it then gives (R72). -/
theorem decodeN_eq_ok {cw : BitVec 16} {i j : Instr} : decodeN cw i = .ok j ↔ argField cw = 0 ∧ i = j := by
  unfold decodeN
  split <;> simp_all

theorem decodeS_eq_ok {cw : BitVec 16} {i : Sym → Instr} {j : Instr} :
    decodeS cw i = .ok j ↔ (argField cw).getLsbD 8 = false ∧ i (symField cw) = j := by
  unfold decodeS
  split <;> simp_all

theorem decodeB_eq_ok {cw : BitVec 16} {i : Bool → Instr} {j : Instr} :
    decodeB cw i = .ok j ↔ (argField cw).extractLsb' 1 8 = 0 ∧ i ((argField cw).getLsbD 0) = j := by
  unfold decodeB
  split <;> simp_all

/-- A word decodes to `CLR` exactly where its opcode is 1 and every other bit is 0. -/
theorem decode_eq_clr {c : Command} : decode c = .ok .clr ↔ c.cw = 0x1000 := by
  constructor
  · intro h
    have hrsv : rsvField c.cw = 0 := by
      by_contra hne
      rw [decode, if_pos hne] at h
      cases h
    simp only [decode, hrsv, ne_eq, not_true_eq_false, if_false] at h
    -- the rows of the other opcodes give another command
    split at h <;> simp only [decodeN_eq_ok, decodeS_eq_ok, decodeB_eq_ok, reduceCtorEq, and_false, and_true,
      Except.ok.injEq] at h
    next hop =>
      have hop : opField c.cw = 1 := BitVec.eq_of_toNat_eq hop
      rw [← fields_append c.cw, hop, hrsv, h]
      rfl
  · intro h
    have hrsv : rsvField c.cw = 0 := by rw [h]; decide
    have hop : (opField c.cw).toNat = 1 := by rw [h]; decide
    have harg : argField c.cw = 0 := by rw [h]; decide
    simp only [decode, hrsv, hop, ne_eq, not_true_eq_false, if_false, decodeN_eq_ok, harg, and_self]

end Sys2Proof

namespace Sys2Proof.Machine

/-- With `ERR` clear, a command leaves its own status in it. -/
theorem issue_err_of_clear {c : Command} {s t : State} {r : Response} (h : issue c s = .next t)
    (hr : t.hostOut = s.hostOut ++ [r]) (hs : s.err = .ok) : t.err = r.status := by
  obtain ⟨e, rfl⟩ | ⟨i, u, d, -, hu, rfl⟩ := issue_next_cases h
  · obtain rfl : (⟨e, 0⟩ : Response) = r := by simpa using hr
    simp [hs]
  · obtain rfl : (⟨.ok, d⟩ : Response) = r := by simpa [hu.hostOut] using hr
    obtain e | ⟨-, e⟩ := hu.err
    · exact e.trans hs
    · exact e

/-- With an error in `ERR`, a command keeps it there unless it is `CLR`. -/
theorem issue_err_of_error {c : Command} {s t : State} (h : issue c s = .next t) (hs : s.err ≠ .ok) :
    t.err = s.err ∨ (t.err = .ok ∧ c.cw = 0x1000) := by
  obtain ⟨e, rfl⟩ | ⟨i, u, d, hd, hu, rfl⟩ := issue_next_cases h
  · exact .inl (by simp [hs])
  · obtain e | ⟨rfl, e⟩ := hu.err
    · exact .inl e
    · exact .inr ⟨e, decode_eq_clr.1 hd⟩

/-- Settles O12. Each clause reads off what a command word, and then a whole step, can do to `ERR`. -/
theorem errKeepsTheFirstError : Obligations.ErrKeepsTheFirstError := by
  refine ⟨rfl, fun c s t r => issue_err_of_clear, fun s t h hs => ?_, fun s rest h => ?_⟩
  · obtain rfl | ⟨c, rest, hin, hc⟩ | ⟨rest, hin, rfl⟩ := step_next_cases h
    · exact .inl rfl
    · obtain e | ⟨e, hcw⟩ := issue_err_of_error hc hs
      · exact .inl e
      · exact .inr ⟨e, rest, .inr (.inr ⟨c, hin, hcw⟩)⟩
    · exact .inr ⟨rfl, rest, hin.imp_right .inl⟩
  · obtain h | h | ⟨c, hin, hcw⟩ := h
    · exact ⟨_, step_of_reset (.inl h), rfl⟩
    · exact ⟨_, step_of_reset (.inr h), rfl⟩
    · exact ⟨_, (step_of_command hin).trans (issue_of_decode (decode_eq_clr.2 hcw) _), rfl⟩

end Sys2Proof.Machine
end

section
/-! PROOFS. The tree construction as a loop invariant: what holds of the records and of the queue at every node
creation, and of the finished construction (R122, R126, R131, R132 items 1 and 2, R133). -/

namespace Sys2Proof.Machine

/-- What holds of a construction with `L` leaves made so far: each merge takes two live nodes and adds one, leaves stand
below `L`, and the children of an internal node stand below it. -/
structure Grown (L : Nat) (b : Building (List Live)) : Prop where
  form : Memory.wf NNODE none b.node
  total : b.n + b.pq.length = 2 * L
  leavesFirst : L ≤ b.n
  rootLive : 0 < L → 0 < b.pq.length
  indices : ∀ x ∈ b.pq, x.1 < b.n
  distinct : b.pq.Pairwise Distinct
  leaves : ∀ i, i < L → (nodeRead b.node i).lf = true
  internal : ∀ i, L ≤ i → i < b.n → (nodeRead b.node i).lf = false ∧
    (nodeRead b.node i).lc.toNat < i ∧ (nodeRead b.node i).rc.toNat < i

/-- Making a node writes its record and leaves the earlier ones. -/
theorem nodeRead_addNode {b : Building (List Live)} {pq : List Live} {r : NodeRec} (i : Nat) :
    nodeRead (addNode scanQueue b pq r).node i = if i = b.n then r else nodeRead b.node i := by
  split
  · next h => rw [h]; exact nodeRead_nodeWrite_same b.node b.n r
  · next h => exact nodeRead_nodeWrite_other b.node r h

@[simp] theorem addNode_n (b : Building (List Live)) (pq : List Live) (r : NodeRec) :
    (addNode scanQueue b pq r).n = b.n + 1 := rfl

@[simp] theorem addNode_pq (b : Building (List Live)) (pq : List Live) (r : NodeRec) :
    (addNode scanQueue b pq r).pq = (b.n, r) :: pq := rfl

/-- The code of a merged node is the code of one of its children (R125). -/
theorem minSym_cases (a b : Sym) : minSym a b = a ∨ minSym a b = b := by
  unfold minSym
  split <;> simp

theorem mergeRec_lc_lt {x y : Live} {n : Nat} (h : x.1 < n) : (mergeRec x y).lc.toNat < n :=
  (BitVec.toNat_ofNat x.1 9).trans_lt ((Nat.mod_le _ _).trans_lt h)

theorem mergeRec_rc_lt {x y : Live} {n : Nat} (h : y.1 < n) : (mergeRec x y).rc.toNat < n :=
  (BitVec.toNat_ofNat y.1 9).trans_lt ((Nat.mod_le _ _).trans_lt h)

/-! ## The merge loop -/

theorem Distinct.symm {x y : Live} (h : Distinct x y) : Distinct y x := ⟨h.1.symm, h.2.symm⟩

/-- A pass takes the two least live nodes, the lesser first, or finds fewer than two (R124, R126). -/
theorem mergePass_cases {b : Building (List Live)} (hd : b.pq.Pairwise Distinct) :
    (b.pq.length ≤ 1 ∧ mergePass scanQueue b = none) ∨
    ∃ x y rest, b.pq.Perm (x :: y :: rest) ∧ before x.2 y.2 = true ∧ (∀ z ∈ rest, before y.2 z.2 = true) ∧
      mergePass scanQueue b = some (addNode scanQueue b rest (mergeRec x y)) := by
  by_cases hq : b.pq = []
  · exact .inl ⟨by simp [hq], by simp [mergePass, hq, scanQueue, extract_nil]⟩
  obtain ⟨x, r, hx, hxr, hxl⟩ := extract_least hd hq
  by_cases hr : r = []
  · subst hr
    exact .inl ⟨hxr.length_eq.le, by simp [mergePass, hx, scanQueue, extract_nil]⟩
  have hrd : r.Pairwise Distinct := (List.pairwise_cons.1 (hxr.pairwise hd fun h => h.symm)).2
  obtain ⟨y, rest, hy, hyr, hyl⟩ := extract_least hrd hr
  refine .inr ⟨x, y, rest, hxr.trans (hyr.cons x), hxl y (hyr.mem_iff.2 (by simp)), hyl, ?_⟩
  simp [mergePass, hx, hy, scanQueue]

/-- A merged node differs from every node that stays live: it is new, and its code is one that left the queue. -/
theorem distinct_merged {n : Nat} {x y : Live} {rest : List Live} (hd : (x :: y :: rest).Pairwise Distinct)
    (hi : ∀ z ∈ rest, z.1 < n) : ((n, mergeRec x y) :: rest).Pairwise Distinct := by
  obtain ⟨hx, hd⟩ := List.pairwise_cons.1 hd
  obtain ⟨hy, hrest⟩ := List.pairwise_cons.1 hd
  refine List.pairwise_cons.2 ⟨fun z hz => ⟨(hi z hz).ne', ?_⟩, hrest⟩
  change minSym x.2.cc y.2.cc ≠ z.2.cc
  obtain e | e := minSym_cases x.2.cc y.2.cc
  · rw [e]; exact (hx z (List.mem_cons_of_mem y hz)).2
  · rw [e]; exact (hy z hz).2

/-- One pass keeps the loop invariant. -/
theorem Grown.merge {L : Nat} {b : Building (List Live)} {x y : Live} {rest : List Live} (h : Grown L b)
    (hL : L ≤ NSYM) (hp : b.pq.Perm (x :: y :: rest)) : Grown L (addNode scanQueue b rest (mergeRec x y)) := by
  have hlen : b.pq.length = rest.length + 2 := hp.length_eq
  have htotal := h.total
  have hfirst := h.leavesFirst
  have live {z : Live} (hz : z ∈ x :: y :: rest) : z.1 < b.n := h.indices z (hp.mem_iff.2 hz)
  exact
    { form := nodeWrite_wf h.form (by simp only [NNODE, NSYM] at *; omega) _
      total := by simp only [addNode_n, addNode_pq, List.length_cons]; omega
      leavesFirst := hfirst.trans (Nat.le_succ _)
      rootLive := fun _ => Nat.succ_pos _
      indices := fun z hz => by
        obtain rfl | hz := List.mem_cons.1 hz
        · exact Nat.lt_succ_self _
        · exact (live (by simp [hz])).trans (Nat.lt_succ_self _)
      distinct := distinct_merged (hp.pairwise h.distinct fun d => d.symm) fun z hz => live (by simp [hz])
      leaves := fun i hi => by
        rw [nodeRead_addNode, if_neg (by omega)]
        exact h.leaves i hi
      internal := fun i hLi hi => by
        rw [nodeRead_addNode]
        split
        · next e => exact e ▸ ⟨rfl, mergeRec_lc_lt (live (by simp)), mergeRec_rc_lt (live (by simp))⟩
        · next e => exact h.internal i hLi (by rw [addNode_n] at hi; omega) }

/-- Enough passes leave at most one live node (R126). -/
theorem Grown.mergeLoop {L : Nat} (hL : L ≤ NSYM) : ∀ (k : Nat) {b : Building (List Live)}, Grown L b →
    b.pq.length ≤ k → Grown L (mergeLoop scanQueue k b) ∧ (mergeLoop scanQueue k b).pq.length ≤ 1
  | 0, b, h, hk => ⟨h, hk.trans (Nat.zero_le 1)⟩
  | k + 1, b, h, hk => by
    obtain ⟨hle, e⟩ | ⟨x, y, rest, hp, -, -, e⟩ := mergePass_cases h.distinct
    · simpa [Machine.mergeLoop, e] using ⟨h, hle⟩
    · have hlen := hp.length_eq
      simpa [Machine.mergeLoop, e] using (h.merge hL hp).mergeLoop hL k (by simp at hlen ⊢; omega)

/-! ## The leaf loop -/

/-- The construction after the passes of the leaf loop for the codes below `m` (R123). -/
def leavesBelow (ft : Memory Count) (m : Nat) : Building (List Live) :=
  (List.range m).foldl (addLeaf scanQueue ft) { node := [], n := 0, pq := [] }

theorem makeLeaves_eq (ft : Memory Count) : makeLeaves scanQueue ft = leavesBelow ft NSYM := rfl

theorem leavesBelow_succ (ft : Memory Count) (m : Nat) :
    leavesBelow ft (m + 1) = addLeaf scanQueue ft (leavesBelow ft m) m := by
  simp [leavesBelow, List.range_succ]

/-- The used codes below `m`. -/
def usedBelow (ft : Memory Count) (m : Nat) : List Nat := (List.range m).filter fun c => ftRead ft c != 0

theorem usedCodes_eq (ft : Memory Count) : usedCodes ft = usedBelow ft NSYM := rfl

theorem usedBelow_succ (ft : Memory Count) (m : Nat) :
    usedBelow ft (m + 1) = if ftRead ft m = 0 then usedBelow ft m else usedBelow ft m ++ [m] := by
  split <;> simp_all [usedBelow, List.range_succ]

theorem usedBelow_length_le (ft : Memory Count) (m : Nat) : (usedBelow ft m).length ≤ m :=
  (List.length_filter_le _ _).trans List.length_range.le

theorem leafCount_le (ft : Memory Count) : leafCount ft ≤ NSYM := by
  rw [leafCount, usedCodes_eq]
  exact usedBelow_length_le ft NSYM

/-- One more leaf, its code above those made so far, keeps the loop invariant. -/
theorem Grown.leaf {b : Building (List Live)} {m : Nat} (v : Count) (h : Grown b.n b)
    (hn : b.n ≤ m) (hm : m < NSYM) (hcc : ∀ x ∈ b.pq, x.2.cc.toNat < m) :
    Grown (b.n + 1) (addNode scanQueue b b.pq (leafRec m v)) := by
  have htotal := h.total
  have hmcc : (leafRec m v).cc.toNat = m := by
    simp only [leafRec, BitVec.toNat_ofNat]; exact Nat.mod_eq_of_lt hm
  exact
    { form := nodeWrite_wf h.form (by simp only [NNODE, NSYM] at *; omega) _
      total := by simp only [addNode_n, addNode_pq, List.length_cons]; omega
      leavesFirst := le_rfl
      rootLive := fun _ => Nat.succ_pos _
      indices := fun x hx => by
        obtain rfl | hx := List.mem_cons.1 hx
        · exact Nat.lt_succ_self _
        · exact (h.indices x hx).trans (Nat.lt_succ_self _)
      distinct := List.pairwise_cons.2
        ⟨fun x hx => ⟨(h.indices x hx).ne', fun e => (hcc x hx).ne (e ▸ hmcc)⟩, h.distinct⟩
      leaves := fun i hi => by
        rw [nodeRead_addNode]
        split
        · rfl
        · next e => exact h.leaves i (by omega)
      internal := fun i hi hi' => by
        rw [addNode_n] at hi'
        omega }

/-- Before the first leaf (R130). -/
theorem Grown.empty : Grown 0 { node := [], n := 0, pq := [] } where
  form := nil_wf _ _
  total := rfl
  leavesFirst := le_rfl
  rootLive := id
  indices := nofun
  distinct := .nil
  leaves _ := nofun
  internal _ _ := nofun

/-- After the codes below `m`: one leaf for each used one, all live, and no code from `m` on. -/
theorem leavesBelow_grown (ft : Memory Count) {m : Nat} (hm : m ≤ NSYM) :
    (leavesBelow ft m).n = (usedBelow ft m).length ∧ Grown (leavesBelow ft m).n (leavesBelow ft m) ∧
      ∀ x ∈ (leavesBelow ft m).pq, x.2.cc.toNat < m := by
  induction m with
  | zero => exact ⟨rfl, Grown.empty, nofun⟩
  | succ m ih =>
    obtain ⟨hn, hg, hcc⟩ := ih (Nat.le_of_succ_le hm)
    rw [leavesBelow_succ, usedBelow_succ, addLeaf]
    split
    · exact ⟨hn, hg, fun x hx => (hcc x hx).trans (Nat.lt_succ_self m)⟩
    · refine ⟨by simp [hn], hg.leaf _ (hn ▸ usedBelow_length_le ft m) hm hcc, fun x hx => ?_⟩
      obtain rfl | hx := List.mem_cons.1 hx
      · exact (BitVec.toNat_ofNat m 8).trans_lt ((Nat.mod_le _ _).trans_lt (Nat.lt_succ_self m))
      · exact (hcc x hx).trans (Nat.lt_succ_self m)

/-! ## The finished construction -/

theorem makeLeaves_grown (ft : Memory Count) :
    (makeLeaves scanQueue ft).n = leafCount ft ∧ Grown (leafCount ft) (makeLeaves scanQueue ft) := by
  obtain ⟨hn, hg, -⟩ := leavesBelow_grown ft (le_refl NSYM)
  rw [hn] at hg
  rw [makeLeaves_eq, leafCount, usedCodes_eq]
  exact ⟨hn, hg⟩

/-- The loop invariant at the end, with at most one node live. -/
theorem buildTree_grown (ft : Memory Count) :
    Grown (leafCount ft) (buildTree ft) ∧ (buildTree ft).pq.length ≤ 1 := by
  obtain ⟨hn, hg⟩ := makeLeaves_grown ft
  have htotal := hg.total
  exact hg.mergeLoop (leafCount_le ft) _ (by omega)

/-- `NCOUNT = 2L - 1` (R132 item 1), and 0 where there is no leaf. -/
theorem buildTree_n (ft : Memory Count) : (buildTree ft).n = 2 * leafCount ft - 1 := by
  obtain ⟨hg, hle⟩ := buildTree_grown ft
  have htotal := hg.total
  have hlive := hg.rootLive
  omega

/-- The node memory never overflows (R133). -/
theorem buildTree_n_le (ft : Memory Count) : (buildTree ft).n ≤ NNODE := by
  have hn := buildTree_n ft
  have hL := leafCount_le ft
  simp only [NNODE, NSYM] at *
  omega

/-- In a finished tree the root of two or more leaves is internal (R127). -/
theorem buildTree_last_internal {ft : Memory Count} (h : 2 ≤ (buildTree ft).n) :
    (nodeRead (buildTree ft).node ((buildTree ft).n - 1)).lf = false := by
  have hn := buildTree_n ft
  exact ((buildTree_grown ft).1.internal _ (by omega) (by omega)).1

/-- The children of an internal node are nodes of the tree (R132 item 2). -/
theorem buildTree_child_lt {ft : Memory Count} {i : Nat} (b : Bool) (hi : i < (buildTree ft).n)
    (hl : (nodeRead (buildTree ft).node i).lf = false) : (child (buildTree ft).node i b).toNat < (buildTree ft).n := by
  obtain ⟨hg, -⟩ := buildTree_grown ft
  have hLi : leafCount ft ≤ i := by
    by_contra hlt
    exact absurd (hg.leaves i (by omega)) (by simp [hl])
  obtain ⟨-, hlc, hrc⟩ := hg.internal i hLi hi
  cases b
  · exact hlc.trans hi
  · exact hrc.trans hi

end Sys2Proof.Machine
end

section
/-! PROOFS. Every step keeps `Inv`: which fields it reads, what the commands that write the tree, the codes and the
decode do to it (R25, R29, R35), and the control invariants along a run. -/

namespace Sys2Proof.Machine

variable {s : State}

/-- `Inv` says nothing of `ERR` and of the host's two lists. -/
theorem Inv.withHost (h : Inv s) (err : Status) (hostIn : List HostInput) (hostOut : List Response) :
    Inv { s with err := err, hostIn := hostIn, hostOut := hostOut } :=
  { h with control := { h.control with } }

theorem Inv.failedWith (h : Inv s) (e : Status) : Inv (s.failedWith e) := h.withHost _ _ _

theorem Inv.succeeded (h : Inv s) (d : RspData) : Inv (s.succeeded d) := h.withHost _ _ _

/-! ## Clearing: `LDF`, `CLR` and reset -/

/-- With every valid flag cleared only the form of the table is left to hold. -/
theorem Inv.of_dropTree (s : State) {ft : Memory Count} (h : Memory.wf NSYM (some 0) ft) :
    Inv { s.dropTree with ft := ft } where
  ftForm := h
  nodeForm := nil_wf _ _
  ctForm := nil_wf _ _
  control :=
    { item1 := fun _ => ⟨rfl, rfl, rfl, rfl, rfl⟩
      item2 := nofun
      item3 := nofun
      item4 := fun _ => rfl
      item5 := nofun
      item6 := nofun
      item7 := show treeKindCode .noTree ≠ 3 by decide }
  noneBuilt _ := rfl
  treeBuilt := nofun
  noneCoded _ := rfl
  codesMade := nofun

theorem Inv.clearAll (s : State) : Inv s.clearAll := (Inv.of_dropTree s (nil_wf _ _)).withHost _ _ _

theorem Inv.reset : Inv State.reset := Inv.clearAll State.reset

/-! ## `BUILD` -/

theorem treeKindOf_code_ne (n : Nat) : treeKindCode (treeKindOf n) ≠ 3 := by
  unfold treeKindOf
  split
  · decide
  · split <;> decide

theorem treeKindOf_eq_general {n : Nat} : treeKindOf n = .general ↔ 2 ≤ n := by
  unfold treeKindOf
  split
  · simp [*]
  · split <;> simp <;> omega

theorem rootOf_toNat {n : Nat} (h : n ≤ NNODE) : (rootOf n).toNat = n - 1 :=
  (BitVec.toNat_ofNat (n - 1) 9).trans (Nat.mod_eq_of_lt (by simp only [NNODE] at h; omega))

theorem ncountOf_toNat {n : Nat} (h : n ≤ NNODE) : (BitVec.ofNat 10 n).toNat = n :=
  (BitVec.toNat_ofNat n 10).trans (Nat.mod_eq_of_lt (by simp only [NNODE] at h; omega))

/-- R35 item 6 of the registers `BUILD` writes. -/
theorem buildTree_kinds (ft : Memory Count) :
    (treeKindOf (buildTree ft).n = .noTree ∧ BitVec.ofNat 10 (buildTree ft).n = 0) ∨
    (treeKindOf (buildTree ft).n = .single ∧ BitVec.ofNat 10 (buildTree ft).n = 1 ∧ rootOf (buildTree ft).n = 0) ∨
    (treeKindOf (buildTree ft).n = .general ∧ (BitVec.ofNat 10 (buildTree ft).n).toNat = 2 * leafCount ft - 1 ∧
      3 ≤ (BitVec.ofNat 10 (buildTree ft).n).toNat ∧
      (rootOf (buildTree ft).n).toNat = (BitVec.ofNat 10 (buildTree ft).n).toNat - 1) := by
  have hn := buildTree_n ft
  have hle := buildTree_n_le ft
  obtain h | h | h : (buildTree ft).n = 0 ∨ (buildTree ft).n = 1 ∨ 2 ≤ (buildTree ft).n := by omega
  · exact .inl (by rw [h]; decide)
  · exact .inr (.inl (by rw [h]; decide))
  · rw [ncountOf_toNat hle, rootOf_toNat hle]
    exact .inr (.inr ⟨treeKindOf_eq_general.2 h, hn, by omega, rfl⟩)

theorem Inv.withTree (h : Inv s) : Inv (s.withTree (buildTree s.ft)) where
  ftForm := h.ftForm
  nodeForm := (buildTree_grown s.ft).1.form
  ctForm := nil_wf _ _
  control :=
    { item1 := nofun
      item2 := nofun
      item3 := nofun
      item4 := fun _ => rfl
      item5 := nofun
      item6 := fun _ => buildTree_kinds s.ft
      item7 := treeKindOf_code_ne _ }
  noneBuilt := nofun
  treeBuilt _ := ⟨rfl, ncountOf_toNat (buildTree_n_le s.ft), rfl, rfl⟩
  noneCoded _ := rfl
  codesMade := nofun

/-! ## `GENCODE` -/

/-- The walk assigns codes to characters of the alphabet alone, so it keeps the form of `CT`. -/
theorem walk_ct_wf {node : Memory NodeRec} : ∀ (k : Nat) (stack : List (Nat × List Bool)) (t t' : Coding),
    Memory.wf NSYM (some emptyCode) t.ct → walk node k stack t = some t' → Memory.wf NSYM (some emptyCode) t'.ct
  | k, [], t, t', ht, h => by
    rw [walk_empty] at h
    cases h
    exact ht
  | 0, _ :: _, _, _, _, h => by cases h
  | k + 1, (i, p) :: stack, t, t', ht, h => by
    cases hl : (nodeRead node i).lf with
    | true =>
      rw [walk_leaf _ _ _ _ _ _ hl] at h
      refine walk_ct_wf k stack _ t' ?_ h
      unfold assignCode
      split
      · exact ht
      · exact ctWrite_wf ht _ _
    | false =>
      rw [walk_internal _ _ _ _ _ _ hl] at h
      exact walk_ct_wf k _ t t' ht h

theorem codeTable_wf {node : Memory NodeRec} {root : BitVec 9} {tk : TreeKind} {ct : Memory CodeRec}
    (h : codeTable node root tk = some ct) : Memory.wf NSYM (some emptyCode) ct := by
  unfold codeTable at h
  split at h
  · cases h
    exact nil_wf _ _
  · obtain ⟨t, ht, rfl⟩ := Option.map_eq_some_iff.1 h
    exact walk_ct_wf _ _ _ t (nil_wf _ _) ht

theorem Inv.withCodes (h : Inv s) {ct : Memory CodeRec} (built : s.tv = true)
    (made : codeTable s.node s.root s.tk = some ct) : Inv { s with ct := ct, cv := true } :=
  { h with
    ctForm := codeTable_wf made
    control := { h.control with
      item1 := fun hv => absurd (built.symm.trans hv) (by decide)
      item2 := fun _ => built }
    noneCoded := nofun
    codesMade := fun _ => made }

/-! ## The decoder -/

/-- In a general tree the root is a node of the tree and no leaf. -/
theorem Inv.root_internal (h : Inv s) (built : s.tv = true) (general : s.tk = .general) :
    s.root.toNat < s.ncount.toNat ∧ (nodeRead s.node s.root.toNat).lf = false := by
  obtain ⟨hnode, hcount, hkind, hroot⟩ := h.treeBuilt built
  have hn : 2 ≤ (buildTree s.ft).n := treeKindOf_eq_general.1 (hkind.symm.trans general)
  have hr : s.root.toNat = (buildTree s.ft).n - 1 := hroot ▸ rootOf_toNat (buildTree_n_le s.ft)
  rw [hcount, hr, hnode]
  exact ⟨by omega, buildTree_last_internal hn⟩

/-- A bit leads from an internal node of the tree to a node of the tree. -/
theorem Inv.child_lt (h : Inv s) (built : s.tv = true) {i : Nat} (b : Bool) (hi : i < s.ncount.toNat)
    (hl : (nodeRead s.node i).lf = false) : (child s.node i b).toNat < s.ncount.toNat := by
  obtain ⟨hnode, hcount, -, -⟩ := h.treeBuilt built
  rw [hcount] at hi ⊢
  rw [hnode] at hl ⊢
  exact buildTree_child_lt b hi hl

/-- A decode may stand at any internal node of a general tree. -/
theorem Inv.decodeAt (h : Inv s) (built : s.tv = true) (general : s.tk = .general) {i : NodeIdx}
    (hi : i.toNat < s.ncount.toNat) (hl : (nodeRead s.node i.toNat).lf = false) :
    Inv { s with da := true, dcur := i } :=
  { h with
    control := { h.control with
      item1 := fun hv => absurd (built.symm.trans hv) (by decide)
      item3 := fun _ => ⟨built, general⟩
      item4 := nofun
      item5 := fun _ => ⟨hi, hl⟩ } }

/-- No decode is in progress, and `DCUR` is 0. -/
theorem Inv.decodeOver (h : Inv s) : Inv { s with da := false, dcur := 0 } :=
  { h with
    control := { h.control with
      item1 := fun hv =>
        have ⟨hk, hr, hc, hcv, _⟩ := h.control.item1 hv
        ⟨hk, hr, hc, hcv, rfl⟩
      item3 := nofun
      item4 := fun _ => rfl
      item5 := nofun } }

/-- `DBIT` writes `DCUR` alone, which is the same state as beginning a decode there. -/
theorem withDcur_eq (active : s.da = true) (i : NodeIdx) :
    ({ s with dcur := i } : State) = { s with da := true, dcur := i } := by
  rw [← active]

/-! ## Every step -/

/-- What a succeeding command leaves satisfies the invariant. -/
theorem Succeeds.keeps_inv {i : Instr} {u : State} {d : RspData} (h : Succeeds s i u d) (hs : Inv s) : Inv u := by
  cases h with
  | nop | rdf | rdn | rdc | rds => exact hs
  | clr => exact Inv.clearAll s
  | ldf sym val => exact Inv.of_dropTree s (ftWrite_wf hs.ftForm sym val)
  | build => exact hs.withTree
  | gencode built made => exact hs.withCodes built made
  | dstart built general =>
    obtain ⟨hi, hl⟩ := hs.root_internal built general
    exact hs.decodeAt built general hi hl
  | dbitLeaf active leaf =>
    obtain ⟨built, general⟩ := hs.control.item3 active
    obtain ⟨hi, hl⟩ := hs.root_internal built general
    exact withDcur_eq active _ ▸ hs.decodeAt built general hi hl
  | dbitInner active inner =>
    obtain ⟨built, general⟩ := hs.control.item3 active
    obtain ⟨hi, hl⟩ := hs.control.item5 active
    exact withDcur_eq active _ ▸ hs.decodeAt built general (hs.child_lt built _ hi hl) inner
  | dend => exact hs.decodeOver

theorem issue_keeps_inv {c : Command} {t : State} (hs : Inv s) (h : issue c s = .next t) : Inv t := by
  obtain ⟨e, rfl⟩ | ⟨i, u, d, -, hu, rfl⟩ := issue_next_cases h
  · exact hs.failedWith e
  · exact (hu.keeps_inv hs).succeeded d

theorem step_keeps_inv {t : State} (hs : Inv s) (h : step s = .next t) : Inv t := by
  obtain rfl | ⟨c, rest, -, hc⟩ | ⟨rest, -, rfl⟩ := step_next_cases h
  · exact hs
  · exact issue_keeps_inv (hs.withHost s.err rest s.hostOut) hc
  · exact Inv.clearAll _

/-- Settles O44. The control invariants are part of `Inv`, which holds at reset whatever the host is to present and
which every step keeps. -/
theorem controlInvariantsHoldAfterEveryCommand : Obligations.ControlInvariantsHoldAfterEveryCommand := by
  intro inputs k t h
  exact (run_keeps (fun _ _ => step_keeps_inv) k _ t (Inv.reset.withHost .ok inputs []) h).control

end Sys2Proof.Machine
end

section
/-! PROOFS. What `BUILD` and `LDF` end: the decode in progress and the code table (R60). -/

namespace Sys2Proof.Machine

/-- With no code table valid, `RDC` fails (R167). -/
theorem execRdc_of_no_codes {s : State} (h : s.cv = false) (sym : Sym) :
    execRdc sym s = .next (s.failedWith .nocode) := by
  obtain ⟨-, e⟩ | ⟨coded, -⟩ := execRdc_cases sym s
  · exact e
  · cases h.symm.trans coded

/-- With no decode in progress, `DBIT` fails (R182). -/
theorem execDbit_of_no_decode {s : State} (h : s.da = false) (b : Bool) :
    execDbit b s = .next (s.failedWith .idle) := by
  obtain ⟨-, e⟩ | ⟨active, -⟩ | ⟨active, -⟩ := execDbit_cases b s
  · exact e
  · cases h.symm.trans active
  · cases h.symm.trans active

/-- `BUILD` and `LDF` clear `DA` and `CV` (R102, R130). -/
theorem exec_clears_decode_and_codes {s t : State} {i : Instr} (hi : i = .build ∨ ∃ sym val, i = .ldf sym val)
    (h : exec i s = .next t) : t.da = false ∧ t.cv = false := by
  obtain rfl | ⟨sym, val, rfl⟩ := hi
  · obtain rfl := execBuild_next h
    exact ⟨rfl, rfl⟩
  · obtain rfl := execLdf_next h
    exact ⟨rfl, rfl⟩

/-- Settles O46. Both commands clear the two flags that `DBIT` and `RDC` look at. -/
theorem nothingStaleIsRead : Obligations.NothingStaleIsRead := by
  intro s t i hi h
  obtain ⟨hda, hcv⟩ := exec_clears_decode_and_codes hi h
  exact ⟨execDbit_of_no_decode hda, execRdc_of_no_codes hcv⟩

end Sys2Proof.Machine
end

section
/-! PROOFS. The rows of the opcode map (R76, R88). The mask of a row keeps all bits above its operand, so the row selects
a run of consecutive words: no word lies in two runs, and the words of a row are counted by the length of its run. -/

namespace Sys2Proof

/-- The number of operand bits of an opcode (R72, R76); 0 for the reserved ones, which have no row. -/
def operandBits (op : Nat) : Nat :=
  match op with
  | 0x2 | 0x3 | 0x7 => 8
  | 0x5 => 9
  | 0x9 => 1
  | _ => 0

/-- The row of an opcode, from its number of operand bits. -/
def rowOf (op : Nat) : OpcodeRow := ⟨BitVec.allOnes 16 <<< operandBits op, BitVec.ofNat 16 (0x1000 * op)⟩

theorem opcodeMap_eq : opcodeMap = (List.range 12).map rowOf := by decide

theorem mem_opcodeMap {r : OpcodeRow} : r ∈ opcodeMap ↔ ∃ op < 12, rowOf op = r := by simp [opcodeMap_eq]

theorem operandBits_cases (op : Nat) :
    operandBits op = 0 ∨ operandBits op = 1 ∨ operandBits op = 8 ∨ operandBits op = 9 := by
  unfold operandBits
  split <;> simp

theorem two_pow_operandBits_le (op : Nat) : 2 ^ operandBits op ≤ 0x200 := by
  obtain h | h | h | h := operandBits_cases op <;> rw [h] <;> decide

/-- A row selects the words of its opcode whose other bits are a value of its operand. -/
theorem rowOf_selects_iff {op : Nat} (hop : op < 12) {w : BitVec 16} :
    (rowOf op).selects w = true ↔ w.toNat / 0x1000 = op ∧ w.toNat % 0x1000 < 2 ^ operandBits op := by
  have hw := w.isLt
  have aligned : (rowOf op).selects w = true ↔ w.toNat / 2 ^ operandBits op * 2 ^ operandBits op = 0x1000 * op := by
    have hlt : w.toNat / 2 ^ operandBits op * 2 ^ operandBits op < 2 ^ 16 := (Nat.div_mul_le_self ..).trans_lt hw
    simp only [OpcodeRow.selects, rowOf, ← BitVec.shiftLeft_ushiftRight, beq_iff_eq, ← BitVec.toNat_inj,
      BitVec.toNat_shiftLeft, BitVec.toNat_ushiftRight, BitVec.toNat_ofNat, Nat.shiftLeft_eq, Nat.shiftRight_eq_div_pow]
    omega
  rw [aligned]
  obtain h | h | h | h := operandBits_cases op <;> rw [h] <;> omega

theorem exists_row_selects_iff {w : BitVec 16} : (∃ r ∈ opcodeMap, r.selects w = true) ↔
    w.toNat / 0x1000 < 12 ∧ w.toNat % 0x1000 < 2 ^ operandBits (w.toNat / 0x1000) := by
  constructor
  · rintro ⟨r, hr, h⟩
    obtain ⟨op, hop, rfl⟩ := mem_opcodeMap.1 hr
    obtain ⟨rfl, harg⟩ := (rowOf_selects_iff hop).1 h
    exact ⟨hop, harg⟩
  · rintro ⟨hop, harg⟩
    exact ⟨_, mem_opcodeMap.2 ⟨_, hop, rfl⟩, (rowOf_selects_iff hop).2 ⟨rfl, harg⟩⟩

/-- Two rows of the map have different opcodes, and a word has one. -/
theorem opcodeMap_disjoint :
    opcodeMap.Pairwise fun r r' => ∀ w, ¬ (r.selects w = true ∧ r'.selects w = true) := by
  rw [opcodeMap_eq, List.pairwise_map]
  refine List.nodup_range.imp_of_mem fun hop hop' hne w ⟨h, h'⟩ => hne ?_
  obtain ⟨e, -⟩ := (rowOf_selects_iff (List.mem_range.1 hop)).1 h
  obtain ⟨e', -⟩ := (rowOf_selects_iff (List.mem_range.1 hop')).1 h'
  exact e.symm.trans e'

/-- Settles O5. The masks and the opcodes are read off the table; two rows with different opcodes share no word. -/
theorem noWordSelectsTwoRows : Obligations.NoWordSelectsTwoRows :=
  ⟨by decide, by decide, fun w => opcodeMap_disjoint.imp fun h => h w⟩

/-! ## Counting the words of the rows -/

theorem countP_range_of_run {p : Nat → Bool} {n a k : Nat} (hn : a + k ≤ n)
    (h : ∀ i < n, p i = true ↔ a ≤ i ∧ i < a + k) : (List.range n).countP p = k := by
  have run : {i ∈ Finset.range n | p i = true} = Finset.Ico a (a + k) := by
    ext i
    simp only [Finset.mem_filter, Finset.mem_range, Finset.mem_Ico]
    exact ⟨fun ⟨hi, hp⟩ => (h i hi).1 hp, fun hi => ⟨by omega, (h i (by omega)).2 hi⟩⟩
  calc (List.range n).countP p
      = Nat.count (fun i => p i = true) n := by simp [Nat.count]
    _ = k := by rw [Nat.count_eq_card_filter_range, run, Nat.card_Ico, Nat.add_sub_cancel_left]

/-- The words of a row are consecutive, as many as its operand has values. -/
theorem countP_rowOf_selects {op : Nat} (hop : op < 12) :
    (List.range 65536).countP (fun w => (rowOf op).selects (BitVec.ofNat 16 w)) = 2 ^ operandBits op := by
  have hsize := two_pow_operandBits_le op
  refine countP_range_of_run (a := 0x1000 * op) (by omega) fun w hw => ?_
  rw [rowOf_selects_iff hop, BitVec.toNat_ofNat]
  omega

theorem countP_opcodeMap :
    opcodeMap.map (fun r => (List.range 65536).countP fun w => r.selects (BitVec.ofNat 16 w)) =
      (List.range 12).map fun op => 2 ^ operandBits op := by
  rw [opcodeMap_eq, List.map_map]
  refine List.map_congr_left fun op hop => ?_
  rw [Function.comp_apply, countP_rowOf_selects (List.mem_range.1 hop)]

theorem countP_or_of_disjoint {α : Type} {p q : α → Bool} (h : ∀ x, ¬ (p x = true ∧ q x = true)) (xs : List α) :
    xs.countP (fun x => p x || q x) = xs.countP p + xs.countP q := by
  induction xs with
  | nil => rfl
  | cons x xs ih =>
    rw [List.countP_cons, List.countP_cons, List.countP_cons, ih]
    cases hp : p x <;> cases hq : q x
    case true.true => exact absurd ⟨hp, hq⟩ (h x)
    all_goals simp only [Bool.or_true, Bool.or_false, Bool.false_eq_true, if_true, if_false]; omega

/-- Where no element satisfies two of several predicates, those that satisfy one are counted one predicate at a time. -/
theorem countP_any_eq_sum {α ι : Type} (p : ι → α → Bool) (xs : List α) {is : List ι}
    (h : is.Pairwise fun i j => ∀ x, ¬ (p i x = true ∧ p j x = true)) :
    xs.countP (fun x => is.any fun i => p i x) = (is.map fun i => xs.countP (p i)).sum := by
  induction h with
  | nil => simp
  | @cons i is hi _ ih =>
    have apart (x : α) : ¬ (p i x = true ∧ (is.any fun j => p j x) = true) := by
      rintro ⟨hx, hy⟩
      obtain ⟨j, hj, hy⟩ := List.any_eq_true.1 hy
      exact hi j hj x ⟨hx, hy⟩
    simp only [List.any_cons, List.map_cons, List.sum_cons, countP_or_of_disjoint apart, ih]

theorem countP_any_opcodeMap :
    (List.range 65536).countP (fun w => opcodeMap.any fun r => r.selects (BitVec.ofNat 16 w)) = 1289 := by
  rw [countP_any_eq_sum (fun r w => r.selects (BitVec.ofNat 16 w)) _ (opcodeMap_disjoint.imp fun h w => h _),
    countP_opcodeMap]
  rfl

/-! ## Bits every word of a row has -/

theorem OpcodeRow.and_eq_of_selects {r : OpcodeRow} {w m : BitVec 16} (h : r.selects w = true)
    (hm : r.mask &&& m = m) : w &&& m = r.value &&& m := by
  rw [← beq_iff_eq.1 h, BitVec.and_assoc, hm]

end Sys2Proof

namespace Sys2Proof.Machine

/-- The mask of a row covers `rsv` and the "must be 0" positions of its format, and its match has 0 there. -/
theorem rowOf_covers : ∀ op < 12,
    (rowOf op).mask &&& 0x0E00 = 0x0E00 ∧ (rowOf op).value &&& 0x0E00 = 0 ∧
    (rowOf op).mask &&& mustBeZero op = mustBeZero op ∧ (rowOf op).value &&& mustBeZero op = 0 := by decide

theorem not_selects_of_reserved_bit {w : BitVec 16}
    (h : w &&& 0x0E00 ≠ 0 ∨ w &&& mustBeZero (w.toNat / 0x1000) ≠ 0) : ∀ r ∈ opcodeMap, r.selects w = false := by
  intro r hr
  obtain ⟨op, hop, rfl⟩ := mem_opcodeMap.1 hr
  refine eq_false_of_ne_true fun hsel => ?_
  obtain ⟨hrsv, hrsv0, harg, harg0⟩ := rowOf_covers op hop
  obtain ⟨rfl, -⟩ := (rowOf_selects_iff hop).1 hsel
  obtain h | h := h
  · exact h ((OpcodeRow.and_eq_of_selects hsel hrsv).trans hrsv0)
  · exact h ((OpcodeRow.and_eq_of_selects hsel harg).trans harg0)

end Sys2Proof.Machine
end

section
/-! PROOFS. The decoder on command words: it accepts the words of the rows and no other (R80, R83), fails the others
(R79, R80), and looks at `WD` for `LDF` only (R74). -/

namespace Sys2Proof

/-! ## The fields as numbers -/

theorem opField_toNat (cw : BitVec 16) : (opField cw).toNat = cw.toNat / 0x1000 := by
  have := cw.isLt
  simp only [opField, BitVec.extractLsb'_toNat, Nat.shiftRight_eq_div_pow]
  omega

theorem rsvField_eq_zero_iff {cw : BitVec 16} : rsvField cw = 0 ↔ cw.toNat % 0x1000 < 0x200 := by
  simp only [rsvField, ← BitVec.toNat_inj, BitVec.extractLsb'_toNat, Nat.shiftRight_eq_div_pow, BitVec.toNat_zero,
    BitVec.ofNat_eq_ofNat]
  omega

theorem argField_toNat (cw : BitVec 16) : (argField cw).toNat = cw.toNat % 0x200 := by
  simp [argField]

/-! ## The words each format accepts (R72) -/

theorem exists_decodeN_eq_ok_iff {cw : BitVec 16} {i : Instr} :
    (∃ j, decodeN cw i = .ok j) ↔ cw.toNat % 0x200 < 2 ^ 0 := by
  simp [decodeN_eq_ok, ← argField_toNat, ← BitVec.toNat_inj]

theorem exists_decodeS_eq_ok_iff {cw : BitVec 16} {i : Sym → Instr} :
    (∃ j, decodeS cw i = .ok j) ↔ cw.toNat % 0x200 < 2 ^ 8 := by
  have := (argField cw).isLt
  simp only [decodeS_eq_ok, exists_and_left, exists_eq', and_true, ← argField_toNat, BitVec.getLsbD,
    Nat.testBit_eq_decide_div_mod_eq, decide_eq_false_iff_not]
  omega

theorem exists_decodeB_eq_ok_iff {cw : BitVec 16} {i : Bool → Instr} :
    (∃ j, decodeB cw i = .ok j) ↔ cw.toNat % 0x200 < 2 ^ 1 := by
  have := (argField cw).isLt
  simp only [decodeB_eq_ok, exists_and_left, exists_eq', and_true, ← argField_toNat, ← BitVec.toNat_inj,
    BitVec.extractLsb'_toNat, Nat.shiftRight_eq_div_pow, BitVec.toNat_zero, BitVec.ofNat_eq_ofNat]
  omega

/-- The decoder accepts the words of the twelve opcodes whose other bits are a value of the operand. -/
theorem exists_decode_eq_ok_iff {c : Command} : (∃ i, decode c = .ok i) ↔
    c.cw.toNat / 0x1000 < 12 ∧ c.cw.toNat % 0x1000 < 2 ^ operandBits (c.cw.toNat / 0x1000) := by
  by_cases hrsv : rsvField c.cw = 0
  case neg =>
    have := two_pow_operandBits_le (c.cw.toNat / 0x1000)
    have := rsvField_eq_zero_iff.not.1 hrsv
    simp only [decode, ne_eq, hrsv, not_false_eq_true, if_true, reduceCtorEq, exists_false, false_iff]
    omega
  case pos =>
    have hlow : c.cw.toNat % 0x1000 = c.cw.toNat % 0x200 := by
      have := rsvField_eq_zero_iff.1 hrsv
      omega
    rw [hlow, ← opField_toNat]
    simp only [decode, hrsv, ne_eq, not_true_eq_false, if_false]
    split
    -- format X takes every `arg`; the last case is the reserved opcodes
    case h_6 hop => simp [hop, operandBits, Nat.mod_lt]
    case h_13 =>
      simp only [imp_false] at *
      simp only [reduceCtorEq, exists_false, false_iff]
      omega
    all_goals simp [*, exists_decodeN_eq_ok_iff, exists_decodeS_eq_ok_iff, exists_decodeB_eq_ok_iff, operandBits]

end Sys2Proof

namespace Sys2Proof.Machine

/-- A word is legal exactly when it selects a row (R80). -/
theorem exists_decode_eq_ok_iff_selects {c : Command} :
    (∃ i, decode c = .ok i) ↔ ∃ r ∈ opcodeMap, r.selects c.cw = true :=
  exists_decode_eq_ok_iff.trans exists_row_selects_iff.symm

theorem issue_of_not_legal {c : Command} (h : ¬ ∃ i, decode c = .ok i) (s : State) :
    issue c s = .next (s.failedWith .illegal) := by
  cases hd : decode c with
  | ok i => exact absurd ⟨i, hd⟩ h
  | error e => exact issue_of_illegal hd s

/-- Settles O6. The reserved opcodes are those from 12 on. -/
theorem reservedOpcodesFail : Obligations.ReservedOpcodesFail := by
  intro c s h
  refine issue_of_not_legal (fun hlegal => ?_) s
  have ⟨hop, _⟩ := exists_decode_eq_ok_iff.1 hlegal
  omega

/-- Settles O4. Rows, decoder and counts are compared through the opcode of the word and the size of its operand. -/
theorem legalWordsAreTheRowsOfTheMap : Obligations.LegalWordsAreTheRowsOfTheMap := by
  refine ⟨fun c => exists_decode_eq_ok_iff_selects, fun c => not_selects_of_reserved_bit, fun c s hnone => ?_,
    countP_any_opcodeMap, countP_opcodeMap⟩
  refine issue_of_not_legal (fun hlegal => ?_) s
  obtain ⟨r, hr, hsel⟩ := exists_decode_eq_ok_iff_selects.1 hlegal
  exact absurd hsel (Bool.eq_false_iff.1 (hnone r hr))

theorem decode_wd_irrelevant {cw : BitVec 16} (h : cw.toNat / 0x1000 ≠ 2) (wd wd' : Count) :
    decode ⟨cw, wd⟩ = decode ⟨cw, wd'⟩ := by
  rw [← opField_toNat] at h
  simp only [decode]
  split
  · rfl
  · split
    case h_3 hop => exact absurd hop h
    all_goals rfl

/-- Settles O7. `WD` enters the decoded command in the row of `LDF` alone. -/
theorem onlyLdfReadsTheDataWord : Obligations.OnlyLdfReadsTheDataWord := by
  intro cw wd wd' s h
  rw [issue, issue, decode_wd_irrelevant h wd wd']

end Sys2Proof.Machine
end

section
/-! PROOFS. The table and system commands (40_table_and_system.md): the command words that present them (R72, R73, R84),
the words of their opcodes that are illegal (R80), and what each command leaves and answers. -/

namespace Sys2Proof

section
/-! The word that presents a symbol under an opcode, formats S and W (R71, R73, R84). -/

variable {base : BitVec 16} (hbase : base.toNat % 0x1000 = 0) (sym : Sym)
include hbase

theorem symWord_toNat : (base + sym.setWidth 16).toNat = base.toNat + sym.toNat := by bv_omega

theorem opField_symWord : (opField (base + sym.setWidth 16)).toNat = base.toNat / 0x1000 := by
  have hsym := sym.isLt
  rw [opField_toNat, symWord_toNat hbase]
  omega

theorem rsvField_symWord : rsvField (base + sym.setWidth 16) = 0 := by
  have hsym := sym.isLt
  rw [rsvField_eq_zero_iff, symWord_toNat hbase]
  omega

theorem symField_symWord : symField (base + sym.setWidth 16) = sym := by
  have hsym := sym.isLt
  rw [symField, ← BitVec.toNat_inj, BitVec.extractLsb'_toNat, Nat.shiftRight_zero, symWord_toNat hbase]
  omega

theorem decodeS_symWord (i : Sym → Instr) : decodeS (base + sym.setWidth 16) i = .ok (i sym) := by
  refine decodeS_eq_ok.2 ⟨?_, congrArg i (symField_symWord hbase sym)⟩
  have hsym := sym.isLt
  rw [BitVec.getLsbD, argField_toNat, symWord_toNat hbase]
  exact Nat.testBit_lt_two_pow (by omega)

end

theorem decode_nop (wd : Count) : decode ⟨0x0000, wd⟩ = .ok .nop :=
  (Machine.decode_wd_irrelevant (by decide) wd 0).trans (by decide)

theorem decode_rds (wd : Count) : decode ⟨0xB000, wd⟩ = .ok .rds :=
  (Machine.decode_wd_irrelevant (by decide) wd 0).trans (by decide)

theorem decode_ldf (sym : Sym) (val : Count) : decode ⟨0x2000 + sym.setWidth 16, val⟩ = .ok (.ldf sym val) := by
  simp [decode, opField_symWord, rsvField_symWord, decodeS_symWord]

theorem decode_rdf (sym : Sym) (wd : Count) : decode ⟨0x3000 + sym.setWidth 16, wd⟩ = .ok (.rdf sym) := by
  simp [decode, opField_symWord, rsvField_symWord, decodeS_symWord]

end Sys2Proof

namespace Sys2Proof.Machine

/-- A word with a bit set above its operand is illegal (R80). -/
theorem issue_of_bit_above_operand {c : Command} {op : Nat} (hop : c.cw.toNat / 0x1000 = op)
    (h : 2 ^ operandBits op ≤ c.cw.toNat % 0x1000) (s : State) : issue c s = .next (s.failedWith .illegal) := by
  subst hop
  exact issue_of_not_legal (fun hlegal => absurd (exists_decode_eq_ok_iff.1 hlegal).2 (Nat.not_lt.2 h)) s

/-- The same where the operand is a symbol, formats S and W: `CW[11:8]` must be 0 (R102, R103). -/
theorem issue_of_bit_above_symbol {c : Command} {op : Nat} (hop : c.cw.toNat / 0x1000 = op)
    (hbits : operandBits op = 8) (h : c.cw.toNat / 0x100 % 0x10 ≠ 0) (s : State) :
    issue c s = .next (s.failedWith .illegal) := by
  refine issue_of_bit_above_operand hop ?_ s
  rw [hbits]
  omega

/-- Settles O15. The word 0x0000 decodes to `NOP`, and every other word of its opcode is illegal. -/
theorem nopDoesNothing : Obligations.NopDoesNothing :=
  ⟨fun _ => rfl, fun wd s => issue_of_decode (decode_nop wd) s,
    fun _ s hop harg => issue_of_bit_above_operand hop (Nat.pos_of_ne_zero harg) s⟩

/-- Settles O16. `CLR` leaves the state that reset leaves, and answers. -/
theorem clrReturnsToTheResetState : Obligations.ClrReturnsToTheResetState :=
  ⟨fun s => ⟨s.clearAll.succeeded 0, rfl, { s.clearAll_isResetState with }, rfl, rfl⟩,
    State.reset_isResetState,
    fun _ s => issue_of_decode (decode_eq_clr.2 rfl) s,
    fun _ s hop harg => issue_of_bit_above_operand hop (Nat.pos_of_ne_zero harg) s⟩

/-- Settles O17. The entry is written over a state whose tree, codes and decode are dropped. -/
theorem ldfLoadsOneEntry : Obligations.LdfLoadsOneEntry :=
  ⟨fun sym val s => ⟨_, rfl, ftRead_ftWrite_same s.ft sym.toNat val,
      fun _ hc => ftRead_ftWrite_other s.ft val hc, rfl, rfl, rfl, rfl, rfl, rfl, rfl, rfl, rfl, rfl⟩,
    fun sym val s => issue_of_decode (decode_ldf sym val) s,
    fun _ s hop harg => issue_of_bit_above_symbol hop rfl harg s⟩

theorem countData_toNat (v : Count) : (countData v).toNat = v.toNat := BitVec.toNat_setWidth_of_le (by decide)

/-- Settles O18. The data is the entry, widened; the state is left as it was. -/
theorem rdfReadsOneEntry : Obligations.RdfReadsOneEntry :=
  ⟨fun sym s => ⟨countData (ftRead s.ft sym.toNat), rfl, countData_toNat _⟩,
    fun sym wd s => issue_of_decode (decode_rdf sym wd) s, ftRead_nil,
    fun _ s hop harg => issue_of_bit_above_symbol hop rfl harg s⟩

/-! ## The status word

Adding up the widths of the fields would hide where one field ends and the next begins, hence `-Nat.reduceAdd`. -/

theorem State.dm_eq_true_iff {s : State} : s.dm = true ↔ s.da = true ∧ s.dcur ≠ s.root := by
  simp [State.dm]

/-- The one-bit fields of the status word (R34). -/
theorem statusData_getLsbD (s : State) :
    (statusData s).getLsbD 0 = s.tv ∧ (statusData s).getLsbD 3 = s.cv ∧ (statusData s).getLsbD 4 = s.da ∧
      (statusData s).getLsbD 5 = s.dm := by
  simp [statusData, State.statusWord, BitVec.getLsbD_append, -Nat.reduceAdd, -BitVec.getLsbD_eq_getElem]

/-- The wider fields of the status word (R34): each is reached by leaving out the fields below it. -/
theorem statusData_extractLsb' (s : State) :
    (statusData s).extractLsb' 1 2 = treeKindCode s.tk ∧ (statusData s).extractLsb' 6 4 = statusCode s.err ∧
      (statusData s).extractLsb' 10 9 = s.root ∧ (statusData s).extractLsb' 19 10 = s.ncount ∧
      (statusData s).extractLsb' 29 9 = s.dcur := by
  simp (disch := omega) [statusData, State.statusWord, BitVec.extractLsb'_setWidth_of_le,
    BitVec.extractLsb'_append_eq_of_le, BitVec.extractLsb'_append_eq_of_add_le, -Nat.reduceAdd]

theorem statusData_lt (s : State) : (statusData s).toNat < 2 ^ 38 := by
  rw [statusData, BitVec.toNat_setWidth_of_le (by decide)]
  exact s.statusWord.isLt

/-- Settles O19. The data is the status word, whose fields stand at the places R34 lists. -/
theorem rdsReportsTheStatusWord : Obligations.RdsReportsTheStatusWord := by
  refine ⟨fun s => ⟨statusData s, rfl, ?_⟩, fun wd s => issue_of_decode (decode_rds wd) s,
    fun _ s hop harg => issue_of_bit_above_operand hop (Nat.pos_of_ne_zero harg) s⟩
  obtain ⟨htv, hcv, hda, hdm⟩ := statusData_getLsbD s
  obtain ⟨htk, herr, hroot, hncount, hdcur⟩ := statusData_extractLsb' s
  exact ⟨htv, htk, hcv, hda, hdm ▸ State.dm_eq_true_iff, herr, hroot, hncount, hdcur, statusData_lt s⟩

end Sys2Proof.Machine
end

section
/-! PROOFS. What the loop of `BUILD` does to the node memory, read off the records it leaves (R122, R125, R126, R131):
the live nodes are the queue, each record of the queue is the one in memory, and every internal node is the merge of
the two least nodes live when it was made. -/

namespace Sys2Proof.Machine

/-! ## The order of the keys -/

theorem before_asymm {A B : NodeRec} (h : before A B = true) : before B A = false := by
  rw [before_iff] at h
  rw [← Bool.not_eq_true, before_iff]
  omega

theorem minSym_toNat (a b : Sym) : (minSym a b).toNat = min a.toNat b.toNat := by
  simp only [minSym, BitVec.ult, decide_eq_true_eq]
  split <;> omega

/-- Two members of a queue with pairwise distinct members are distinct, or the same. -/
theorem distinct_of_mem {q : List Live} (hd : q.Pairwise Distinct) {x y : Live} (hx : x ∈ q) (hy : y ∈ q)
    (hne : x ≠ y) : Distinct x y :=
  haveI : Std.Symm Distinct := ⟨fun _ _ => Distinct.symm⟩
  hd.forall hx hy hne

/-! ## The live nodes of a memory -/

/-- Which nodes are live when node `i` is made depends on the records below `i`. -/
theorem LiveAt.congr {m m' : Memory NodeRec} {L i j : Nat} (h : ∀ k < i, nodeRead m k = nodeRead m' k)
    (hj : LiveAt m L i j) : LiveAt m' L i j :=
  ⟨hj.1, fun k hL hk => h k hk ▸ hj.2 k hL hk⟩

/-- Making node `i` takes its children out of the live nodes and adds `i`. -/
theorem liveAt_succ {m : Memory NodeRec} {L i j : Nat} (hL : L ≤ i)
    (hfresh : ∀ k, L ≤ k → k ≤ i → (nodeRead m k).lc.toNat ≠ i ∧ (nodeRead m k).rc.toNat ≠ i) :
    LiveAt m L (i + 1) j ↔
      (LiveAt m L i j ∧ j ≠ (nodeRead m i).lc.toNat ∧ j ≠ (nodeRead m i).rc.toNat) ∨ j = i := by
  constructor
  · rintro ⟨hj, hno⟩
    by_cases e : j = i
    · exact .inr e
    · have ⟨hlc, hrc⟩ := hno i hL (Nat.lt_succ_self i)
      exact .inl ⟨⟨by omega, fun k hk hki => hno k hk (by omega)⟩, hlc.symm, hrc.symm⟩
  · rintro (⟨⟨hj, hno⟩, hlc, hrc⟩ | rfl)
    · refine ⟨by omega, fun k hk hki => ?_⟩
      obtain hki | rfl := Nat.lt_succ_iff_lt_or_eq.1 hki
      · exact hno k hk hki
      · exact ⟨hlc.symm, hrc.symm⟩
    · exact ⟨Nat.lt_succ_self j, fun k hk hki => hfresh k hk (Nat.le_of_lt_succ hki)⟩

/-- A node is no child of itself and of no earlier node (R131). -/
theorem Grown.child_ne {L i k : Nat} {b : Building (List Live)} (h : Grown L b) (hL : L ≤ k) (hki : k ≤ i)
    (hi : i < b.n) : (nodeRead b.node k).lc.toNat ≠ i ∧ (nodeRead b.node k).rc.toNat ≠ i := by
  obtain ⟨-, hlc, hrc⟩ := h.internal k hL (hki.trans_lt hi)
  omega

/-- Node `i` is the merge of the nodes `a` and `b`, the least and the next least of those live when it is made
(R125, R126). -/
structure Merges (m : Memory NodeRec) (L i a b : Nat) : Prop where
  left : (nodeRead m i).lc.toNat = a
  right : (nodeRead m i).rc.toNat = b
  internal : (nodeRead m i).lf = false
  leftLive : LiveAt m L i a
  rightLive : LiveAt m L i b
  ne : a ≠ b
  least : ∀ j, LiveAt m L i j → j ≠ a → before (nodeRead m a) (nodeRead m j) = true
  next : ∀ j, LiveAt m L i j → j ≠ a → j ≠ b → before (nodeRead m b) (nodeRead m j) = true
  code : (nodeRead m i).cc.toNat = min (nodeRead m a).cc.toNat (nodeRead m b).cc.toNat
  sum : (nodeRead m i).fq.toNat = (nodeRead m a).fq.toNat + (nodeRead m b).fq.toNat

/-- Whether node `i` is such a merge depends on the records up to `i`. -/
theorem Merges.congr {m m' : Memory NodeRec} {L i a b : Nat} (h : ∀ k ≤ i, nodeRead m k = nodeRead m' k)
    (hm : Merges m L i a b) : Merges m' L i a b := by
  have hlt (k) (hk : k < i) : nodeRead m' k = nodeRead m k := (h k hk.le).symm
  have back {j : Nat} : LiveAt m' L i j → LiveAt m L i j := LiveAt.congr hlt
  have hi := (h i le_rfl).symm
  have ha := hlt a hm.leftLive.1
  have hb := hlt b hm.rightLive.1
  exact
    { left := hi ▸ hm.left
      right := hi ▸ hm.right
      internal := hi ▸ hm.internal
      leftLive := hm.leftLive.congr fun k hk => h k hk.le
      rightLive := hm.rightLive.congr fun k hk => h k hk.le
      ne := hm.ne
      least := fun j hj hja => by
        rw [ha, hlt j hj.1]
        exact hm.least j (back hj) hja
      next := fun j hj hja hjb => by
        rw [hb, hlt j hj.1]
        exact hm.next j (back hj) hja hjb
      code := by rw [hi, ha, hb]; exact hm.code
      sum := by rw [hi, ha, hb]; exact hm.sum }

/-- The nodes live when node `i` is made have pairwise different character codes (R122). -/
def LiveApart (m : Memory NodeRec) (L i : Nat) : Prop :=
  ∀ j k, j ≠ k → LiveAt m L i j → LiveAt m L i k → (nodeRead m j).cc ≠ (nodeRead m k).cc

theorem LiveApart.congr {m m' : Memory NodeRec} {L i : Nat} (h : ∀ k < i, nodeRead m k = nodeRead m' k)
    (hm : LiveApart m L i) : LiveApart m' L i := by
  have back {j : Nat} : LiveAt m' L i j → LiveAt m L i j := LiveAt.congr fun k hk => (h k hk).symm
  intro j k hne hj hk
  rw [← h j hj.1, ← h k hk.1]
  exact hm j k hne (back hj) (back hk)

/-! ## The loop invariant -/

/-- The sum of the 256 counts (R132 item 5). -/
def tableSum (ft : Memory Count) : Nat := ((List.range NSYM).map fun c => (ftRead ft c).toNat).sum

/-- A node's frequency never overflows (R137). -/
theorem tableSum_lt (ft : Memory Count) : tableSum ft < 2 ^ 40 := by
  have hle : tableSum ft ≤ ((List.range NSYM).map fun c => (ftRead ft c).toNat).length • (2 ^ 32 - 1) :=
    List.sum_le_card_nsmul _ _ fun v hv => by
      obtain ⟨c, -, rfl⟩ := List.mem_map.1 hv
      exact Nat.le_pred_of_lt (ftRead ft c).isLt
  rw [List.length_map, List.length_range, smul_eq_mul] at hle
  exact hle.trans_lt (by decide)

/-- The sum of the frequencies of a queue. -/
def queueSum (q : List Live) : Nat := (q.map fun x => x.2.fq.toNat).sum

@[simp] theorem queueSum_cons (x : Live) (q : List Live) : queueSum (x :: q) = x.2.fq.toNat + queueSum q := by
  simp [queueSum]

theorem queueSum_perm {q q' : List Live} (h : q.Perm q') : queueSum q = queueSum q' :=
  (h.map fun x : Live => x.2.fq.toNat).sum_eq

/-- What holds of the records and the queue while the nodes of the table `ft` are merged. -/
structure Traced (ft : Memory Count) (b : Building (List Live)) : Prop where
  grown : Grown (leafCount ft) b
  records : ∀ x ∈ b.pq, nodeRead b.node x.1 = x.2
  live : ∀ j, LiveAt b.node (leafCount ft) b.n j ↔ ∃ x ∈ b.pq, x.1 = j
  leafRecs : ∀ k c, (usedCodes ft)[k]? = some c → nodeRead b.node k = leafRec c (ftRead ft c)
  total : queueSum b.pq = tableSum ft
  firstCode : ∀ c, (usedCodes ft).head? = some c → (∃ x ∈ b.pq, x.2.cc.toNat = c) ∧ ∀ x ∈ b.pq, c ≤ x.2.cc.toNat
  merges : ∀ i, leafCount ft ≤ i → i < b.n → ∃ x y, Merges b.node (leafCount ft) i x y
  apartBefore : ∀ i, leafCount ft ≤ i → i < b.n → LiveApart b.node (leafCount ft) i

/-- The nodes live now have different codes, since the queue holds them. -/
theorem Traced.liveApart {ft : Memory Count} {b : Building (List Live)} (h : Traced ft b) :
    LiveApart b.node (leafCount ft) b.n := by
  intro j k hne hj hk
  obtain ⟨x, hx, rfl⟩ := (h.live j).1 hj
  obtain ⟨y, hy, rfl⟩ := (h.live k).1 hk
  rw [h.records x hx, h.records y hy]
  exact (distinct_of_mem h.grown.distinct hx hy fun e => hne (congrArg Prod.fst e)).2

/-- The construction after a pass that takes `x` and `y` out of the queue and leaves `rest` (R126). -/
abbrev merged (b : Building (List Live)) (x y : Live) (rest : List Live) : Building (List Live) :=
  addNode scanQueue b rest (mergeRec x y)

section
/-! One pass of the merge loop, which takes `x` and `y` and leaves `rest`. -/

variable {ft : Memory Count} {b : Building (List Live)} {x y : Live} {rest : List Live}

theorem mergeRec_lc_toNat (h : x.1 < NNODE) : (mergeRec x y).lc.toNat = x.1 :=
  (BitVec.toNat_ofNat x.1 9).trans (Nat.mod_eq_of_lt (h.trans (by decide)))

theorem mergeRec_rc_toNat (h : y.1 < NNODE) : (mergeRec x y).rc.toNat = y.1 :=
  (BitVec.toNat_ofNat y.1 9).trans (Nat.mod_eq_of_lt (h.trans (by decide)))

theorem mergeRec_cc_toNat : (mergeRec x y).cc.toNat = min x.2.cc.toNat y.2.cc.toNat := minSym_toNat _ _

theorem mergeRec_fq_toNat (h : x.2.fq.toNat + y.2.fq.toNat < 2 ^ 40) :
    (mergeRec x y).fq.toNat = x.2.fq.toNat + y.2.fq.toNat :=
  (BitVec.toNat_add _ _).trans (Nat.mod_eq_of_lt h)

theorem nodeRead_addNode_same {r : NodeRec} : nodeRead (addNode scanQueue b rest r).node b.n = r := by
  rw [nodeRead_addNode, if_pos rfl]

theorem nodeRead_addNode_lt {r : NodeRec} {i : Nat} (h : i < b.n) :
    nodeRead (addNode scanQueue b rest r).node i = nodeRead b.node i := by
  rw [nodeRead_addNode, if_neg h.ne]

/-- The queue never holds a node beyond the node memory (R133). -/
theorem Traced.n_le (h : Traced ft b) (hq : 0 < b.pq.length) : b.n ≤ NNODE := by
  have htotal := h.grown.total
  have hle := leafCount_le ft
  simp only [NNODE, NSYM] at *
  omega

variable (h : Traced ft b) (hp : b.pq.Perm (x :: y :: rest))
include h hp

theorem Traced.fq_sum_lt : x.2.fq.toNat + y.2.fq.toNat < 2 ^ 40 := by
  have hsum := (queueSum_perm hp).symm.trans h.total
  have hlt := tableSum_lt ft
  rw [queueSum_cons, queueSum_cons] at hsum
  omega

/-- The nodes of the queue are live when the pass makes its node. -/
theorem Traced.liveAt_merged {j : Nat} :
    LiveAt (merged b x y rest).node (leafCount ft) b.n j ↔ ∃ z ∈ x :: y :: rest, z.1 = j := by
  simp only [← hp.mem_iff, ← h.live j]
  exact ⟨LiveAt.congr fun k hk => nodeRead_addNode_lt hk, LiveAt.congr fun k hk => (nodeRead_addNode_lt hk).symm⟩

/-- The pass leaves their records. -/
theorem Traced.nodeRead_merged {z : Live} (hz : z ∈ x :: y :: rest) :
    nodeRead (merged b x y rest).node z.1 = z.2 := by
  have hz := hp.mem_iff.2 hz
  exact (nodeRead_addNode_lt (h.grown.indices z hz)).trans (h.records z hz)

/-- The pass makes the merge of the two least live nodes. -/
theorem Traced.merges_new (hxy : before x.2 y.2 = true) (hy : ∀ z ∈ rest, before y.2 z.2 = true) :
    Merges (merged b x y rest).node (leafCount ft) b.n x.1 y.1 := by
  have live {j : Nat} := h.liveAt_merged hp (j := j)
  have old {z : Live} := h.nodeRead_merged hp (z := z)
  have index {z : Live} (hz : z ∈ x :: y :: rest) : z.1 < NNODE := by
    have hz := hp.mem_iff.2 hz
    exact (h.grown.indices z hz).trans_le (h.n_le (List.length_pos_of_mem hz))
  have hx' : x ∈ x :: y :: rest := by simp
  have hy' : y ∈ x :: y :: rest := by simp
  refine
    { left := nodeRead_addNode_same ▸ mergeRec_lc_toNat (index hx')
      right := nodeRead_addNode_same ▸ mergeRec_rc_toNat (index hy')
      internal := by rw [nodeRead_addNode_same]; rfl
      leftLive := live.2 ⟨x, hx', rfl⟩
      rightLive := live.2 ⟨y, hy', rfl⟩
      ne := ((List.pairwise_cons.1 (hp.pairwise h.grown.distinct Distinct.symm)).1 y (by simp)).1
      least := fun j hj hja => ?least
      next := fun j hj hja hjb => ?next
      code := by rw [nodeRead_addNode_same, old hx', old hy']; exact mergeRec_cc_toNat
      sum := by rw [nodeRead_addNode_same, old hx', old hy']; exact mergeRec_fq_toNat (h.fq_sum_lt hp) }
  all_goals
    obtain ⟨z, hz, rfl⟩ := live.1 hj
    obtain rfl | rfl | hzr : z = x ∨ z = y ∨ z ∈ rest := by simpa using hz
  case least.inl => exact absurd rfl hja
  case least.inr.inl => rw [old hx', old hy']; exact hxy
  case least.inr.inr => rw [old hx', old hz]; exact before_trans hxy (hy z hzr)
  case next.inl => exact absurd rfl hja
  case next.inr.inl => exact absurd rfl hjb
  case next.inr.inr => rw [old hy', old hz]; exact hy z hzr

/-- After the pass the live nodes are again the queue. -/
theorem Traced.live_new (hm : Merges (merged b x y rest).node (leafCount ft) b.n x.1 y.1)
    (hg : Grown (leafCount ft) (merged b x y rest)) (j : Nat) :
    LiveAt (merged b x y rest).node (leafCount ft) (b.n + 1) j ↔ ∃ z ∈ (merged b x y rest).pq, z.1 = j := by
  obtain ⟨hx, hd⟩ := List.pairwise_cons.1 (hp.pairwise h.grown.distinct Distinct.symm)
  obtain ⟨hy, -⟩ := List.pairwise_cons.1 hd
  rw [liveAt_succ h.grown.leavesFirst fun k hLk hk => hg.child_ne hLk hk (Nat.lt_succ_self b.n), hm.left, hm.right,
    h.liveAt_merged hp, addNode_pq]
  constructor
  · rintro (⟨⟨z, hz, rfl⟩, hzx, hzy⟩ | rfl)
    · obtain rfl | rfl | hz : z = x ∨ z = y ∨ z ∈ rest := by simpa using hz
      · exact absurd rfl hzx
      · exact absurd rfl hzy
      · exact ⟨z, by simp [hz], rfl⟩
    · exact ⟨_, List.mem_cons_self, rfl⟩
  · rintro ⟨z, hz, rfl⟩
    obtain rfl | hz := List.mem_cons.1 hz
    · exact .inr rfl
    · exact .inl ⟨⟨z, by simp [hz], rfl⟩, (hx z (by simp [hz])).1.symm, (hy z hz).1.symm⟩

/-- The least character code stays in the queue: it is the code of a node left or of the one made. -/
theorem Traced.firstCode_new (c : Nat) (hc : (usedCodes ft).head? = some c) :
    (∃ z ∈ (merged b x y rest).pq, z.2.cc.toNat = c) ∧
      ∀ z ∈ (merged b x y rest).pq, c ≤ z.2.cc.toNat := by
  obtain ⟨⟨w, hw, hwc⟩, hle⟩ := h.firstCode c hc
  simp only [hp.mem_iff] at hw hle
  have hx := hle x (by simp)
  have hy := hle y (by simp)
  rw [addNode_pq]
  refine ⟨?_, fun z hz => ?_⟩
  · obtain e | hw : (w = x ∨ w = y) ∨ w ∈ rest := by simpa [or_assoc] using hw
    · refine ⟨_, List.mem_cons_self, mergeRec_cc_toNat.trans ?_⟩
      obtain rfl | rfl := e <;> omega
    · exact ⟨w, List.mem_cons_of_mem _ hw, hwc⟩
  · obtain rfl | hz := List.mem_cons.1 hz
    · exact (le_min hx hy).trans_eq mergeRec_cc_toNat.symm
    · exact hle z (by simp [hz])

/-- One pass keeps the loop invariant. -/
theorem Traced.merge (hxy : before x.2 y.2 = true) (hy : ∀ z ∈ rest, before y.2 z.2 = true) :
    Traced ft (merged b x y rest) := by
  have hg := h.grown.merge (leafCount_le ft) hp
  have hm := h.merges_new hp hxy hy
  have old {k : Nat} (hk : k < b.n) := (nodeRead_addNode_lt (rest := rest) (r := mergeRec x y) hk).symm
  exact
    { grown := hg
      records := fun z hz => by
        obtain rfl | hz := List.mem_cons.1 hz
        · exact nodeRead_addNode_same
        · have hz := hp.mem_iff.2 (List.mem_cons_of_mem x (List.mem_cons_of_mem y hz))
          exact (old (h.grown.indices z hz)).symm.trans (h.records z hz)
      live := h.live_new hp hm hg
      leafRecs := fun k c hk => by
        have hkL : k < leafCount ft := (List.getElem?_eq_some_iff.1 hk).1
        exact (old (hkL.trans_le h.grown.leavesFirst)).symm.trans (h.leafRecs k c hk)
      total := by
        rw [← h.total, queueSum_perm hp, addNode_pq, queueSum_cons, queueSum_cons, queueSum_cons,
          mergeRec_fq_toNat (h.fq_sum_lt hp), Nat.add_assoc]
      firstCode := h.firstCode_new hp
      merges := fun i hL hi => by
        obtain hi | rfl := Nat.lt_succ_iff_lt_or_eq.1 hi
        · obtain ⟨a, c, hac⟩ := h.merges i hL hi
          exact ⟨a, c, hac.congr fun k hk => old (hk.trans_lt hi)⟩
        · exact ⟨x.1, y.1, hm⟩
      apartBefore := fun i hL hi => by
        obtain hi | rfl := Nat.lt_succ_iff_lt_or_eq.1 hi
        · exact (h.apartBefore i hL hi).congr fun k hk => old (hk.trans hi)
        · exact h.liveApart.congr fun k hk => old hk }

end

/-- What every pass keeps, the merge loop keeps. -/
theorem mergeLoop_keeps {P : Building (List Live) → Prop} (distinct : ∀ {b}, P b → b.pq.Pairwise Distinct)
    (pass : ∀ {b x y rest}, P b → b.pq.Perm (x :: y :: rest) → before x.2 y.2 = true →
      (∀ z ∈ rest, before y.2 z.2 = true) → P (merged b x y rest)) :
    ∀ (k : Nat) {b : Building (List Live)}, P b → P (mergeLoop scanQueue k b)
  | 0, _, h => h
  | k + 1, b, h => by
    obtain ⟨-, e⟩ | ⟨x, y, rest, hp, hxy, hy, e⟩ := mergePass_cases (distinct h)
    · simpa [Machine.mergeLoop, e] using h
    · simpa [Machine.mergeLoop, e] using mergeLoop_keeps distinct pass k (pass h hp hxy hy)

/-! ## The leaves -/

/-- What the leaf loop has made after the codes below `m` (R123). -/
structure LeavesMade (ft : Memory Count) (m : Nat) (b : Building (List Live)) : Prop where
  count : b.n = (usedBelow ft m).length
  codes : b.pq.map (fun x => x.2.cc.toNat) = (usedBelow ft m).reverse
  indices : ∀ j, j < b.n ↔ ∃ x ∈ b.pq, x.1 = j
  records : ∀ x ∈ b.pq, nodeRead b.node x.1 = x.2
  leafRecs : ∀ k c, (usedBelow ft m)[k]? = some c → nodeRead b.node k = leafRec c (ftRead ft c)
  total : queueSum b.pq = ((List.range m).map fun c => (ftRead ft c).toNat).sum

theorem leafRec_cc_toNat {c : Nat} (h : c < NSYM) (v : Count) : (leafRec c v).cc.toNat = c :=
  (BitVec.toNat_ofNat c 8).trans (Nat.mod_eq_of_lt h)

theorem leafRec_fq_toNat (c : Nat) (v : Count) : (leafRec c v).fq.toNat = v.toNat :=
  BitVec.toNat_setWidth_of_le (by decide)

/-- The pass for an unused code makes nothing. -/
theorem LeavesMade.skip {ft : Memory Count} {m : Nat} {b : Building (List Live)} (h : LeavesMade ft m b)
    (hm : ftRead ft m = 0) : LeavesMade ft (m + 1) b := by
  have hu : usedBelow ft (m + 1) = usedBelow ft m := by rw [usedBelow_succ, if_pos hm]
  exact
    { count := hu ▸ h.count
      codes := hu ▸ h.codes
      indices := h.indices
      records := h.records
      leafRecs := hu ▸ h.leafRecs
      total := by simpa [List.range_succ, hm] using h.total }

/-- The pass for a used code makes its leaf, which is live. -/
theorem LeavesMade.leaf {ft : Memory Count} {m : Nat} {b : Building (List Live)} (h : LeavesMade ft m b)
    (hlt : m < NSYM) (hm : ftRead ft m ≠ 0) :
    LeavesMade ft (m + 1) (addNode scanQueue b b.pq (leafRec m (ftRead ft m))) := by
  have hu : usedBelow ft (m + 1) = usedBelow ft m ++ [m] := by rw [usedBelow_succ, if_neg hm]
  exact
    { count := by simp [hu, h.count]
      codes := by simp [hu, h.codes, leafRec_cc_toNat hlt]
      indices := fun j => by
        rw [addNode_n, Nat.lt_succ_iff_lt_or_eq, h.indices j]
        simp [or_comm, eq_comm]
      records := fun x hx => by
        obtain rfl | hx := List.mem_cons.1 hx
        · exact nodeRead_addNode_same
        · exact (nodeRead_addNode_lt ((h.indices x.1).2 ⟨x, hx, rfl⟩)).trans (h.records x hx)
      leafRecs := fun k c hk => by
        rw [hu, List.getElem?_append, ← h.count] at hk
        split at hk
        · next hlt => exact (nodeRead_addNode_lt hlt).trans (h.leafRecs k c hk)
        · next hge =>
          obtain ⟨hk, rfl⟩ : k - b.n = 0 ∧ m = c := by simpa [List.getElem?_singleton] using hk
          obtain rfl : k = b.n := by omega
          exact nodeRead_addNode_same
      total := by simp [List.range_succ, h.total, leafRec_fq_toNat, Nat.add_comm] }

theorem leavesBelow_made (ft : Memory Count) {m : Nat} (hm : m ≤ NSYM) : LeavesMade ft m (leavesBelow ft m) := by
  induction m with
  | zero => exact ⟨rfl, rfl, by simp [leavesBelow], nofun, nofun, rfl⟩
  | succ m ih =>
    rw [leavesBelow_succ, addLeaf]
    split
    · next h => exact (ih (Nat.le_of_succ_le hm)).skip h
    · next h => exact (ih (Nat.le_of_succ_le hm)).leaf hm h

theorem usedBelow_sorted (ft : Memory Count) (m : Nat) : (usedBelow ft m).Pairwise (· < ·) :=
  List.pairwise_lt_range.filter _

/-- With its leaves made and nothing merged, the construction is at the start of the merge loop. -/
theorem makeLeaves_traced (ft : Memory Count) : Traced ft (makeLeaves scanQueue ft) := by
  obtain ⟨hn, hg⟩ := makeLeaves_grown ft
  have h := leavesBelow_made ft (le_refl NSYM)
  rw [← makeLeaves_eq] at h
  have mem_codes {c : Nat} : (∃ x ∈ (makeLeaves scanQueue ft).pq, x.2.cc.toNat = c) ↔ c ∈ usedCodes ft := by
    rw [usedCodes_eq, ← List.mem_reverse, ← h.codes, List.mem_map]
  exact
    { grown := hg
      records := h.records
      live := fun j => by
        rw [← h.indices]
        exact ⟨fun hj => hj.1, fun hj => ⟨hj, fun k hk hk' => by omega⟩⟩
      leafRecs := h.leafRecs
      total := h.total
      firstCode := fun c hc => by
        obtain ⟨cs, hcs⟩ : ∃ cs, usedCodes ft = c :: cs := by simpa [List.head?_eq_some_iff] using hc
        refine ⟨mem_codes.2 (by simp [hcs]), fun x hx => ?_⟩
        have hx := mem_codes.1 ⟨x, hx, rfl⟩
        have hsorted := usedBelow_sorted ft NSYM
        rw [← usedCodes_eq, hcs] at hsorted
        rw [hcs] at hx
        obtain e | hx := List.mem_cons.1 hx
        · exact e.ge
        · exact ((List.pairwise_cons.1 hsorted).1 _ hx).le
      merges := fun i hL hi => by omega
      apartBefore := fun i hL hi => by omega }

/-! ## The finished construction -/

theorem buildTree_traced (ft : Memory Count) : Traced ft (buildTree ft) :=
  mergeLoop_keeps (fun h => h.grown.distinct) (fun h => h.merge) _ (makeLeaves_traced ft)

end Sys2Proof.Machine
end

section
/-! PROOFS. What `BUILD` leaves, read off the finished construction: the merges, the keys of the live nodes and the
leaves (R122, R123, R125, R126). -/

namespace Sys2Proof.Machine

/-- `BUILD` always completes, with the tree of the table. -/
theorem exec_build_next {s t : State} (h : exec .build s = .next t) :
    t = (s.withTree (buildTree s.ft)).succeeded (buildData (s.withTree (buildTree s.ft))) := execBuild_next h

theorem built_node {s t : State} (h : exec .build s = .next t) : t.node = (buildTree s.ft).node := by
  rw [exec_build_next h]; rfl

theorem built_ncount {s t : State} (h : exec .build s = .next t) : t.ncount.toNat = (buildTree s.ft).n := by
  rw [exec_build_next h]; exact ncountOf_toNat (buildTree_n_le s.ft)

theorem built_root {s t : State} (h : exec .build s = .next t) : t.root.toNat = (buildTree s.ft).n - 1 := by
  rw [exec_build_next h]; exact rootOf_toNat (buildTree_n_le s.ft)

/-- Every internal node of a built tree is a merge. -/
theorem built_merges {s t : State} (h : exec .build s = .next t) {i : Nat} (hL : leafCount s.ft ≤ i)
    (hi : i < t.ncount.toNat) : ∃ a b, Merges t.node (leafCount s.ft) i a b := by
  rw [built_ncount h] at hi
  rw [built_node h]
  exact (buildTree_traced s.ft).merges i hL hi

/-- Settles O23. The loop invariant says of every internal node that it is the merge of the two least live nodes. -/
theorem eachPassMergesTheTwoLeastNodes : Obligations.EachPassMergesTheTwoLeastNodes := by
  intro s t h
  refine ⟨fun hL => ?_, fun i hL hi => ?_⟩
  · have hn := buildTree_n s.ft
    rw [built_ncount h]
    omega
  · obtain ⟨_, _, hm⟩ := built_merges h hL hi
    obtain ⟨rfl, rfl⟩ := And.intro hm.left hm.right
    exact ⟨hm.leftLive, hm.rightLive, hm.ne, hm.least, hm.next, hm.internal, hm.code, hm.sum⟩

/-- The nodes live at any time of the construction, and at its end, have different codes. -/
theorem buildTree_liveApart (ft : Memory Count) {i : Nat} (hL : leafCount ft ≤ i) (hi : i ≤ (buildTree ft).n) :
    LiveApart (buildTree ft).node (leafCount ft) i := by
  have h := buildTree_traced ft
  obtain hi | rfl := hi.lt_or_eq
  · exact h.apartBefore i hL hi
  · exact h.liveApart

/-- Of two nodes with different codes exactly one comes before the other (R122). -/
theorem before_iff_not_before {A B : NodeRec} (h : A.cc ≠ B.cc) : before A B = true ↔ before B A = false :=
  ⟨before_asymm, fun hBA => (before_total h).resolve_right (by simp [hBA])⟩

/-- Settles O24. Different live nodes have different codes, so their keys are ordered one way. -/
theorem liveNodesHaveDistinctKeys : Obligations.LiveNodesHaveDistinctKeys := by
  intro s t h i hL hi j k hne hj hk
  rw [built_ncount h] at hi
  rw [built_node h] at hj hk ⊢
  have hcc := buildTree_liveApart s.ft hL hi j k hne hj hk
  exact ⟨hcc, before_iff_not_before hcc⟩

/-- Settles O22. The leaf loop writes the leaves in the order of the used codes, and every later node is internal. -/
theorem leavesAreMadeInCodeOrder : Obligations.LeavesAreMadeInCodeOrder := by
  intro s t h
  refine ⟨fun k c hk => ?_, fun i hi hleaf => ?_⟩
  · rw [built_node h]
    exact (buildTree_traced s.ft).leafRecs k c hk
  · by_contra hL
    obtain ⟨a, b, hm⟩ := built_merges h (Nat.le_of_not_lt hL) hi
    exact absurd hm.internal (by simp [hleaf])

end Sys2Proof.Machine
end

section
/-! PROOFS. The structure of the built tree (R132): an induction over the nodes in the order they were made, and the
child fields as the nodes that are no longer live. -/

namespace Sys2Proof.Machine

/-! ## Induction over the nodes -/

/-- What holds of the leaves and of a merge of two nodes it holds of, holds of every node. -/
theorem buildTree_node_induction {ft : Memory Count} {P : Nat → Prop}
    (leaf : ∀ i c, (usedCodes ft)[i]? = some c → nodeRead (buildTree ft).node i = leafRec c (ftRead ft c) → P i)
    (merge : ∀ i a b, Merges (buildTree ft).node (leafCount ft) i a b → P a → P b → P i) :
    ∀ i, i < (buildTree ft).n → P i := by
  have h := buildTree_traced ft
  intro i
  induction i using Nat.strong_induction_on with
  | _ i ih =>
    intro hi
    by_cases hL : leafCount ft ≤ i
    · obtain ⟨a, b, hm⟩ := h.merges i hL hi
      have ha := hm.leftLive.1
      have hb := hm.rightLive.1
      exact merge i a b hm (ih a ha (ha.trans hi)) (ih b hb (hb.trans hi))
    · have hc := List.getElem?_eq_getElem (l := usedCodes ft) (Nat.lt_of_not_le hL)
      exact leaf i _ hc (h.leafRecs i _ hc)

theorem mem_usedCodes {ft : Memory Count} {c : Nat} : c ∈ usedCodes ft ↔ c < NSYM ∧ ftRead ft c ≠ 0 := by
  simp [usedCodes]

/-! ## Frequencies and codes of the leaves below a node (items 4 and 5) -/

/-- The sum of the counts of some character codes. -/
def countSum (ft : Memory Count) (cs : List Nat) : Nat := (cs.map fun c => (ftRead ft c).toNat).sum

theorem countSum_append (ft : Memory Count) (cs ds : List Nat) :
    countSum ft (cs ++ ds) = countSum ft cs + countSum ft ds := by simp [countSum]

/-- A node's frequency and code are the sum of the counts and the least of the codes `cs` of the leaves below it. -/
structure Summarises (ft : Memory Count) (r : NodeRec) (cs : List Nat) : Prop where
  sum : r.fq.toNat = countSum ft cs
  mem : r.cc.toNat ∈ cs
  least : ∀ c ∈ cs, r.cc.toNat ≤ c

theorem Summarises.leaf {ft : Memory Count} {c : Nat} (h : c < NSYM) :
    Summarises ft (leafRec c (ftRead ft c)) [(leafRec c (ftRead ft c)).cc.toNat] where
  sum := by simp [countSum, leafRec_cc_toNat h, leafRec_fq_toNat]
  mem := List.mem_singleton_self _
  least d hd := (List.mem_singleton.1 hd).ge

theorem Summarises.merge {ft : Memory Count} {m : Memory NodeRec} {L i a b : Nat} {cs ds : List Nat}
    (h : Merges m L i a b) (ha : Summarises ft (nodeRead m a) cs) (hb : Summarises ft (nodeRead m b) ds) :
    Summarises ft (nodeRead m i) (cs ++ ds) where
  sum := by rw [h.sum, ha.sum, hb.sum, countSum_append]
  mem := by
    rw [h.code, List.mem_append]
    obtain e | e := min_choice (nodeRead m a).cc.toNat (nodeRead m b).cc.toNat
    · exact .inl (by rw [e]; exact ha.mem)
    · exact .inr (by rw [e]; exact hb.mem)
  least c hc := by
    rw [h.code]
    obtain hc | hc := List.mem_append.1 hc
    · exact (min_le_left _ _).trans (ha.least c hc)
    · exact (min_le_right _ _).trans (hb.least c hc)

/-- Looking down from node `i`, `i + 1` levels are enough. -/
theorem buildTree_summarises (ft : Memory Count) :
    ∀ i, i < (buildTree ft).n → ∀ d, i < d →
      Summarises ft (nodeRead (buildTree ft).node i) (codesBelow (buildTree ft).node d i) := by
  refine buildTree_node_induction (fun i c hc hrec d hd => ?_) fun i a b hm iha ihb d hd => ?_
  all_goals obtain ⟨d, rfl⟩ := Nat.exists_eq_succ_of_ne_zero (Nat.ne_zero_of_lt hd)
  · have hlt := (mem_usedCodes.1 (List.mem_of_getElem? hc)).1
    simpa [codesBelow, hrec, leafRec] using Summarises.leaf hlt
  · have ha := hm.leftLive.1
    have hb := hm.rightLive.1
    simpa [codesBelow, hm.internal, hm.left, hm.right] using
      Summarises.merge hm (iha d (by omega)) (ihb d (by omega))

theorem buildTree_summarises_NNODE {ft : Memory Count} {i : Nat} (hi : i < (buildTree ft).n) :
    Summarises ft (nodeRead (buildTree ft).node i) (codesBelow (buildTree ft).node NNODE i) :=
  buildTree_summarises ft i hi NNODE (hi.trans_le (buildTree_n_le ft))

/-- No node has frequency 0 (item 7). -/
theorem buildTree_positive (ft : Memory Count) :
    ∀ i, i < (buildTree ft).n → 1 ≤ (nodeRead (buildTree ft).node i).fq.toNat := by
  refine buildTree_node_induction (fun i c hc hrec => ?_) fun i a b hm ha hb => ?_
  · rw [hrec, leafRec_fq_toNat]
    exact Nat.pos_of_ne_zero fun e => (mem_usedCodes.1 (List.mem_of_getElem? hc)).2 (BitVec.eq_of_toNat_eq e)
  · rw [hm.sum]
    omega

/-! ## Each node has one parent, but for the root (item 3) -/

theorem liveAt_iff_not_child {m : Memory NodeRec} {L i j : Nat} : LiveAt m L i j ↔ j < i ∧ j ∉ childIndices m L i := by
  simp only [LiveAt, childIndices, List.mem_flatMap, List.mem_filter, List.mem_range, decide_eq_true_eq, List.mem_cons,
    List.not_mem_nil, or_false, not_exists, not_and, not_or, and_imp]
  exact and_congr_right fun _ => forall_congr' fun k =>
    ⟨fun h hk hL => (h hL hk).imp Ne.symm Ne.symm, fun h hL hk => (h hk hL).imp Ne.symm Ne.symm⟩

theorem childIndices_succ {m : Memory NodeRec} {L i : Nat} (h : L ≤ i) :
    childIndices m L (i + 1) = childIndices m L i ++ [(nodeRead m i).lc.toNat, (nodeRead m i).rc.toNat] := by
  simp [childIndices, List.range_succ, h]

theorem childIndices_leaves (m : Memory NodeRec) (L : Nat) : childIndices m L L = [] := by
  simp [childIndices]

/-- A merge takes as children two nodes that no earlier one has taken, so none is taken twice. -/
theorem nodup_childIndices {m : Memory NodeRec} {L n : Nat} (hn : L ≤ n)
    (h : ∀ i, L ≤ i → i < n → ∃ a b, Merges m L i a b) : (childIndices m L n).Nodup := by
  induction n, hn using Nat.le_induction with
  | base => rw [childIndices_leaves]; exact List.nodup_nil
  | succ i hL ih =>
    obtain ⟨a, b, hm⟩ := h i hL (Nat.lt_succ_self i)
    have ha := (liveAt_iff_not_child.1 hm.leftLive).2
    have hb := (liveAt_iff_not_child.1 hm.rightLive).2
    rw [childIndices_succ hL, hm.left, hm.right]
    refine (ih fun k hk hki => h k hk (Nat.lt_succ_of_lt hki)).append (by simpa using hm.ne) ?_
    simp [ha, hb]

/-! ## Frequencies rise in the order of creation (item 7) -/

/-- A node that comes before another has no greater frequency. -/
theorem fq_le_of_before {A B : NodeRec} (h : before A B = true) : A.fq.toNat ≤ B.fq.toNat := by
  rw [before_iff] at h
  omega

/-- A merge has at most the frequency of the next one, which takes this node or two that were left over. -/
theorem Merges.fq_le {m : Memory NodeRec} {L i a b a' b' : Nat} (h : Merges m L i a b)
    (h' : Merges m L (i + 1) a' b') (hL : L ≤ i)
    (hfresh : ∀ k, L ≤ k → k ≤ i → (nodeRead m k).lc.toNat ≠ i ∧ (nodeRead m k).rc.toNat ≠ i) :
    (nodeRead m i).fq.toNat ≤ (nodeRead m (i + 1)).fq.toNat := by
  have left (j) (hj : LiveAt m L (i + 1) j) : j = i ∨ (LiveAt m L i j ∧ j ≠ a ∧ j ≠ b) := by
    rw [liveAt_succ hL hfresh, h.left, h.right] at hj
    exact hj.symm
  rw [h'.sum]
  obtain rfl | ⟨ha, haa, hab⟩ := left a' h'.leftLive
  · exact Nat.le_add_right _ _
  obtain rfl | ⟨hb, hba, hbb⟩ := left b' h'.rightLive
  · exact Nat.le_add_left _ _
  · rw [h.sum]
    exact Nat.add_le_add (fq_le_of_before (h.least a' ha haa)) (fq_le_of_before (h.next b' hb hba hbb))

/-! ## The root -/

/-- A table with a leaf leaves one node live, the last one made. -/
theorem buildTree_pq {ft : Memory Count} (hL : 1 ≤ leafCount ft) :
    (buildTree ft).pq = [((buildTree ft).n - 1, nodeRead (buildTree ft).node ((buildTree ft).n - 1))] := by
  obtain ⟨hg, hle⟩ := buildTree_grown ft
  have h := buildTree_traced ft
  have hn := hg.leavesFirst
  have last : LiveAt (buildTree ft).node (leafCount ft) (buildTree ft).n ((buildTree ft).n - 1) :=
    ⟨by omega, fun k hk hkn => hg.child_ne hk (by omega) (by omega)⟩
  obtain ⟨x, hx, hxn⟩ := (h.live _).1 last
  have hrec := h.records x hx
  obtain ⟨y, hy⟩ := List.length_eq_one_iff.1 (hle.antisymm (List.length_pos_of_mem hx))
  obtain rfl : x = y := by simpa [hy] using hx
  rw [hy, ← hxn, hrec]

theorem live_at_end_iff {ft : Memory Count} (hL : 1 ≤ leafCount ft) {j : Nat} :
    LiveAt (buildTree ft).node (leafCount ft) (buildTree ft).n j ↔ j = (buildTree ft).n - 1 := by
  rw [(buildTree_traced ft).live j, buildTree_pq hL]
  simp [eq_comm]

theorem count_childIndices {ft : Memory Count} (hL : 1 ≤ leafCount ft) {j : Nat} (hj : j < (buildTree ft).n) :
    (childIndices (buildTree ft).node (leafCount ft) (buildTree ft).n).count j =
      if j = (buildTree ft).n - 1 then 0 else 1 := by
  have h := buildTree_traced ft
  have hmem : j = (buildTree ft).n - 1 ↔ j ∉ childIndices (buildTree ft).node (leafCount ft) (buildTree ft).n := by
    rw [← live_at_end_iff hL, liveAt_iff_not_child, and_iff_right hj]
  split
  · next e => exact List.count_eq_zero.2 (hmem.1 e)
  · next e =>
    exact List.count_eq_one_of_mem (nodup_childIndices h.grown.leavesFirst h.merges) (not_not.1 (hmem.not.1 e))

theorem buildTree_root_sum {ft : Memory Count} (hL : 1 ≤ leafCount ft) :
    (nodeRead (buildTree ft).node ((buildTree ft).n - 1)).fq.toNat = tableSum ft := by
  rw [← (buildTree_traced ft).total, buildTree_pq hL]
  simp [queueSum]

theorem buildTree_root_code {ft : Memory Count} (hL : 1 ≤ leafCount ft) :
    (usedCodes ft).head? = some (nodeRead (buildTree ft).node ((buildTree ft).n - 1)).cc.toNat := by
  have hhead := List.head?_eq_some_head (List.ne_nil_of_length_pos hL)
  obtain ⟨⟨x, hx, hxc⟩, -⟩ := (buildTree_traced ft).firstCode _ hhead
  rw [buildTree_pq hL, List.mem_singleton] at hx
  rw [hhead, ← hxc, hx]

/-- Settles O25. The items follow from the merges, by induction over the nodes or from which nodes are live. -/
theorem builtTreeHasItsStructure : Obligations.BuiltTreeHasItsStructure := by
  intro s t h hL
  have htr := buildTree_traced s.ft
  have hg := htr.grown
  have hn := buildTree_n s.ft
  have merges {i : Nat} := htr.merges i
  constructor <;> simp only [built_ncount h, built_node h, built_root h]
  case counts => exact hn
  case leaves =>
    refine fun i hi => ⟨fun hleaf => ?_, hg.leaves i⟩
    by_contra hLi
    exact absurd (hg.internal i (Nat.le_of_not_lt hLi) hi).1 (by simp [hleaf])
  case children =>
    intro i hLi hi
    obtain ⟨a, b, hm⟩ := merges hLi hi
    obtain ⟨-, hlc, hrc⟩ := hg.internal i hLi hi
    exact ⟨hlc, hrc, fun e => hm.ne (hm.left.symm.trans ((congrArg BitVec.toNat e).trans hm.right))⟩
  case oneParent => exact fun j hj hne => (count_childIndices hL hj).trans (if_neg hne)
  case rootFree => exact (count_childIndices hL (by omega)).trans (if_pos rfl)
  case sums => exact fun i hi => (buildTree_summarises_NNODE hi).sum
  case least => exact fun i hi => ⟨(buildTree_summarises_NNODE hi).mem, (buildTree_summarises_NNODE hi).least⟩
  case rootSum => exact buildTree_root_sum hL
  case rootLeast => exact buildTree_root_code hL
  case leftFirst =>
    intro i hLi hi
    obtain ⟨a, b, hm⟩ := merges hLi hi
    rw [hm.left, hm.right]
    exact hm.least b hm.rightLive hm.ne.symm
  case positive => exact buildTree_positive s.ft
  case rising =>
    intro i hLi hi
    obtain ⟨a, b, hm⟩ := merges hLi (by omega)
    obtain ⟨a', b', hm'⟩ := merges (i := i + 1) (by omega) hi
    exact hm.fq_le hm' hLi fun k hLk hk => hg.child_ne hLk hk (by omega)

end Sys2Proof.Machine
end

section
/-! PROOFS. Any structure that conforms to the queue of R124 builds the tree of the linear scan (R135): the two
constructions make the same nodes, and their queues hold the same live nodes, pass by pass. -/

namespace Sys2Proof.Machine

variable {Q : Type} {ops : QueueOps Q} {good : Q → Prop} {members : Q → List Live}

/-- The least live node is unique, so a conforming queue extracts it, whatever its form (R122, R124). -/
theorem QueueOps.Conforms.extract_of_least (hc : ops.Conforms good members) {q : Q} (hq : good q)
    (hd : (members q).Pairwise Distinct) {x : Live} {rest : List Live} (hp : (members q).Perm (x :: rest))
    (hx : ∀ y ∈ rest, before x.2 y.2 = true) :
    ∃ q', ops.extract q = some (x, q') ∧ good q' ∧ (members q').Perm rest := by
  have hne : members q ≠ [] := fun e => by simp [e] at hp
  obtain ⟨z, q', he, hq', hpz, hz⟩ := hc.extractLeast q hq hne hd
  have hzx := hpz.symm.trans hp
  obtain rfl : z = x := by
    obtain e | hzr := List.mem_cons.1 (hzx.mem_iff.1 List.mem_cons_self)
    · exact e
    obtain e | hxq := List.mem_cons.1 (hzx.mem_iff.2 List.mem_cons_self)
    · exact e.symm
    · exact absurd (before_asymm (hx z hzr)) (by simp [hz x hxq])
  exact ⟨q', he, hq', hzx.cons_inv⟩

theorem QueueOps.Conforms.extract_of_nil (hc : ops.Conforms good members) {q : Q} (hq : good q)
    (h : (members q).Perm []) : ops.extract q = none := hc.extractNone q hq h.eq_nil

/-- A construction has made the nodes that the scan has made, and its queue holds the same nodes in some order. -/
structure Agrees (good : Q → Prop) (members : Q → List Live) (b : Building Q) (b' : Building (List Live)) : Prop where
  node : b.node = b'.node
  n : b.n = b'.n
  isGood : good b.pq
  perm : (members b.pq).Perm b'.pq

theorem Agrees.addNode (hc : ops.Conforms good members) {b : Building Q} {b' : Building (List Live)}
    (h : Agrees good members b b') {q : Q} {q' : List Live} (hq : good q) (hp : (members q).Perm q') (r : NodeRec) :
    Agrees good members (addNode ops b q r) (addNode scanQueue b' q' r) where
  node := by simp [Machine.addNode, h.node, h.n]
  n := congrArg (· + 1) h.n
  isGood := hc.insertGood _ _ hq
  perm := by
    rw [addNode_pq, ← h.n]
    exact (hc.insertHolds _ _ hq).trans (hp.cons _)

theorem Agrees.addLeaf (hc : ops.Conforms good members) (ft : Memory Count) (c : Nat) {b : Building Q}
    {b' : Building (List Live)} (h : Agrees good members b b') :
    Agrees good members (addLeaf ops ft b c) (addLeaf scanQueue ft b' c) := by
  unfold Machine.addLeaf
  split
  · exact h
  · exact h.addNode hc h.isGood h.perm _

theorem makeLeaves_agrees (hc : ops.Conforms good members) (ft : Memory Count) :
    Agrees good members (makeLeaves ops ft) (makeLeaves scanQueue ft) :=
  List.foldl_rel (r := Agrees good members) ⟨rfl, rfl, hc.emptyGood, .of_eq hc.emptyHolds⟩
    fun c _ _ _ h => h.addLeaf hc ft c

/-- A pass finds too few nodes in both constructions, or merges the same two in both. -/
theorem Agrees.mergePass (hc : ops.Conforms good members) {b : Building Q} {b' : Building (List Live)}
    (h : Agrees good members b b') (hd : b'.pq.Pairwise Distinct) :
    (mergePass ops b = none ∧ mergePass scanQueue b' = none) ∨
    ∃ x y rest c, b'.pq.Perm (x :: y :: rest) ∧ mergePass ops b = some c ∧
      mergePass scanQueue b' = some (Machine.addNode scanQueue b' rest (mergeRec x y)) ∧
      Agrees good members c (Machine.addNode scanQueue b' rest (mergeRec x y)) := by
  have hdq := h.perm.symm.pairwise hd Distinct.symm
  obtain ⟨hle, e⟩ | ⟨x, y, rest, hp, hxy, hy, e⟩ := mergePass_cases hd
  · refine .inl ⟨?_, e⟩
    obtain hnil | ⟨x, hx⟩ : b'.pq = [] ∨ ∃ x, b'.pq = [x] := by
      simpa [Nat.le_one_iff_eq_zero_or_eq_one, List.length_eq_one_iff] using hle
    · simp [Machine.mergePass, hc.extract_of_nil h.isGood (hnil ▸ h.perm)]
    · obtain ⟨q, hq, hgood, hnil⟩ := hc.extract_of_least h.isGood hdq (hx ▸ h.perm) (by simp)
      simp [Machine.mergePass, hq, hc.extract_of_nil hgood hnil]
  · have hpq := h.perm.trans hp
    have hx (z) (hz : z ∈ y :: rest) : before x.2 z.2 = true := by
      obtain rfl | hz := List.mem_cons.1 hz
      · exact hxy
      · exact before_trans hxy (hy z hz)
    obtain ⟨q, hq, hgood, hq'⟩ := hc.extract_of_least h.isGood hdq hpq hx
    have hdr := (List.pairwise_cons.1 (hp.pairwise hd Distinct.symm)).2
    obtain ⟨q₂, hq₂, hgood₂, hrest⟩ :=
      hc.extract_of_least hgood (hq'.symm.pairwise hdr Distinct.symm) hq' hy
    exact .inr ⟨x, y, rest, _, hp, by simp [Machine.mergePass, hq, hq₂], e, h.addNode hc hgood₂ hrest _⟩

theorem Agrees.mergeLoop (hc : ops.Conforms good members) {L : Nat} (hL : L ≤ NSYM) :
    ∀ (k : Nat) {b : Building Q} {b' : Building (List Live)}, Grown L b' → Agrees good members b b' →
      Agrees good members (mergeLoop ops k b) (mergeLoop scanQueue k b')
  | 0, _, _, _, h => h
  | k + 1, b, b', hg, h => by
    obtain ⟨e, e'⟩ | ⟨x, y, rest, c, hp, e, e', hnext⟩ := h.mergePass hc hg.distinct
    · simpa [Machine.mergeLoop, e, e'] using h
    · simpa [Machine.mergeLoop, e, e'] using Agrees.mergeLoop hc hL k (hg.merge hL hp) hnext

theorem buildTreeWith_agrees (hc : ops.Conforms good members) (ft : Memory Count) :
    Agrees good members (buildTreeWith ops ft) (buildTree ft) := by
  have h := makeLeaves_agrees hc ft
  rw [buildTreeWith, h.n]
  exact h.mergeLoop hc (leafCount_le ft) _ (makeLeaves_grown ft).2

/-- Settles O27. The two constructions agree after the leaves and after every pass. -/
theorem anyConformingQueueBuildsTheSameTree : Obligations.AnyConformingQueueBuildsTheSameTree := by
  intro Q ops good members hc ft
  have h := buildTreeWith_agrees hc ft
  exact ⟨h.node, h.n⟩

end Sys2Proof.Machine
end

section
/-! PROOFS. The binary heap of R141 conforms to the queue of R124. Its order is that of a number made of frequency and
code; sifting keeps the heap in order everywhere but at one position, which moves until it is in order too. -/

namespace Sys2Proof.Machine

/-! ## Keys as numbers -/

/-- The key `(fq, cc)` of R121 as one number: the code has 8 bits. -/
def keyOf (r : NodeRec) : Nat := r.fq.toNat * 2 ^ 8 + r.cc.toNat

theorem before_iff_keyOf_lt {A B : NodeRec} : before A B = true ↔ keyOf A < keyOf B := by
  have hA := A.cc.isLt
  have hB := B.cc.isLt
  rw [before_iff, keyOf, keyOf]
  omega

theorem keyOf_ne {A B : NodeRec} (h : A.cc ≠ B.cc) : keyOf A ≠ keyOf B := by
  have hA := A.cc.isLt
  have hB := B.cc.isLt
  have hcc : A.cc.toNat ≠ B.cc.toNat := fun e => h (BitVec.eq_of_toNat_eq e)
  rw [keyOf, keyOf]
  omega

/-- The key at a position of the heap. -/
def keyAt (h : List Live) (k : Nat) : Nat := keyOf (heapAt h k).2

theorem heapLess_iff {h : List Live} {i j : Nat} : heapLess h i j = true ↔ keyAt h i < keyAt h j :=
  before_iff_keyOf_lt

/-! ## Positions -/

theorem heapAt_eq_getElem {h : List Live} {k : Nat} (hk : k < h.length) : heapAt h k = h[k] := by
  simp [heapAt, hk]

theorem heapAt_append {h : List Live} {x : Live} {k : Nat} (hk : k < h.length) :
    heapAt (h ++ [x]) k = heapAt h k := by
  simp [heapAt, List.getElem?_append_left hk]

@[simp] theorem length_heapSwap (h : List Live) (i j : Nat) : (heapSwap h i j).length = h.length := by
  simp [heapSwap]

theorem heapSwap_perm {h : List Live} {i j : Nat} (hi : i < h.length) (hj : j < h.length) :
    (heapSwap h i j).Perm h := by
  rw [heapSwap, heapAt_eq_getElem hi, heapAt_eq_getElem hj]
  exact List.set_set_perm hi hj

theorem keyAt_heapSwap {h : List Live} {i j : Nat} (hi : i < h.length) (hj : j < h.length) (k : Nat) :
    keyAt (heapSwap h i j) k = if k = j then keyAt h i else if k = i then keyAt h j else keyAt h k := by
  simp only [keyAt, heapAt, heapSwap, List.getD_eq_getElem?_getD, List.getElem?_set]
  by_cases hkj : j = k
  · subst hkj; simp [hj]
  · by_cases hki : i = k
    · subst hki; simp [hi, hkj, Ne.symm hkj]
    · simp [hkj, hki, Ne.symm hkj, Ne.symm hki]

/-! ## The order of the heap -/

/-- No node comes before its parent, the node at `(k - 1) / 2` (R141). -/
def HeapOrdered (h : List Live) : Prop := ∀ k, 0 < k → k < h.length → keyAt h ((k - 1) / 2) ≤ keyAt h k

/-- In order, but that the node at `k` may come before its parent. -/
structure OrderedAbove (h : List Live) (k : Nat) : Prop where
  others : ∀ j, 0 < j → j < h.length → j ≠ k → keyAt h ((j - 1) / 2) ≤ keyAt h j
  bridge : ∀ j, 0 < j → j < h.length → (j - 1) / 2 = k → 0 < k → keyAt h ((k - 1) / 2) ≤ keyAt h j

/-- In order, but that the children of `k` may come before it. -/
structure OrderedBelow (h : List Live) (k : Nat) : Prop where
  others : ∀ j, 0 < j → j < h.length → (j - 1) / 2 ≠ k → keyAt h ((j - 1) / 2) ≤ keyAt h j
  bridge : ∀ j, 0 < j → j < h.length → (j - 1) / 2 = k → 0 < k → keyAt h ((k - 1) / 2) ≤ keyAt h j

theorem HeapOrdered.top_le {h : List Live} (ho : HeapOrdered h) (k : Nat) (hk : k < h.length) :
    keyAt h 0 ≤ keyAt h k := by
  induction k using Nat.strong_induction_on with
  | _ k ih =>
    obtain rfl | hpos := Nat.eq_zero_or_pos k
    · exact le_rfl
    · exact (ih ((k - 1) / 2) (by omega) (by omega)).trans (ho k hpos hk)

/-! ## Sifting up: `insert` -/

/-- Exchanging a node with its parent, which it comes before, moves the disorder to the parent's position. -/
theorem OrderedAbove.swap {h : List Live} {k : Nat} (ho : OrderedAbove h k) (hk : 0 < k) (hlt : k < h.length)
    (hless : keyAt h k < keyAt h ((k - 1) / 2)) :
    OrderedAbove (heapSwap h k ((k - 1) / 2)) ((k - 1) / 2) := by
  have key := keyAt_heapSwap (h := h) (i := k) (j := (k - 1) / 2) hlt (by omega)
  refine ⟨fun j hj hjl hjp => ?_, fun j hj hjl hjp hp => ?_⟩ <;> rw [length_heapSwap] at hjl
  · rw [key, key, if_neg hjp]
    have hoj := ho.others j hj hjl
    by_cases hjk : j = k
    · subst hjk
      simpa using hless.le
    · by_cases hkid : (j - 1) / 2 = k
      · have hb := ho.bridge j hj hjl hkid hk
        rw [hkid, if_neg (by omega), if_pos rfl, if_neg hjk]
        exact hb
      · by_cases hsib : (j - 1) / 2 = (k - 1) / 2
        · have := hoj hjk
          rw [hsib] at this
          rw [if_pos hsib, if_neg hjk]
          exact hless.le.trans this
        · rw [if_neg hsib, if_neg hkid, if_neg hjk]
          exact hoj hjk
  · have hgrand := ho.others ((k - 1) / 2) hp (by omega) (by omega)
    rw [key, key, if_neg (by omega), if_neg (by omega), if_neg (by omega)]
    split
    · exact hgrand
    · next hjk =>
      have := ho.others j hj hjl hjk
      rw [hjp] at this
      exact hgrand.trans this

theorem siftUp_ordered : ∀ (f : Nat) {h : List Live} {k : Nat}, k ≤ f → k < h.length → OrderedAbove h k →
    HeapOrdered (siftUp f h k) ∧ (siftUp f h k).Perm h
  | 0, h, k, hf, _, ho => ⟨fun j hj hjl => ho.others j hj hjl (by omega), List.Perm.refl h⟩
  | f + 1, h, k, hf, hlt, ho => by
    rw [siftUp]
    split
    · next hc =>
      obtain ⟨hk, hless⟩ : 0 < k ∧ keyAt h k < keyAt h ((k - 1) / 2) := by simpa [heapLess_iff] using hc
      obtain ⟨hord, hperm⟩ := siftUp_ordered f (k := (k - 1) / 2) (by omega)
        (by rw [length_heapSwap]; omega) (ho.swap hk hlt hless)
      exact ⟨hord, hperm.trans (heapSwap_perm hlt (by omega))⟩
    · next hc =>
      have hle : 0 < k → keyAt h ((k - 1) / 2) ≤ keyAt h k := by simpa [heapLess_iff] using hc
      refine ⟨fun j hj hjl => ?_, List.Perm.refl h⟩
      by_cases hjk : j = k
      · subst hjk; exact hle hj
      · exact ho.others j hj hjl hjk

theorem keyAt_append {h : List Live} {x : Live} {k : Nat} (hk : k < h.length) :
    keyAt (h ++ [x]) k = keyAt h k := by rw [keyAt, keyAt, heapAt_append hk]

theorem heapInsert_ordered {h : List Live} (ho : HeapOrdered h) (x : Live) :
    HeapOrdered (heapInsert h x) ∧ (heapInsert h x).Perm (x :: h) := by
  have hx : OrderedAbove (h ++ [x]) h.length :=
    { others := fun j hj hjl hne => by
        rw [List.length_append, List.length_singleton] at hjl
        rw [keyAt_append (by omega), keyAt_append (by omega)]
        exact ho j hj (by omega)
      bridge := fun j hj hjl hkid hpos => by
        rw [List.length_append, List.length_singleton] at hjl
        omega }
  obtain ⟨hord, hperm⟩ := siftUp_ordered h.length le_rfl (by simp) hx
  exact ⟨hord, hperm.trans List.perm_append_comm⟩

/-! ## Sifting down: `extract` -/

/-- The least of a node and its children is the node itself or a child that comes before it, and no child comes before
the least. -/
theorem leastChild_spec (h : List Live) (k : Nat) :
    (leastChild h k = k ∨ (0 < leastChild h k ∧ leastChild h k < h.length ∧ (leastChild h k - 1) / 2 = k ∧
      keyAt h (leastChild h k) < keyAt h k)) ∧
    ∀ j, 0 < j → j < h.length → (j - 1) / 2 = k → keyAt h (leastChild h k) ≤ keyAt h j := by
  simp only [leastChild, Bool.and_eq_true, decide_eq_true_eq, heapLess_iff]
  refine ⟨?_, fun j hj hjl hjk => ?_⟩
  · split <;> split <;> omega
  · obtain rfl | rfl : j = 2 * k + 1 ∨ j = 2 * k + 2 := by omega
    all_goals split <;> split <;> omega

/-- Exchanging a node with its least child, which comes before it, moves the disorder to the child's position. -/
theorem OrderedBelow.swap {h : List Live} {k m : Nat} (ho : OrderedBelow h k) (hm : 0 < m) (hlt : m < h.length)
    (hmk : (m - 1) / 2 = k) (hless : keyAt h m < keyAt h k)
    (hleast : ∀ j, 0 < j → j < h.length → (j - 1) / 2 = k → keyAt h m ≤ keyAt h j) :
    OrderedBelow (heapSwap h k m) m := by
  have key := keyAt_heapSwap (h := h) (i := k) (j := m) (by omega) hlt
  refine ⟨fun j hj hjl hjp => ?_, fun j hj hjl hjp _ => ?_⟩ <;> rw [length_heapSwap] at hjl
  · rw [key, key, if_neg hjp]
    have hoj := ho.others j hj hjl
    by_cases hkid : (j - 1) / 2 = k
    · rw [if_pos hkid]
      split
      · exact hless.le
      · next hjm =>
        rw [if_neg (by omega)]
        exact hleast j hj hjl hkid
    · rw [if_neg hkid, if_neg (by rintro rfl; exact hkid hmk)]
      split
      · next hjk =>
        subst hjk
        exact ho.bridge m hm hlt hmk hj
      · exact hoj hkid
  · rw [hmk, key, key, if_neg (by omega), if_pos rfl, if_neg (by omega), if_neg (by omega), ← hjp]
    exact ho.others j hj hjl (by omega)

theorem siftDown_ordered : ∀ (f : Nat) {h : List Live} {k : Nat}, h.length ≤ k + f → OrderedBelow h k →
    HeapOrdered (siftDown f h k) ∧ (siftDown f h k).Perm h
  | 0, h, k, hf, ho => by
    rw [siftDown]
    exact ⟨fun j hj hjl => ho.others j hj hjl (by omega), List.Perm.refl h⟩
  | f + 1, h, k, hf, ho => by
    rw [siftDown]
    obtain ⟨e | ⟨hm, hlt, hmk, hless⟩, hleast⟩ := leastChild_spec h k
    · rw [if_pos e]
      rw [e] at hleast
      refine ⟨fun j hj hjl => ?_, List.Perm.refl h⟩
      by_cases hjk : (j - 1) / 2 = k
      · exact hjk ▸ hleast j hj hjl hjk
      · exact ho.others j hj hjl hjk
    · rw [if_neg (by omega)]
      obtain ⟨hord, hperm⟩ := siftDown_ordered f (k := leastChild h k) (by rw [length_heapSwap]; omega)
        (ho.swap hm hlt hmk hless hleast)
      exact ⟨hord, hperm.trans (heapSwap_perm (by omega) hlt)⟩

/-- The heap with its top taken out and its last node moved there (R141). -/
def lastToTop (h : List Live) : List Live := (h.set 0 (heapAt h (h.length - 1))).take (h.length - 1)

theorem heapExtract_cons (top : Live) (h : List Live) :
    heapExtract (top :: h) = some (top, siftDown h.length (lastToTop (top :: h)) 0) := by
  simp [heapExtract, lastToTop]

theorem lastToTop_perm (top : Live) (h : List Live) : (lastToTop (top :: h)).Perm h := by
  obtain rfl | ⟨mid, last, rfl⟩ := h.eq_nil_or_concat'
  · exact List.Perm.nil
  · have e : lastToTop (top :: (mid ++ [last])) = last :: mid := by simp [lastToTop, heapAt]
    rw [e]
    exact (List.perm_append_singleton last mid).symm

theorem length_lastToTop (h : List Live) : (lastToTop h).length = h.length - 1 := by
  simp [lastToTop]

theorem keyAt_lastToTop {h : List Live} {k : Nat} (hk : 0 < k) (hlt : k < h.length - 1) :
    keyAt (lastToTop h) k = keyAt h k := by
  have hlen : k < h.length := by omega
  simp [keyAt, heapAt, lastToTop, hlt, hlen, hk.ne]

theorem HeapOrdered.lastToTop {h : List Live} (ho : HeapOrdered h) : OrderedBelow (lastToTop h) 0 where
  others j hj hjl hne := by
    rw [length_lastToTop] at hjl
    rw [keyAt_lastToTop (by omega) (by omega), keyAt_lastToTop hj hjl]
    exact ho j hj (by omega)
  bridge _ _ _ _ h0 := absurd h0 (Nat.lt_irrefl 0)

theorem heapExtract_ordered {top : Live} {h : List Live} (ho : HeapOrdered (top :: h)) :
    ∃ h', heapExtract (top :: h) = some (top, h') ∧ HeapOrdered h' ∧ h'.Perm h := by
  obtain ⟨hord, hperm⟩ := siftDown_ordered h.length (by simp [length_lastToTop]) ho.lastToTop
  exact ⟨_, heapExtract_cons top h, hord, hperm.trans (lastToTop_perm top h)⟩

/-- The top of a heap in order comes before every other node. -/
theorem HeapOrdered.top_before {top : Live} {h : List Live} (ho : HeapOrdered (top :: h))
    (hd : (top :: h).Pairwise Distinct) {y : Live} (hy : y ∈ h) : before top.2 y.2 = true := by
  obtain ⟨k, hk, rfl⟩ := List.mem_iff_getElem.1 hy
  have hle : keyOf top.2 ≤ keyOf h[k].2 := by
    simpa [keyAt, heapAt, hk] using ho.top_le (k + 1) (by simpa using hk)
  have hcc : top.2.cc ≠ h[k].2.cc := ((List.pairwise_cons.1 hd).1 _ hy).2
  exact before_iff_keyOf_lt.2 (lt_of_le_of_ne hle (keyOf_ne hcc))

/-- Realisation B conforms to the queue of R124 on the lists in heap order. -/
theorem heapQueue_conforms : heapQueue.Conforms HeapOrdered id where
  emptyGood k _ hk := absurd hk (Nat.not_lt_zero k)
  emptyHolds := rfl
  insertGood _ x hq := (heapInsert_ordered hq x).1
  insertHolds _ x hq := (heapInsert_ordered hq x).2
  extractNone q _ hq := by rw [show q = [] from hq]; rfl
  extractLeast q hq hne hd := by
    obtain - | ⟨top, h⟩ := q
    · exact absurd rfl hne
    · obtain ⟨h', he, ho, hp⟩ := heapExtract_ordered hq
      exact ⟨top, h', he, ho, hp.symm.cons top, fun y hy => hq.top_before hd (hp.mem_iff.1 hy)⟩

/-- Settles O28. The scan and the heap conform, so both build the same tree. -/
theorem bothRealisationsConform : Obligations.BothRealisationsConform :=
  ⟨scanQueue_conforms, ⟨_, heapQueue_conforms⟩, anyConformingQueueBuildsTheSameTree _ _ _ _ heapQueue_conforms⟩

end Sys2Proof.Machine
end

section
/-! PROOFS. The commands `BUILD` and `RDN`, the ordering, and what the tree depends on (R120, R121, R127, R130, R134,
R136). -/

namespace Sys2Proof

theorem rdnWord_toNat (idx : NodeIdx) : (0x5000 + idx.setWidth 16 : BitVec 16).toNat = 0x5000 + idx.toNat := by
  bv_omega

theorem decode_rdn (idx : NodeIdx) (wd : Count) : decode ⟨0x5000 + idx.setWidth 16, wd⟩ = .ok (.rdn idx) := by
  have hidx := idx.isLt
  have hop : (opField (0x5000 + idx.setWidth 16)).toNat = 5 := by
    rw [opField_toNat, rdnWord_toNat]
    omega
  have hrsv : rsvField (0x5000 + idx.setWidth 16) = 0 := by
    rw [rsvField_eq_zero_iff, rdnWord_toNat]
    omega
  have harg : argField (0x5000 + idx.setWidth 16) = idx := by
    rw [← BitVec.toNat_inj, argField_toNat, rdnWord_toNat]
    omega
  simp only [decode, hop, hrsv, harg, ne_eq, not_true_eq_false, if_false]

end Sys2Proof

namespace Sys2Proof.Machine

/-! ## The data of `RDN` (R136) and `BUILD` (R130)

Adding up the widths of the fields would hide where one field ends and the next begins, hence `-Nat.reduceAdd`. -/

theorem nodeData_fields (r : NodeRec) :
    (nodeData r).extractLsb' 0 8 = r.cc ∧ (nodeData r).getLsbD 8 = r.lf ∧ (nodeData r).extractLsb' 9 9 = r.lc ∧
      (nodeData r).extractLsb' 18 9 = r.rc ∧ (nodeData r).extractLsb' 27 40 = r.fq := by
  simp (disch := omega) [nodeData, BitVec.getLsbD_append, BitVec.extractLsb'_setWidth_of_le,
    BitVec.extractLsb'_append_eq_of_le, BitVec.extractLsb'_append_eq_of_add_le, -Nat.reduceAdd,
    -BitVec.getLsbD_eq_getElem]

theorem nodeData_lt (r : NodeRec) : (nodeData r).toNat < 2 ^ 67 := by
  rw [nodeData, BitVec.toNat_setWidth_of_le (by decide)]
  exact BitVec.isLt _

theorem buildData_fields (s : State) :
    (buildData s).extractLsb' 0 2 = treeKindCode s.tk ∧ (buildData s).extractLsb' 2 9 = s.root ∧
      (buildData s).extractLsb' 11 10 = s.ncount := by
  simp (disch := omega) [buildData, BitVec.extractLsb'_setWidth_of_le, BitVec.extractLsb'_append_eq_of_le,
    BitVec.extractLsb'_append_eq_of_add_le, -Nat.reduceAdd]

theorem buildData_lt (s : State) : (buildData s).toNat < 2 ^ 21 := by
  rw [buildData, BitVec.toNat_setWidth_of_le (by decide)]
  exact BitVec.isLt _

/-- Settles O30. The three clauses of `RDN` in a state, the word that presents it, and the words of its opcode with a
bit of `rsv` set. -/
theorem rdnReadsOneRecord : Obligations.RdnReadsOneRecord := by
  refine ⟨fun idx s built inRange => ?_, fun idx s unbuilt => ?_, fun idx s built above => ?_,
    fun idx wd s => issue_of_decode (decode_rdn idx wd) s, fun c s hop hrsv => ?_⟩
  · obtain ⟨hv, -⟩ | ⟨-, hle, -⟩ | ⟨-, -, e⟩ := execRdn_cases idx s
    · exact absurd (built.symm.trans hv) (by decide)
    · omega
    · obtain ⟨hcc, hlf, hlc, hrc, hfq⟩ := nodeData_fields (nodeRead s.node idx.toNat)
      exact ⟨_, e, hcc, hlf, hlc, hrc, hfq, nodeData_lt _⟩
  · obtain ⟨-, e⟩ | ⟨hv, -⟩ | ⟨hv, -⟩ := execRdn_cases idx s
    · exact e
    · exact absurd (unbuilt.symm.trans hv) (by decide)
    · exact absurd (unbuilt.symm.trans hv) (by decide)
  · obtain ⟨hv, -⟩ | ⟨-, -, e⟩ | ⟨-, hlt, -⟩ := execRdn_cases idx s
    · exact absurd (built.symm.trans hv) (by decide)
    · exact e
    · omega
  · refine issue_of_bit_above_operand hop ?_ s
    change 2 ^ 9 ≤ c.cw.toNat % 0x1000
    omega

/-- Settles O20. The comparison is on unsigned numbers, and it does not read the other fields. -/
theorem orderingIsFrequencyThenCode : Obligations.OrderingIsFrequencyThenCode :=
  ⟨before_iff, fun _ _ _ _ _ _ => ⟨rfl, rfl, rfl⟩⟩

/-! ## What the tree depends on -/

theorem makeLeaves_congr {ft ft' : Memory Count} (h : ∀ c, c < NSYM → ftRead ft c = ftRead ft' c) :
    makeLeaves scanQueue ft = makeLeaves scanQueue ft' :=
  List.foldl_ext _ _ _ fun b c hc => by rw [addLeaf, addLeaf, h c (List.mem_range.1 hc)]

theorem buildTree_congr {ft ft' : Memory Count} (h : ∀ c, c < NSYM → ftRead ft c = ftRead ft' c) :
    buildTree ft = buildTree ft' := by
  rw [buildTree, buildTreeWith, makeLeaves_congr h]
  rfl

/-- Settles O26. The leaf loop reads the 256 entries and the merge loop reads no table. -/
theorem treeDependsOnTheTableAlone : Obligations.TreeDependsOnTheTableAlone := by
  intro s s' t t' hft h h'
  rw [exec_build_next h, exec_build_next h', buildTree_congr hft]
  exact ⟨rfl, rfl, rfl, rfl⟩

/-! ## `BUILD` -/

/-- Settles O21. The registers follow from the number of nodes, which is that of R132 item 1. -/
theorem buildCompletes : Obligations.BuildCompletes := by
  intro s
  have hn := buildTree_n s.ft
  obtain ⟨htk, hroot, hcount⟩ := buildData_fields (s.withTree (buildTree s.ft))
  refine ⟨_, _, rfl, rfl, rfl, rfl, rfl, rfl, rfl, rfl, rfl, htk, hroot, hcount, buildData_lt _, fun hL => ?_,
    fun hL => ?_, fun hL => ?_⟩
  · have e : (buildTree s.ft).n = 0 := by omega
    simp [e, treeKindOf, rootOf]
  · have e : (buildTree s.ft).n = 1 := by omega
    have hleaf := (buildTree_grown s.ft).1.leaves 0 (by omega)
    simp [e, treeKindOf, rootOf, hleaf]
  · have hle := buildTree_n_le s.ft
    have hroot : (rootOf (buildTree s.ft).n).toNat = (buildTree s.ft).n - 1 := rootOf_toNat hle
    have hcount : (BitVec.ofNat 10 (buildTree s.ft).n).toNat = (buildTree s.ft).n := ncountOf_toNat hle
    refine ⟨treeKindOf_eq_general.2 (by omega), hcount.trans hn, hroot.trans (by rw [← hcount]; rfl), ?_⟩
    change (nodeRead (buildTree s.ft).node (rootOf (buildTree s.ft).n).toNat).lf = false
    rw [hroot]
    exact buildTree_last_internal (by omega)

/-! ## The tie-break law (R134) -/

theorem buildTree_tieBreakTable :
    (buildTree [(97, 1), (98, 1), (99, 1), (100, 2)]).node =
      [(0, ⟨97, 1, true, 0, 0⟩), (1, ⟨98, 1, true, 0, 0⟩), (2, ⟨99, 1, true, 0, 0⟩), (3, ⟨100, 2, true, 0, 0⟩),
        (4, ⟨97, 2, false, 0, 1⟩), (5, ⟨97, 3, false, 2, 4⟩), (6, ⟨97, 5, false, 3, 5⟩)] := by decide +kernel

/-- Of two nodes of equal frequency the one that comes before the other has the smaller code. -/
theorem cc_lt_of_before {A B : NodeRec} (h : before A B = true) (hfq : A.fq = B.fq) : A.cc.toNat < B.cc.toNat := by
  rw [before_iff, hfq] at h
  omega

/-- Settles O29. The counterexample is evaluated; of two siblings the left one was the least live node. -/
theorem tieBreakLawAsCorrected : Obligations.TieBreakLawAsCorrected := by
  refine ⟨fun s t hft h => ?_, fun s t h i hL hi => ?_⟩
  · rw [built_node h, hft, buildTree_tieBreakTable]
    exact ⟨rfl, rfl, rfl, rfl⟩
  · obtain ⟨a, b, hm⟩ := built_merges h hL hi
    rw [hm.left, hm.right]
    have hb := hm.least b hm.rightLive hm.ne.symm
    exact ⟨hb, fun _ _ hfq => cc_lt_of_before hb hfq⟩

end Sys2Proof.Machine
end

section
/-! PROOFS. The built tree as a tree: the node memory unfolds from the root into a binary tree whose leaves are the used
codes, each once (R123, R126, R132). The walks of the coder are then recursions over this tree. -/

namespace Sys2Proof.Machine

/-- A binary tree with a character code at each leaf. -/
inductive CodeTree where
  | leaf (c : Nat)
  | inner (l r : CodeTree)

/-- The node memory, read from node `i` downwards, is the tree `t`. -/
inductive Unfolds (m : Memory NodeRec) : Nat → CodeTree → Prop where
  | leaf {i : Nat} (h : (nodeRead m i).lf = true) : Unfolds m i (.leaf (nodeRead m i).cc.toNat)
  | inner {i : Nat} {l r : CodeTree} (h : (nodeRead m i).lf = false) (left : Unfolds m (nodeRead m i).lc.toNat l)
      (right : Unfolds m (nodeRead m i).rc.toNat r) : Unfolds m i (.inner l r)

namespace CodeTree

/-- The character codes of the leaves, from left to right. -/
def codes : CodeTree → List Nat
  | leaf c => [c]
  | inner l r => l.codes ++ r.codes

/-- The number of nodes. -/
def size : CodeTree → Nat
  | leaf _ => 1
  | inner l r => l.size + r.size + 1

/-- The leaves with their paths, `p` being the path to the top, in the order of a walk (R161, R162). -/
def leaves (leftFirst : Bool) : CodeTree → List Bool → List (Nat × List Bool)
  | leaf c, p => [(c, p)]
  | inner l r, p =>
    if leftFirst then l.leaves leftFirst (p ++ [false]) ++ r.leaves leftFirst (p ++ [true])
    else r.leaves leftFirst (p ++ [true]) ++ l.leaves leftFirst (p ++ [false])

theorem codes_length_pos (t : CodeTree) : 0 < t.codes.length := by
  induction t with
  | leaf c => exact Nat.one_pos
  | inner l r ihl _ => rw [codes, List.length_append]; omega

/-- A tree of `L` leaves has `L - 1` internal nodes (R132 item 1). -/
theorem size_succ (t : CodeTree) : t.size + 1 = 2 * t.codes.length := by
  induction t with
  | leaf c => rfl
  | inner l r ihl ihr => rw [size, codes, List.length_append]; omega

theorem leaves_perm (t : CodeTree) (leftFirst : Bool) (p : List Bool) :
    (t.leaves leftFirst p).Perm (t.leaves true p) := by
  induction t generalizing p with
  | leaf c => exact .refl _
  | inner l r ihl ihr =>
    cases leftFirst with
    | true => exact .refl _
    | false => exact ((ihr _).append (ihl _)).trans List.perm_append_comm

theorem leaves_codes (t : CodeTree) (p : List Bool) : (t.leaves true p).map Prod.fst = t.codes := by
  induction t generalizing p with
  | leaf c => rfl
  | inner l r ihl ihr => simp [leaves, codes, ihl, ihr]

/-- A path passes through different internal nodes, so it is shorter than the number of leaves (R164). -/
theorem length_lt_of_mem_leaves {t : CodeTree} {p : List Bool} {x : Nat × List Bool} (h : x ∈ t.leaves true p) :
    x.2.length < p.length + t.codes.length := by
  induction t generalizing p with
  | leaf c => simp_all [leaves, codes]
  | inner l r ihl ihr =>
    have hl := l.codes_length_pos
    have hr := r.codes_length_pos
    rw [codes, List.length_append]
    obtain h | h := List.mem_append.1 h
    · have := ihl h
      rw [List.length_append, List.length_singleton] at this
      omega
    · have := ihr h
      rw [List.length_append, List.length_singleton] at this
      omega

/-- Both subtrees of a node have half its weight, so the weights of the leaves add up to that of the top (R168
item 5). -/
theorem leaves_kraft {N : Nat} (t : CodeTree) {p : List Bool} (h : p.length + t.codes.length ≤ N + 1) :
    ((t.leaves true p).map fun x => 2 ^ (N - x.2.length)).sum = 2 ^ (N - p.length) := by
  induction t generalizing p with
  | leaf c => simp [leaves]
  | inner l r ihl ihr =>
    have hl := l.codes_length_pos
    have hr := r.codes_length_pos
    rw [codes, List.length_append] at h
    have hlen (b : Bool) : (p ++ [b]).length = p.length + 1 := List.length_append
    calc (((inner l r).leaves true p).map fun x => 2 ^ (N - x.2.length)).sum
        = 2 ^ (N - (p.length + 1)) + 2 ^ (N - (p.length + 1)) := by
          simp only [leaves, if_true, List.map_append, List.sum_append]
          rw [ihl (by rw [hlen]; omega), ihr (by rw [hlen]; omega), hlen, hlen]
      _ = 2 ^ (N - (p.length + 1) + 1) := by rw [Nat.pow_succ]; omega
      _ = 2 ^ (N - p.length) := by congr 1; omega

end CodeTree

/-! ## The trees of the live nodes -/

/-- When node `i` is made, the live nodes carry trees whose leaves are the used codes, each once. -/
structure Forest (ft : Memory Count) (i : Nat) (q : List (Nat × CodeTree)) : Prop where
  unfolds : ∀ x ∈ q, Unfolds (buildTree ft).node x.1 x.2
  nodup : (q.map Prod.fst).Nodup
  live : ∀ j, LiveAt (buildTree ft).node (leafCount ft) i j ↔ j ∈ q.map Prod.fst
  codes : (q.flatMap fun x => x.2.codes).Perm (usedCodes ft)

/-- Before any merge every used code is a tree of its own: the leaf of the k-th used code is node `k` (R123). -/
def leafTrees (ft : Memory Count) : List (Nat × CodeTree) := (usedCodes ft).zipIdx.map fun x => (x.2, .leaf x.1)

theorem leafTrees_indices (ft : Memory Count) : (leafTrees ft).map Prod.fst = List.range (leafCount ft) := by
  rw [leafTrees, List.map_map, leafCount, List.range_eq_range', ← List.zipIdx_map_snd 0 (usedCodes ft)]
  rfl

theorem leafTrees_codes (ft : Memory Count) : ((leafTrees ft).flatMap fun x => x.2.codes) = usedCodes ft := by
  rw [leafTrees, List.flatMap_map]
  exact List.map_eq_flatMap.symm.trans (List.zipIdx_map_fst 0 (usedCodes ft))

/-- A leaf of the memory with character code `c` is the tree with that one leaf. -/
theorem Unfolds.of_leaf {m : Memory NodeRec} {i c : Nat} (h : (nodeRead m i).lf = true)
    (hc : (nodeRead m i).cc.toNat = c) : Unfolds m i (.leaf c) := hc ▸ .leaf h

theorem forest_leafTrees (ft : Memory Count) : Forest ft (leafCount ft) (leafTrees ft) where
  unfolds := by
    intro x hx
    obtain ⟨⟨c, k⟩, hck, rfl⟩ := List.mem_map.1 hx
    have hc := List.mem_zipIdx_iff_getElem?.1 hck
    have hrec := (buildTree_traced ft).leafRecs k c hc
    have hlt := (mem_usedCodes.1 (List.mem_of_getElem? hc)).1
    exact .of_leaf (hrec ▸ rfl) (hrec ▸ leafRec_cc_toNat hlt _)
  nodup := leafTrees_indices ft ▸ List.nodup_range
  live j := by
    rw [leafTrees_indices, List.mem_range, liveAt_iff_not_child, childIndices_leaves]
    exact and_iff_left List.not_mem_nil
  codes := .of_eq (leafTrees_codes ft)

/-- Two different members of a list can be taken out of it. -/
theorem exists_perm_cons_cons {α : Type} {q : List α} {x y : α} (hx : x ∈ q) (hy : y ∈ q) (h : y ≠ x) :
    ∃ rest, q.Perm (x :: y :: rest) := by
  obtain ⟨s, t, rfl⟩ := List.append_of_mem hx
  have hy : y ∈ s ++ t := by simpa [h] using hy
  obtain ⟨s', t', e⟩ := List.append_of_mem hy
  exact ⟨s' ++ t', List.perm_middle.trans (((List.Perm.of_eq e).trans List.perm_middle).cons x)⟩

/-- A merge joins the trees of its two children. -/
theorem Forest.merge {ft : Memory Count} {i a b : Nat} {q : List (Nat × CodeTree)} (h : Forest ft i q)
    (hL : leafCount ft ≤ i) (hi : i < (buildTree ft).n) (hm : Merges (buildTree ft).node (leafCount ft) i a b) :
    ∃ q', Forest ft (i + 1) q' := by
  obtain ⟨⟨_, l⟩, hl, rfl⟩ := List.mem_map.1 ((h.live a).1 hm.leftLive)
  obtain ⟨⟨_, r⟩, hr, rfl⟩ := List.mem_map.1 ((h.live b).1 hm.rightLive)
  obtain ⟨rest, hp⟩ := exists_perm_cons_cons hl hr fun e => hm.ne (congrArg Prod.fst e.symm)
  have hnodup := (hp.map Prod.fst).nodup_iff.1 h.nodup
  simp only [List.map_cons, List.nodup_cons, List.mem_cons, not_or] at hnodup
  obtain ⟨⟨-, hlrest⟩, hrrest, hrest⟩ := hnodup
  have live (j : Nat) : LiveAt (buildTree ft).node (leafCount ft) (i + 1) j ↔ j = i ∨ j ∈ rest.map Prod.fst := by
    rw [liveAt_succ hL fun k hLk hk => (buildTree_grown ft).1.child_ne hLk hk hi, hm.left, hm.right, h.live,
      (hp.map Prod.fst).mem_iff, or_comm]
    simp only [List.map_cons, List.mem_cons]
    refine or_congr_right ⟨fun ⟨hj, hja, hjb⟩ => (hj.resolve_left hja).resolve_left hjb, fun hj => ?_⟩
    exact ⟨.inr (.inr hj), fun e => hlrest (e ▸ hj), fun e => hrrest (e ▸ hj)⟩
  refine ⟨(i, .inner l r) :: rest, ?_⟩
  constructor
  case unfolds =>
    intro x hx
    obtain rfl | hx := List.mem_cons.1 hx
    · exact .inner hm.internal (hm.left ▸ h.unfolds _ hl) (hm.right ▸ h.unfolds _ hr)
    · exact h.unfolds x (hp.mem_iff.2 (by simp [hx]))
  case nodup =>
    refine List.nodup_cons.2 ⟨fun hmem => ?_, hrest⟩
    exact absurd ((h.live i).2 ((hp.map Prod.fst).mem_iff.2 (by simp [hmem]))).1 (Nat.lt_irrefl i)
  case live => exact fun j => (live j).trans (by simp)
  case codes =>
    refine List.Perm.trans ?_ h.codes
    simpa [CodeTree.codes, List.append_assoc] using (hp.flatMap_right fun x => x.2.codes).symm

theorem exists_forest (ft : Memory Count) {i : Nat} (hL : leafCount ft ≤ i) :
    i ≤ (buildTree ft).n → ∃ q, Forest ft i q := by
  induction i, hL using Nat.le_induction with
  | base => exact fun _ => ⟨_, forest_leafTrees ft⟩
  | succ i hL ih =>
    intro hi
    obtain ⟨q, hq⟩ := ih (Nat.le_of_succ_le hi)
    obtain ⟨a, b, hm⟩ := (buildTree_traced ft).merges i hL hi
    exact hq.merge hL hi hm

/-- A table with a leaf builds one tree, below the last node made, whose leaves are the used codes, each once. -/
theorem buildTree_unfolds {ft : Memory Count} (hL : 1 ≤ leafCount ft) :
    ∃ t, Unfolds (buildTree ft).node ((buildTree ft).n - 1) t ∧ t.codes.Perm (usedCodes ft) := by
  obtain ⟨q, hq⟩ := exists_forest ft (buildTree_grown ft).1.leavesFirst le_rfl
  have hmem (j : Nat) : j ∈ q.map Prod.fst ↔ j = (buildTree ft).n - 1 := (hq.live j).symm.trans (live_at_end_iff hL)
  have hone : q.map Prod.fst = [(buildTree ft).n - 1] :=
    List.perm_singleton.1 ((List.perm_ext_iff_of_nodup hq.nodup (List.nodup_singleton _)).2 (by simpa using hmem))
  obtain ⟨⟨_, t⟩, rfl, rfl⟩ := List.map_eq_singleton_iff.1 hone
  exact ⟨t, hq.unfolds _ (List.mem_singleton_self _), by simpa using hq.codes⟩

/-- Where a tree stands, `NODE` unfolds from `ROOT` into it. -/
theorem Inv.unfolds {s : State} (h : Inv s) (built : s.tv = true) (some_tree : s.tk ≠ .noTree) :
    ∃ t, Unfolds s.node s.root.toNat t ∧ t.codes.Perm (usedCodes s.ft) := by
  obtain ⟨hnode, -, hkind, hroot⟩ := h.treeBuilt built
  have hn := buildTree_n s.ft
  have hne : (buildTree s.ft).n ≠ 0 := fun e => some_tree (by rw [hkind, e]; rfl)
  rw [hnode, hroot, rootOf_toNat (buildTree_n_le s.ft)]
  exact buildTree_unfolds (by omega)

end Sys2Proof.Machine
end

section
/-! PROOFS. The walks of the coder (R163, R168 item 4, R169): each assigns the leaves of the tree one after the other,
and since no character has two leaves the table they leave does not depend on the order or on the guard. -/

namespace Sys2Proof.Machine

/-! ## The walks as recursions over the tree -/

/-- A leaf visited with the guard "if not already assigned", or without it (R168 item 4). -/
def visitLeaf (guarded : Bool) (t : Coding) (x : Nat × List Bool) : Coding :=
  assignCode (if guarded then t else { t with asg := [] }) x.1 x.2

/-- The code table after the leaves of a list, visited in its order. -/
def visitLeaves (guarded : Bool) (xs : List (Nat × List Bool)) : Coding := xs.foldl (visitLeaf guarded) emptyCoding

/-- The recursive walk visits the leaves of the tree; as many levels as it has leaves are enough. -/
theorem visit_of_unfolds {m : Memory NodeRec} {i : Nat} {t : CodeTree} (h : Unfolds m i t)
    (guarded leftFirst : Bool) {d : Nat} (hd : t.codes.length ≤ d) (p : List Bool) (c : Coding) :
    visit m guarded leftFirst d i p c = (t.leaves leftFirst p).foldl (visitLeaf guarded) c := by
  induction h generalizing d p c with
  | leaf hl =>
    obtain ⟨d, rfl⟩ := Nat.exists_eq_succ_of_ne_zero (Nat.ne_zero_of_lt hd)
    simp [visit, hl, CodeTree.leaves, visitLeaf]
  | @inner i l r hl _ _ ihl ihr =>
    have hlpos := l.codes_length_pos
    have hrpos := r.codes_length_pos
    rw [CodeTree.codes, List.length_append] at hd
    obtain ⟨d, rfl⟩ := Nat.exists_eq_succ_of_ne_zero (n := d) (by omega)
    cases leftFirst <;>
      simp [visit, hl, CodeTree.leaves, List.foldl_append, ihl (d := d) (by omega), ihr (d := d) (by omega)]

/-- The loop visits the leaves of the tree on top of the stack, one pass per node, and goes on below it. -/
theorem walk_of_unfolds {m : Memory NodeRec} {i : Nat} {t : CodeTree} (h : Unfolds m i t) (k : Nat) (p : List Bool)
    (stack : List (Nat × List Bool)) (c : Coding) :
    walk m (t.size + k) ((i, p) :: stack) c = walk m k stack ((t.leaves true p).foldl (visitLeaf true) c) := by
  induction h generalizing k p stack c with
  | leaf hl =>
    rw [CodeTree.size, Nat.add_comm, walk_leaf _ _ _ _ _ _ hl]
    simp [CodeTree.leaves, visitLeaf]
  | @inner i l r hl _ _ ihl ihr =>
    rw [show (CodeTree.inner l r).size + k = l.size + (r.size + k) + 1 by rw [CodeTree.size]; omega,
      walk_internal _ _ _ _ _ _ hl, ihl, ihr]
    simp [CodeTree.leaves, List.foldl_append]

theorem walkBound_ge : 2 * NSYM ≤ walkBound := by decide

/-- `GENCODE` visits the leaves of a tree over the alphabet, left to right. -/
theorem codeTable_of_unfolds {m : Memory NodeRec} {root : BitVec 9} {tk : TreeKind} {t : CodeTree}
    (h : Unfolds m root.toNat t) (ht : t.codes.length ≤ NSYM) (some_tree : tk ≠ .noTree) :
    codeTable m root tk = some (visitLeaves true (t.leaves true [])).ct := by
  obtain ⟨k, hk⟩ : ∃ k, walkBound = t.size + k := by
    have hsize := t.size_succ
    have hbound := walkBound_ge
    exact Nat.exists_eq_add_of_le (by omega)
  rw [codeTable, if_neg some_tree, hk, walk_of_unfolds h, walk_empty]
  rfl

/-! ## The table the walks leave -/

/-- The code table `ct` holds the codes of the leaves `xs` and no other. -/
structure Tabulates (xs : List (Nat × List Bool)) (ct : Memory CodeRec) : Prop where
  form : Memory.wf NSYM (some emptyCode) ct
  listed : ∀ x ∈ xs, ctRead true ct x.1 = codeOfPath x.2
  unlisted : ∀ c, c ∉ xs.map Prod.fst → ctRead true ct c = emptyCode

/-- The canonical form lists exactly the codes that are not empty. -/
theorem readCell_eq_of_ctRead {ct : Memory CodeRec} (h : Memory.wf NSYM (some emptyCode) ct) (c : Nat) :
    readCell ct c = if ctRead true ct c = emptyCode then none else some (ctRead true ct c) := by
  cases hr : readCell ct c with
  | none => simp [ctRead, hr]
  | some r =>
    have hne : r ≠ emptyCode := by simpa using (h.2 _ (readCell_mem hr)).2
    simp [ctRead, hr, hne]

/-- The same leaves in any order have the same table. -/
theorem Tabulates.unique {xs ys : List (Nat × List Bool)} {ct ct' : Memory CodeRec} (h : Tabulates xs ct)
    (h' : Tabulates ys ct') (hp : xs.Perm ys) : ct = ct' := by
  have same (c : Nat) : ctRead true ct c = ctRead true ct' c := by
    by_cases hc : c ∈ xs.map Prod.fst
    · obtain ⟨x, hx, rfl⟩ := List.mem_map.1 hc
      rw [h.listed x hx, h'.listed x (hp.mem_iff.1 hx)]
    · rw [h.unlisted c hc, h'.unlisted c fun hy => hc ((hp.map Prod.fst).mem_iff.2 hy)]
  refine eq_of_readCell_eq h.form.1 h'.form.1 fun c => ?_
  rw [readCell_eq_of_ctRead h.form, readCell_eq_of_ctRead h'.form, same]

/-- Writing the code of a character that has none adds its leaf. -/
theorem Tabulates.ctWrite {xs : List (Nat × List Bool)} {ct : Memory CodeRec} (h : Tabulates xs ct) {c : Nat}
    (hlt : c < NSYM) (hnew : c ∉ xs.map Prod.fst) (p : List Bool) :
    Tabulates (xs ++ [(c, p)]) (ctWrite ct c (codeOfPath p)) where
  form := storeCell_wf _ h.form hlt
  listed x hx := by
    obtain hx | hx := List.mem_append.1 hx
    · have hne : x.1 ≠ c := fun e => hnew (e ▸ List.mem_map_of_mem hx)
      rw [ctRead_ctWrite_other ct _ hne, h.listed x hx]
    · obtain rfl := List.mem_singleton.1 hx
      exact ctRead_ctWrite_same ct c _
  unlisted d hd := by
    simp only [List.map_append, List.map_cons, List.map_nil, List.mem_append, List.mem_singleton, not_or] at hd
    obtain ⟨hd, hne⟩ := hd
    rw [ctRead_ctWrite_other ct _ hne, h.unlisted d hd]

/-- The guard is never false (R168 item 4): a visit to a leaf whose character was not met writes its code. -/
theorem visitLeaf_of_new {t : Coding} {x : Nat × List Bool} (h : x.1 ∉ t.asg) (guarded : Bool) :
    (visitLeaf guarded t x).ct = ctWrite t.ct x.1 (codeOfPath x.2) ∧
      ∀ c ∈ (visitLeaf guarded t x).asg, c = x.1 ∨ c ∈ t.asg := by
  cases guarded <;> simp [visitLeaf, assignCode, h]

theorem visitLeaves_concat (guarded : Bool) (xs : List (Nat × List Bool)) (x : Nat × List Bool) :
    visitLeaves guarded (xs ++ [x]) = visitLeaf guarded (visitLeaves guarded xs) x := List.foldl_concat ..

/-- Where no character has two leaves, the visits leave the table of the leaves, with or without the guard. -/
theorem visitLeaves_tabulates (guarded : Bool) {xs : List (Nat × List Bool)} (hnodup : (xs.map Prod.fst).Nodup)
    (hlt : ∀ c ∈ xs.map Prod.fst, c < NSYM) :
    Tabulates xs (visitLeaves guarded xs).ct ∧ ∀ c ∈ (visitLeaves guarded xs).asg, c ∈ xs.map Prod.fst := by
  induction xs using List.reverseRecOn with
  | nil => exact ⟨⟨nil_wf _ _, nofun, fun _ _ => rfl⟩, nofun⟩
  | append_singleton xs x ih =>
    have hmap : (xs ++ [x]).map Prod.fst = xs.map Prod.fst ++ [x.1] := by simp
    rw [hmap] at hnodup hlt ⊢
    obtain ⟨hnew, hnodup⟩ := List.nodup_cons.1 (List.nodup_append_comm.1 hnodup)
    obtain ⟨htab, hasg⟩ := ih hnodup fun c hc => hlt c (List.mem_append_left _ hc)
    obtain ⟨hct, hasg'⟩ := visitLeaf_of_new (fun hx => hnew (hasg _ hx)) guarded
    rw [visitLeaves_concat, hct]
    refine ⟨htab.ctWrite (hlt _ (by simp)) hnew _, fun c hc => ?_⟩
    obtain rfl | hc := hasg' c hc
    · simp
    · exact List.mem_append_left _ (hasg c hc)

/-! ## Every walk leaves the same table -/

/-- The leaves of the built tree, in the order of either walk, are one leaf for each used code. -/
theorem CodeTree.leaves_of_used {ft : Memory Count} {t : CodeTree} (h : t.codes.Perm (usedCodes ft))
    (leftFirst : Bool) : ((t.leaves leftFirst []).map Prod.fst).Perm (usedCodes ft) := by
  rw [← t.leaves_codes []] at h
  exact ((t.leaves_perm leftFirst []).map Prod.fst).trans h

theorem usedCodes_nodup (ft : Memory Count) : (usedCodes ft).Nodup := List.nodup_range.filter _

theorem CodeTree.visitLeaves_tabulates {ft : Memory Count} {t : CodeTree} (h : t.codes.Perm (usedCodes ft))
    (guarded leftFirst : Bool) :
    Tabulates (t.leaves leftFirst []) (visitLeaves guarded (t.leaves leftFirst [])).ct := by
  have hp := CodeTree.leaves_of_used h leftFirst
  exact (Machine.visitLeaves_tabulates guarded (hp.nodup_iff.2 (usedCodes_nodup ft))
    fun c hc => (mem_usedCodes.1 (hp.mem_iff.1 hc)).1).1

theorem codes_length_le {ft : Memory Count} {t : CodeTree} (h : t.codes.Perm (usedCodes ft)) :
    t.codes.length ≤ NSYM := h.length_eq.trans_le (leafCount_le ft)

/-- The loop and every recursive walk leave the same table (R168 item 4, R169). -/
theorem Inv.codeTable_eq_visit {s : State} (h : Inv s) (built : s.tv = true) (some_tree : s.tk ≠ .noTree)
    (guarded leftFirst : Bool) : codeTable s.node s.root s.tk =
      some (visit s.node guarded leftFirst (NNODE + 1) s.root.toNat [] emptyCoding).ct := by
  obtain ⟨t, ht, hcodes⟩ := h.unfolds built some_tree
  have hle := codes_length_le hcodes
  rw [codeTable_of_unfolds ht hle some_tree,
    visit_of_unfolds ht guarded leftFirst (hle.trans (by decide)) [] emptyCoding]
  exact congrArg some ((CodeTree.visitLeaves_tabulates hcodes true true).unique
    (CodeTree.visitLeaves_tabulates hcodes guarded leftFirst) (t.leaves_perm leftFirst []).symm)

/-- Settles O33. Without a tree both tables are empty; otherwise loop and recursion visit the leaves of one tree. -/
theorem recursiveWalkGivesTheSameCodes : Obligations.RecursiveWalkGivesTheSameCodes := by
  intro s h built
  split
  · next no_tree => rw [codeTable, if_pos no_tree]
  · next some_tree => exact h.codeTable_eq_visit built some_tree true true

end Sys2Proof.Machine
end

section
/-! PROOFS. What the code table holds (R161, R165, R168): the code of a used character is the path to its leaf. -/

namespace Sys2Proof.Machine

/-! ## A path packed into a code record and read back (R163, R23) -/

theorem testBit_packNat (p : List Bool) (k : Nat) : (packNat p).testBit k = p.getD k false := by
  induction p generalizing k with
  | nil => simp [packNat]
  | cons b p ih =>
    have hbit : packNat (b :: p) = Nat.bit b (packNat p) := by cases b <;> simp [packNat, Nat.bit, Nat.add_comm]
    cases k with
    | zero => simp [hbit]
    | succ k => rw [hbit, Nat.testBit_bit_succ, ih, List.getD_cons_succ]

theorem codeOfPath_len {p : List Bool} (h : p.length ≤ CODE_MAX) : (codeOfPath p).len.toNat = p.length :=
  (BitVec.toNat_ofNat p.length 8).trans (Nat.mod_eq_of_lt (Nat.lt_succ_of_le h))

theorem codeOfPath_bit (p : List Bool) (k : Nat) :
    (codeOfPath p).bits.getLsbD k = (decide (k < CODE_MAX) && p.getD k false) := by
  rw [← testBit_packNat]
  exact BitVec.getLsbD_ofNat ..

theorem codeBits_codeOfPath {p : List Bool} (h : p.length ≤ CODE_MAX) : codeBits (codeOfPath p) = p := by
  rw [codeBits, codeOfPath_len h]
  refine List.ext_getElem (by simp) fun k hk hk' => ?_
  rw [List.getElem_map, List.getElem_range, codeOfPath_bit, List.getD_eq_getElem p false hk',
    decide_eq_true (hk'.trans_le h), Bool.true_and]

theorem codeOfPath_padded {p : List Bool} (h : p.length ≤ CODE_MAX) {k : Nat} (hk : (codeOfPath p).len.toNat ≤ k) :
    (codeOfPath p).bits.getLsbD k = false := by
  rw [codeOfPath_len h] at hk
  rw [codeOfPath_bit, List.getD_eq_default _ _ hk, Bool.and_false]

/-! ## Paths in the node memory (R161) -/

theorem Reaches.snoc {m : Memory NodeRec} {i j : Nat} {p : List Bool} (h : Reaches m i p j)
    (hj : (nodeRead m j).lf = false) (b : Bool) : Reaches m i (p ++ [b]) (child m j b).toNat := by
  induction p generalizing i with
  | nil => cases h; exact ⟨hj, rfl⟩
  | cons a p ih => exact ⟨h.1, ih h.2⟩

/-- From a leaf no path leads further. -/
theorem Reaches.of_leaf {m : Memory NodeRec} {i j : Nat} {p : List Bool} (h : Reaches m i p j)
    (hi : (nodeRead m i).lf = true) : p = [] ∧ i = j := by
  cases p with
  | nil => exact ⟨rfl, h⟩
  | cons b p => exact absurd (h.1.symm.trans hi) (by decide)

/-- A path that begins with the path to `j` goes on from `j`. -/
theorem Reaches.of_append {m : Memory NodeRec} {i j k : Nat} {p q : List Bool} (h : Reaches m i p j)
    (h' : Reaches m i (p ++ q) k) : Reaches m j q k := by
  induction p generalizing i with
  | nil => cases h; exact h'
  | cons b p ih => exact ih h.2 h'.2

/-- The path of a leaf of the tree leads to a leaf of the memory with its character code. -/
theorem reaches_of_mem_leaves {m : Memory NodeRec} {root i : Nat} {t : CodeTree} (h : Unfolds m i t) {p : List Bool}
    (hp : Reaches m root p i) {x : Nat × List Bool} (hx : x ∈ t.leaves true p) :
    ∃ j, Reaches m root x.2 j ∧ (nodeRead m j).lf = true ∧ (nodeRead m j).cc.toNat = x.1 := by
  induction h generalizing p with
  | @leaf i hl =>
    obtain rfl := List.mem_singleton.1 hx
    exact ⟨i, hp, hl, rfl⟩
  | inner hl _ _ ihl ihr =>
    obtain hx | hx := List.mem_append.1 hx
    · exact ihl (hp.snoc hl false) hx
    · exact ihr (hp.snoc hl true) hx

/-! ## The facts of R168 -/

/-- `NODE` unfolds from `ROOT` into `t`, whose leaves are the used codes, and `CT` holds the paths to them. -/
structure CodedBy (s : State) (t : CodeTree) : Prop where
  unfolds : Unfolds s.node s.root.toNat t
  used : t.codes.Perm (usedCodes s.ft)
  table : Tabulates (t.leaves true []) s.ct

/-- This is what `CV = 1` means where a tree stands. -/
theorem Inv.codedBy {s : State} (h : Inv s) (coded : s.cv = true) (some_tree : s.tk ≠ .noTree) :
    ∃ t, CodedBy s t := by
  obtain ⟨t, ht, hcodes⟩ := h.unfolds (h.control.item2 coded) some_tree
  have hct := (codeTable_of_unfolds ht (codes_length_le hcodes) some_tree).symm.trans (h.codesMade coded)
  exact ⟨t, ht, hcodes, Option.some.inj hct ▸ CodeTree.visitLeaves_tabulates hcodes true true⟩

/-- The empty string is the code of the empty path. -/
theorem emptyCode_eq : emptyCode = codeOfPath [] := rfl

section

variable {s : State} {t : CodeTree} (h : CodedBy s t)
include h

/-- Every record is the code of the path to the character's leaf, or the character has no leaf and its code is empty. -/
theorem CodedBy.ctRead_cases {c : Nat} (hc : c < NSYM) :
    (∃ p, (c, p) ∈ t.leaves true [] ∧ ftRead s.ft c ≠ 0 ∧ ctRead true s.ct c = codeOfPath p) ∨
    (ftRead s.ft c = 0 ∧ ctRead true s.ct c = emptyCode) := by
  have hmem : c ∈ (t.leaves true []).map Prod.fst ↔ ftRead s.ft c ≠ 0 := by
    rw [(CodeTree.leaves_of_used h.used true).mem_iff, mem_usedCodes, and_iff_right hc]
  by_cases hl : c ∈ (t.leaves true []).map Prod.fst
  · obtain ⟨⟨_, p⟩, hp, rfl⟩ := List.mem_map.1 hl
    exact .inl ⟨p, hp, hmem.1 hl, h.table.listed _ hp⟩
  · exact .inr ⟨not_not.1 (hmem.not.1 hl), h.table.unlisted c hl⟩

/-- The paths are shorter than the number of leaves, so they fit the record (R164). -/
theorem CodedBy.length_lt {x : Nat × List Bool} (hx : x ∈ t.leaves true []) : x.2.length < leafCount s.ft := by
  have hlt := CodeTree.length_lt_of_mem_leaves hx
  rwa [List.length_nil, Nat.zero_add, h.used.length_eq] at hlt

theorem CodedBy.length_le {x : Nat × List Bool} (hx : x ∈ t.leaves true []) : x.2.length ≤ CODE_MAX :=
  Nat.le_of_lt_succ ((h.length_lt hx).trans_le (leafCount_le s.ft))

theorem CodedBy.reaches {x : Nat × List Bool} (hx : x ∈ t.leaves true []) :
    ∃ j, Reaches s.node s.root.toNat x.2 j ∧ (nodeRead s.node j).lf = true ∧ (nodeRead s.node j).cc.toNat = x.1 :=
  reaches_of_mem_leaves h.unfolds (p := []) rfl hx

/-- Under an internal root no path is empty. -/
theorem CodedBy.length_pos (hroot : (nodeRead s.node s.root.toNat).lf = false) {x : Nat × List Bool}
    (hx : x ∈ t.leaves true []) : 0 < x.2.length := by
  obtain ⟨j, hj, hleaf, -⟩ := h.reaches hx
  refine List.length_pos_iff.2 fun e => ?_
  rw [e] at hj
  cases hj
  exact absurd (hroot.symm.trans hleaf) (by decide)

/-- Item 1: a character has a code exactly where it is used. -/
theorem CodedBy.len_pos_iff (hroot : (nodeRead s.node s.root.toNat).lf = false) {c : Nat} (hc : c < NSYM) :
    0 < (ctRead true s.ct c).len.toNat ↔ ftRead s.ft c ≠ 0 := by
  obtain ⟨p, hp, used, e⟩ | ⟨unused, e⟩ := h.ctRead_cases hc
  · rw [e, codeOfPath_len (h.length_le hp)]
    exact iff_of_true (h.length_pos hroot hp) used
  · rw [e]
    exact iff_of_false (by decide) (not_not.2 unused)

/-- Item 1: the code of a used character leads to its leaf. -/
theorem CodedBy.code_reaches {c : Nat} (hc : c < NSYM) (used : ftRead s.ft c ≠ 0) :
    ∃ j, Reaches s.node s.root.toNat (codeBits (ctRead true s.ct c)) j ∧ (nodeRead s.node j).lf = true ∧
      (nodeRead s.node j).cc.toNat = c := by
  obtain ⟨p, hp, -, e⟩ | ⟨unused, -⟩ := h.ctRead_cases hc
  · rw [e, codeBits_codeOfPath (h.length_le hp)]
    exact h.reaches hp
  · exact absurd unused used

/-- Item 2: a tree that is one leaf gives the empty string (R166). -/
theorem CodedBy.len_of_single (hL : leafCount s.ft ≤ 1) {c : Nat} (hc : c < NSYM) : (ctRead true s.ct c).len = 0 := by
  obtain ⟨p, hp, -, e⟩ | ⟨-, e⟩ := h.ctRead_cases hc
  · obtain rfl : p = [] := List.length_eq_zero_iff.1 (Nat.lt_one_iff.1 ((h.length_lt hp).trans_le hL))
    rw [e]
    rfl
  · rw [e]
    rfl

/-- Item 3: the bits above the length are 0. -/
theorem CodedBy.padded {c k : Nat} (hc : c < NSYM) (hk : (ctRead true s.ct c).len.toNat ≤ k) :
    (ctRead true s.ct c).bits.getLsbD k = false := by
  obtain ⟨p, hp, -, e⟩ | ⟨-, e⟩ := h.ctRead_cases hc
  · rw [e] at hk ⊢
    exact codeOfPath_padded (h.length_le hp) hk
  · rw [e, emptyCode_eq] at hk ⊢
    exact codeOfPath_padded (Nat.zero_le _) hk

/-- Item 5: the codes are complete. -/
theorem CodedBy.complete :
    ((usedCodes s.ft).map fun c => 2 ^ (CODE_MAX - (ctRead true s.ct c).len.toNat)).sum = 2 ^ CODE_MAX := by
  have hperm := (CodeTree.leaves_of_used h.used true).symm
  have hweights : (t.leaves true []).map (fun x => 2 ^ (CODE_MAX - (ctRead true s.ct x.1).len.toNat)) =
      (t.leaves true []).map fun x => 2 ^ (CODE_MAX - x.2.length) :=
    List.map_congr_left fun x hx => by rw [h.table.listed x hx, codeOfPath_len (h.length_le hx)]
  rw [(hperm.map _).sum_eq, List.map_map, Function.comp_def, hweights]
  exact t.leaves_kraft (p := []) ((Nat.zero_add _).trans_le (codes_length_le h.used))

end

/-- R168 items 1, 2, 3 and 5 in every state of the invariant with `CV = 1`. -/
theorem Inv.codeFacts {s : State} (h : Inv s) (coded : s.cv = true) : CodeFacts s := by
  by_cases no_tree : s.tk = .noTree
  · have hct : s.ct = [] := by
      have hmade := h.codesMade coded
      rw [codeTable, if_pos no_tree] at hmade
      exact (Option.some.inj hmade).symm
    have hread (c : Nat) : ctRead s.cv s.ct c = emptyCode := by rw [coded, hct]; rfl
    constructor <;> simp [hread, no_tree, emptyCode]
  · obtain ⟨t, ht⟩ := h.codedBy coded no_tree
    have built := h.control.item2 coded
    have hroot (general : s.tk = .general) := (h.root_internal built general).2
    constructor <;> simp only [coded]
    case used => exact fun general c hc => ht.len_pos_iff (hroot general) hc
    case paths => exact fun _ c hc used => ht.code_reaches hc used
    case empty =>
      intro hk c hc
      obtain ⟨-, -, hkind, -⟩ := h.treeBuilt built
      have hn : ¬ 2 ≤ (buildTree s.ft).n := fun hn => hk (hkind.trans (treeKindOf_eq_general.2 hn))
      have hcount := buildTree_n s.ft
      exact ht.len_of_single (by omega) hc
    case padded => exact fun c hc k hk => ht.padded hc hk
    case complete => exact fun _ => ht.complete

/-- Settles O32. The codes are the paths to the leaves of the built tree, which every walk leaves in the table. -/
theorem codesArePathsOfTheTree : Obligations.CodesArePathsOfTheTree :=
  ⟨fun _ h coded => h.codeFacts coded,
    fun _ guarded leftFirst h built some_tree => h.codeTable_eq_visit built some_tree guarded leftFirst⟩

/-- Settles O34. No path goes on beyond the leaf of `c`, so a code that begins with the code of `c` leads to the same
leaf. -/
theorem codesArePrefixFree : Obligations.CodesArePrefixFree := by
  rintro s c d h coded general hne hc hd ⟨rest, e⟩
  have facts := h.codeFacts coded
  obtain ⟨j, hj, hleaf, hjc⟩ := facts.paths general _ c.isLt ((facts.used general _ c.isLt).1 hc)
  obtain ⟨k, hk, -, hkd⟩ := facts.paths general _ d.isLt ((facts.used general _ d.isLt).1 hd)
  rw [← e] at hk
  obtain ⟨-, rfl⟩ := (hj.of_append hk).of_leaf hleaf
  exact hne (BitVec.eq_of_toNat_eq (hjc.symm.trans hkd))

end Sys2Proof.Machine
end

section
/-! PROOFS. `RDC` (R167). -/

namespace Sys2Proof

theorem decode_rdc (sym : Sym) (wd : Count) : decode ⟨0x7000 + sym.setWidth 16, wd⟩ = .ok (.rdc sym) := by
  simp [decode, opField_symWord, rsvField_symWord, decodeS_symWord]

end Sys2Proof

namespace Sys2Proof.Machine

/-- The fields of the data of `RDC` (R78). Adding up their widths would hide where the code begins, hence
`-Nat.reduceAdd`. -/
theorem codeData_len (r : CodeRec) : (codeData r).extractLsb' 0 8 = r.len := by
  simp (disch := omega) [codeData, BitVec.extractLsb'_append_eq_of_add_le, -Nat.reduceAdd]

theorem codeData_bit (r : CodeRec) (k : Nat) : (codeData r).getLsbD (8 + k) = r.bits.getLsbD k := by
  simp [codeData, BitVec.getLsbD_append, -Nat.reduceAdd, -BitVec.getLsbD_eq_getElem]

/-- Settles O36. The data is the code record, whose fields stand at the places R78 lists; without a valid code table
the command fails, and so does a word of its opcode with a bit above the symbol. -/
theorem rdcReadsOneCode : Obligations.RdcReadsOneCode := by
  refine ⟨fun sym s coded => ?_, fun sym s uncoded => execRdc_of_no_codes uncoded sym,
    fun sym wd s => issue_of_decode (decode_rdc sym wd) s,
    fun _ s hop harg => issue_of_bit_above_symbol hop rfl harg s⟩
  obtain ⟨uncoded, -⟩ | ⟨-, e⟩ := execRdc_cases sym s
  · cases coded.symm.trans uncoded
  · exact ⟨_, e, codeData_len _, fun k _ => codeData_bit _ k⟩

end Sys2Proof.Machine
end

section
/-! PROOFS. The commands of the decoder, each by itself: the words that present them (R72, R84), the data of a symbol
(R78), and what each leaves and answers (R181 to R183). -/

namespace Sys2Proof

theorem decode_dstart (wd : Count) : decode ⟨0x8000, wd⟩ = .ok .dstart :=
  (Machine.decode_wd_irrelevant (by decide) wd 0).trans (by decide)

theorem decode_dend (wd : Count) : decode ⟨0xA000, wd⟩ = .ok .dend :=
  (Machine.decode_wd_irrelevant (by decide) wd 0).trans (by decide)

theorem decode_dbit (b : Bool) (wd : Count) : decode ⟨if b then 0x9001 else 0x9000, wd⟩ = .ok (.dbit b) := by
  cases b <;> exact (Machine.decode_wd_irrelevant (by decide) wd 0).trans (by decide)

theorem encodeWord_dbit (b : Bool) : encodeWord (.dbit b) = if b then 0x9001 else 0x9000 := by
  cases b <;> decide

end Sys2Proof

namespace Sys2Proof.Machine

/-- The symbol stands above the bit that says there is one (R78). -/
theorem symbolData_toNat (c : Sym) : (symbolData c).toNat = 2 * c.toNat + 1 := by
  rw [symbolData, BitVec.toNat_setWidth_of_le (by decide), BitVec.toNat_append,
    ← Nat.shiftLeft_add_eq_or_of_lt (by decide), Nat.shiftLeft_eq, Nat.mul_comm]
  rfl

/-- Where a general tree is built, `DSTART` begins at the root. -/
theorem exec_dstart_of_general {s : State} (built : s.tv = true) (general : s.tk = .general) :
    exec .dstart s = .next (State.succeeded { s with da := true, dcur := s.root } 0) := by
  obtain ⟨unbuilt, -⟩ | ⟨-, other, -⟩ | ⟨-, -, e⟩ := execDstart_cases s
  · cases built.symm.trans unbuilt
  · exact absurd general other
  · exact e

/-- Settles O37. The three outcomes exclude each other, and the word 0x8000 alone of its opcode is legal. -/
theorem dstartBeginsAtTheRoot : Obligations.DstartBeginsAtTheRoot := by
  refine ⟨fun s => exec_dstart_of_general, fun s unbuilt => ?_, fun s built other => ?_,
    fun wd s => issue_of_decode (decode_dstart wd) s,
    fun _ s hop harg => issue_of_bit_above_operand hop (Nat.pos_of_ne_zero harg) s⟩
  · obtain ⟨-, e⟩ | ⟨built, -⟩ | ⟨built, -⟩ := execDstart_cases s
    · exact e
    all_goals cases built.symm.trans unbuilt
  · obtain ⟨unbuilt, -⟩ | ⟨-, -, e⟩ | ⟨-, general, -⟩ := execDstart_cases s
    · cases built.symm.trans unbuilt
    · exact e
    · exact absurd general other

/-- What a decode in progress changes: it moves `DCUR` and gives responses. -/
def State.descended (s : State) (cur : NodeIdx) (rs : List Response) : State :=
  { s with dcur := cur, hostOut := s.hostOut ++ rs }

@[simp] theorem State.descended_descended (s : State) (cur cur' : NodeIdx) (rs rs' : List Response) :
    (s.descended cur rs).descended cur' rs' = s.descended cur' (rs ++ rs') := by
  simp [State.descended]

@[simp] theorem State.descended_node (s : State) (cur : NodeIdx) (rs : List Response) :
    (s.descended cur rs).node = s.node := rfl

@[simp] theorem State.descended_root (s : State) (cur : NodeIdx) (rs : List Response) :
    (s.descended cur rs).root = s.root := rfl

@[simp] theorem State.descended_dcur (s : State) (cur : NodeIdx) (rs : List Response) :
    (s.descended cur rs).dcur = cur := rfl

@[simp] theorem State.descended_hostOut (s : State) (cur : NodeIdx) (rs : List Response) :
    (s.descended cur rs).hostOut = s.hostOut ++ rs := rfl

/-- Back at the node it started from, a decode has given responses and nothing else. -/
theorem State.descended_of_dcur_eq {s : State} {cur : NodeIdx} (h : s.dcur = cur) (rs : List Response) :
    s.descended cur rs = { s with hostOut := s.hostOut ++ rs } := by
  rw [← h]
  rfl

section

variable {s : State} {b : Bool} (active : s.da = true)
include active

/-- At a leaf `DBIT` reports the character and returns to the root. -/
theorem exec_dbit_of_leaf (leaf : (nodeRead s.node (child s.node s.dcur.toNat b).toNat).lf = true) :
    exec (.dbit b) s =
      .next (s.descended s.root [⟨.ok, symbolData (nodeRead s.node (child s.node s.dcur.toNat b).toNat).cc⟩]) := by
  obtain ⟨idle, -⟩ | ⟨-, -, e⟩ | ⟨-, inner, -⟩ := execDbit_cases b s
  · cases active.symm.trans idle
  · exact e
  · cases leaf.symm.trans inner

/-- At an internal node `DBIT` moves there and reports nothing. -/
theorem exec_dbit_of_inner (inner : (nodeRead s.node (child s.node s.dcur.toNat b).toNat).lf = false) :
    exec (.dbit b) s = .next (s.descended (child s.node s.dcur.toNat b) [⟨.ok, 0⟩]) := by
  obtain ⟨idle, -⟩ | ⟨-, leaf, -⟩ | ⟨-, -, e⟩ := execDbit_cases b s
  · cases active.symm.trans idle
  · cases leaf.symm.trans inner
  · exact e

theorem exec_dend_of_root (atRoot : s.dcur = s.root) :
    exec .dend s = .next (State.succeeded { s with da := false, dcur := 0 } 0) := by
  obtain ⟨idle, -⟩ | ⟨-, midPath, -⟩ | ⟨-, -, e⟩ := execDend_cases s
  · cases active.symm.trans idle
  · exact absurd atRoot midPath
  · exact e

theorem exec_dend_of_midPath (midPath : s.dcur ≠ s.root) : exec .dend s = .next (s.failedWith .corrupt) := by
  obtain ⟨idle, -⟩ | ⟨-, -, e⟩ | ⟨-, atRoot, -⟩ := execDend_cases s
  · cases active.symm.trans idle
  · exact e
  · exact absurd atRoot midPath

end

/-- Settles O38. The child for the bit is a leaf, whose data carries its character, or an internal node; of the words
of the opcode those with a bit above bit 0 are illegal. -/
theorem dbitDescendsOneEdge : Obligations.DbitDescendsOneEdge := by
  refine ⟨fun b s nxt active hnxt => ?_, fun b s idle => execDbit_of_no_decode idle b,
    fun b wd s => issue_of_decode (decode_dbit b wd) s,
    fun _ s hop harg => issue_of_bit_above_operand hop (show 2 ^ 1 ≤ _ by omega) s⟩
  obtain rfl : nxt = child s.node s.dcur.toNat b := by cases b <;> exact hnxt
  exact ⟨exec_dbit_of_inner active, fun leaf => ⟨_, exec_dbit_of_leaf active leaf, symbolData_toNat _⟩⟩

/-- Settles O39. The three outcomes exclude each other, and the word 0xA000 alone of its opcode is legal. -/
theorem dendClosesAtTheRoot : Obligations.DendClosesAtTheRoot := by
  refine ⟨fun s => exec_dend_of_root, fun s => exec_dend_of_midPath, fun s idle => ?_,
    fun wd s => issue_of_decode (decode_dend wd) s,
    fun _ s hop harg => issue_of_bit_above_operand hop (Nat.pos_of_ne_zero harg) s⟩
  obtain ⟨-, e⟩ | ⟨active, -⟩ | ⟨active, -⟩ := execDend_cases s
  · exact e
  all_goals cases active.symm.trans idle

end Sys2Proof.Machine
end

section
/-! PROOFS. A run of `DBIT` commands: it computes the decoding function (R184), and along the code of a character it
reports that character at the last bit (R185). -/

namespace Sys2Proof.Machine

/-! ## Command sequences -/

theorem runAll_cons {i : Instr} {s t : State} (h : issue (encode i) s = .next t) (is : List Instr) :
    runAll (i :: is) s = runAll is t := by
  simp only [runAll, h]

theorem runAll_append {is : List Instr} {s t : State} (h : runAll is s = some t) (js : List Instr) :
    runAll (is ++ js) s = runAll js t := by
  induction is generalizing s with
  | nil => cases h; rfl
  | cons i is ih =>
    simp only [runAll, List.cons_append] at h ⊢
    split at h
    · exact ih h
    all_goals cases h

theorem issue_encode_dstart (s : State) : issue (encode .dstart) s = exec .dstart s :=
  issue_of_decode (decode_dstart _) s

theorem issue_encode_dbit (b : Bool) (s : State) : issue (encode (.dbit b)) s = exec (.dbit b) s :=
  issue_of_decode (by rw [encode, encodeWord_dbit, decode_dbit]) s

theorem issue_encode_dend (s : State) : issue (encode .dend) s = exec .dend s := issue_of_decode (decode_dend _) s

section
/-! One `DBIT` at the head of a run. -/

variable {s : State} {b : Bool} (active : s.da = true) (bits : List Bool)
include active

theorem runAll_dbits_of_leaf (leaf : (nodeRead s.node (child s.node s.dcur.toNat b).toNat).lf = true) :
    runAll (dbits (b :: bits)) s = runAll (dbits bits)
      (s.descended s.root [⟨.ok, symbolData (nodeRead s.node (child s.node s.dcur.toNat b).toNat).cc⟩]) :=
  runAll_cons ((issue_encode_dbit b s).trans (exec_dbit_of_leaf active leaf)) _

theorem runAll_dbits_of_inner (inner : (nodeRead s.node (child s.node s.dcur.toNat b).toNat).lf = false) :
    runAll (dbits (b :: bits)) s =
      runAll (dbits bits) (s.descended (child s.node s.dcur.toNat b) [⟨.ok, 0⟩]) :=
  runAll_cons ((issue_encode_dbit b s).trans (exec_dbit_of_inner active inner)) _

end

theorem runAll_dbits_nil (s : State) : runAll (dbits []) s = some (s.descended s.dcur []) := by
  rw [State.descended_of_dcur_eq rfl, List.append_nil]
  rfl

/-! ## Symbols reported -/

theorem symbolReported_symbol (c : Sym) : symbolReported ⟨.ok, symbolData c⟩ = some c := by
  have hbit : (symbolData c).getLsbD 0 = true := by
    simp [symbolData, BitVec.getLsbD_append, -Nat.reduceAdd, -BitVec.getLsbD_eq_getElem]
  have hcode : (symbolData c).extractLsb' 1 8 = c := by
    simp (disch := omega) [symbolData, BitVec.extractLsb'_setWidth_of_le, BitVec.extractLsb'_append_eq_of_le,
      -Nat.reduceAdd]
  rw [symbolReported, if_pos hbit, hcode]

theorem symbolReported_none : symbolReported ⟨.ok, 0⟩ = none := by simp [symbolReported]

/-! ## Any bits (R184) -/

/-- The bits take a decode in `s` to the node `cur` with the responses `rs`, as `dec` has it. -/
structure Decodes (s : State) (bits : List Bool) (cur : NodeIdx) (rs : List Response) : Prop where
  length : rs.length = bits.length
  ok : ∀ r ∈ rs, r.status = .ok
  symbols : rs.filterMap symbolReported = (decBits s.node s.root.toNat s.dcur.toNat bits).1
  ends : cur.toNat = (decBits s.node s.root.toNat s.dcur.toNat bits).2

theorem Decodes.nil (s : State) : Decodes s [] s.dcur [] := ⟨rfl, nofun, rfl, rfl⟩

theorem Decodes.leaf {s : State} {b : Bool} {bits : List Bool} {cur : NodeIdx} {rs rs' : List Response}
    (leaf : (nodeRead s.node (child s.node s.dcur.toNat b).toNat).lf = true)
    (h : Decodes (s.descended s.root rs') bits cur rs) :
    Decodes s (b :: bits) cur
      (⟨.ok, symbolData (nodeRead s.node (child s.node s.dcur.toNat b).toNat).cc⟩ :: rs) where
  length := congrArg (· + 1) h.length
  ok := List.forall_mem_cons.2 ⟨rfl, h.ok⟩
  symbols := by
    rw [List.filterMap_cons_some (symbolReported_symbol _), h.symbols]
    simp [decBits, leaf]
  ends := by
    rw [h.ends]
    simp [decBits, leaf]

theorem Decodes.inner {s : State} {b : Bool} {bits : List Bool} {cur : NodeIdx} {rs rs' : List Response}
    (inner : (nodeRead s.node (child s.node s.dcur.toNat b).toNat).lf = false)
    (h : Decodes (s.descended (child s.node s.dcur.toNat b) rs') bits cur rs) :
    Decodes s (b :: bits) cur (⟨.ok, 0⟩ :: rs) where
  length := congrArg (· + 1) h.length
  ok := List.forall_mem_cons.2 ⟨rfl, h.ok⟩
  symbols := by
    rw [List.filterMap_cons_none symbolReported_none, h.symbols]
    simp [decBits, inner]
  ends := by
    rw [h.ends]
    simp [decBits, inner]

/-- In a decode every run of `DBIT` commands completes, as `dec` has it. -/
theorem exists_runAll_dbits {s : State} (active : s.da = true) (bits : List Bool) :
    ∃ cur rs, runAll (dbits bits) s = some (s.descended cur rs) ∧ Decodes s bits cur rs := by
  induction bits generalizing s with
  | nil => exact ⟨_, _, runAll_dbits_nil s, .nil s⟩
  | cons b bits ih =>
    cases hl : (nodeRead s.node (child s.node s.dcur.toNat b).toNat).lf with
    | true =>
      obtain ⟨cur, rs, hrun, h⟩ := ih (s := s.descended s.root [⟨.ok, symbolData _⟩]) active
      refine ⟨cur, _, ?_, h.leaf hl⟩
      rw [runAll_dbits_of_leaf active bits hl, hrun, State.descended_descended, List.singleton_append]
    | false =>
      obtain ⟨cur, rs, hrun, h⟩ := ih (s := s.descended _ [⟨.ok, 0⟩]) active
      refine ⟨cur, _, ?_, h.inner hl⟩
      rw [runAll_dbits_of_inner active bits hl, hrun, State.descended_descended, List.singleton_append]

/-- In a decode `DEND` answers whether the decode stands at the root (R183). -/
theorem exists_runAll_dend {s : State} (active : s.da = true) :
    ∃ t last, runAll [.dend] s = some t ∧ t.hostOut = s.hostOut ++ [last] ∧
      last.status = if s.dcur = s.root then .ok else .corrupt := by
  by_cases atRoot : s.dcur = s.root
  · rw [if_pos atRoot, runAll_cons ((issue_encode_dend s).trans (exec_dend_of_root active atRoot))]
    exact ⟨_, _, rfl, rfl, rfl⟩
  · rw [if_neg atRoot, runAll_cons ((issue_encode_dend s).trans (exec_dend_of_midPath active atRoot))]
    exact ⟨_, _, rfl, rfl, rfl⟩

/-- Settles O40. `DSTART` opens the decode at the root, every bit is one step of `dec`, and `DEND` looks at the node
where the bits end. -/
theorem decodeFollowsTheRecursiveFunction : Obligations.DecodeFollowsTheRecursiveFunction := by
  intro s bits _ built general
  have hstart := (issue_encode_dstart s).trans (exec_dstart_of_general built general)
  obtain ⟨cur, rs, hrun, h⟩ :=
    exists_runAll_dbits (s := State.succeeded { s with da := true, dcur := s.root } 0) rfl bits
  obtain ⟨t, last, hend, hout, hlast⟩ :=
    exists_runAll_dend (s := (State.succeeded { s with da := true, dcur := s.root } 0).descended cur rs) rfl
  refine ⟨t, ⟨.ok, 0⟩ :: rs, last, ?_, ?_, congrArg (· + 1) h.length, List.forall_mem_cons.2 ⟨rfl, h.ok⟩,
    (List.filterMap_cons_none symbolReported_none).trans h.symbols, hlast.trans ?_⟩
  · exact (runAll_append ((runAll_cons hstart _).trans hrun) _).trans hend
  · simp [hout]
  · simp [← BitVec.toNat_inj, h.ends]

/-! ## The bits of codes (R185) -/

/-- The responses along a code: `n` bits that report nothing, and the bit that reports `c`. -/
def reportAfter (n : Nat) (c : Sym) : List Response := List.replicate n ⟨.ok, 0⟩ ++ [⟨.ok, symbolData c⟩]

theorem reportAfter_ok {n : Nat} {c : Sym} : ∀ r ∈ reportAfter n c, r.status = .ok :=
  List.forall_mem_append.2 ⟨fun _ hr => List.eq_of_mem_replicate hr ▸ rfl, List.forall_mem_singleton.2 rfl⟩

theorem filterMap_reportAfter (n : Nat) (c : Sym) : (reportAfter n c).filterMap symbolReported = [c] := by
  rw [reportAfter, List.filterMap_append, List.filterMap_replicate_of_none symbolReported_none]
  exact List.filterMap_cons_some (symbolReported_symbol c)

/-- Along a path to a leaf nothing is reported but, at the last bit, the character of the leaf. -/
theorem runAll_dbits_of_reaches {s : State} {b : Bool} {p : List Bool} {j : Nat} (active : s.da = true)
    (h : Reaches s.node s.dcur.toNat (b :: p) j) (leaf : (nodeRead s.node j).lf = true) :
    runAll (dbits (b :: p)) s = some (s.descended s.root (reportAfter p.length (nodeRead s.node j).cc)) := by
  induction p generalizing s b with
  | nil =>
    obtain ⟨-, rfl⟩ := h
    rw [runAll_dbits_of_leaf active [] leaf]
    rfl
  | cons b' p ih =>
    obtain ⟨-, h⟩ := h
    rw [runAll_dbits_of_inner active _ h.1,
      ih (s := s.descended (child s.node s.dcur.toNat b) [⟨.ok, 0⟩]) active h leaf, State.descended_descended]
    rfl

/-- A general tree is built and coded, and a decode stands at its root. -/
structure ReadyToDecode (s : State) : Prop where
  inv : Inv s
  general : s.tk = .general
  coded : s.cv = true
  active : s.da = true
  atRoot : s.dcur = s.root

/-- A decode that comes back to the root is ready for the next code. -/
theorem ReadyToDecode.descended {s : State} (h : ReadyToDecode s) (rs : List Response) :
    ReadyToDecode (s.descended s.root rs) := by
  rw [State.descended_of_dcur_eq h.atRoot]
  exact { h with inv := h.inv.withHost _ _ _ }

/-- The code of a used character is not empty and leads to its leaf, so its last bit reports the character. -/
theorem ReadyToDecode.runAll_code {s : State} (h : ReadyToDecode s) {c : Sym} (used : ftRead s.ft c.toNat ≠ 0) :
    runAll (dbits (codeBits (ctRead s.cv s.ct c.toNat))) s =
      some (s.descended s.root (reportAfter ((ctRead s.cv s.ct c.toNat).len.toNat - 1) c)) := by
  have facts := h.inv.codeFacts h.coded
  obtain ⟨j, hj, leaf, hjc⟩ := facts.paths h.general _ c.isLt used
  obtain rfl : (nodeRead s.node j).cc = c := BitVec.eq_of_toNat_eq hjc
  have hpos := (facts.used h.general _ (nodeRead s.node j).cc.isLt).2 used
  have hlen : (codeBits (ctRead s.cv s.ct (nodeRead s.node j).cc.toNat)).length =
      (ctRead s.cv s.ct (nodeRead s.node j).cc.toNat).len.toNat := by simp [codeBits]
  rw [← hlen] at hpos ⊢
  obtain ⟨b, p, e⟩ := List.exists_cons_of_length_pos hpos
  rw [← h.atRoot, e] at hj
  rw [e]
  exact runAll_dbits_of_reaches h.active hj leaf

/-- The codes of a text, one after the other, report the text. -/
theorem ReadyToDecode.exists_runAll_text {s : State} (h : ReadyToDecode s) {T : Text}
    (used : ∀ c ∈ T, ftRead s.ft c.toNat ≠ 0) :
    ∃ rs, runAll (dbits (T.flatMap fun c => codeBits (ctRead s.cv s.ct c.toNat))) s =
        some (s.descended s.root rs) ∧
      (∀ r ∈ rs, r.status = .ok) ∧ rs.filterMap symbolReported = T := by
  induction T generalizing s with
  | nil => exact ⟨[], h.atRoot ▸ runAll_dbits_nil s, nofun, rfl⟩
  | cons c T ih =>
    obtain ⟨usedc, usedT⟩ := List.forall_mem_cons.1 used
    obtain ⟨n, hcode⟩ : ∃ n, runAll (dbits (codeBits (ctRead s.cv s.ct c.toNat))) s =
        some (s.descended s.root (reportAfter n c)) := ⟨_, h.runAll_code usedc⟩
    obtain ⟨rs, hrun, hok, hsymbols⟩ := ih (h.descended (reportAfter n c)) usedT
    refine ⟨reportAfter n c ++ rs, ?_, List.forall_mem_append.2 ⟨reportAfter_ok, hok⟩, ?_⟩
    · rw [List.flatMap_cons, dbits, List.map_append, ← State.descended_descended]
      exact (runAll_append hcode _).trans hrun
    · rw [List.filterMap_append, filterMap_reportAfter, hsymbols, List.singleton_append]

/-- Settles O41. A code is the path from the root to the leaf of its character, where the decode returns to the root;
so the codes of a text report its characters one by one, and `DEND` finds the decode at the root. -/
theorem decoderInvertsCoder : Obligations.DecoderInvertsCoder := by
  refine ⟨fun s c inv general coded active atRoot used => ?_, fun s T inv general coded active atRoot used => ?_⟩
  · have h : ReadyToDecode s := ⟨inv, general, coded, active, atRoot⟩
    exact ⟨symbolData c, symbolData_toNat c, State.descended_of_dcur_eq atRoot _ ▸ h.runAll_code used⟩
  · have h : ReadyToDecode s := ⟨inv, general, coded, active, atRoot⟩
    obtain ⟨rs, hrun, hok, hsymbols⟩ := h.exists_runAll_text used
    have hend := (issue_encode_dend _).trans
      (exec_dend_of_root (s := s.descended s.root rs) active rfl)
    exact ⟨rs, (runAll_append hrun _).trans (runAll_cons hend []), hok, hsymbols⟩

end Sys2Proof.Machine
end

section
/-! PROOFS. The header (R201 to R204): made of a frequency table it is a line of digits and single spaces, and the host
that parses it finds the numbers it was made of (R216). -/

namespace Sys2Proof.Machine

/-! ## Numbers -/

theorem isDigit_of_mem_decimal {n : Nat} {ch : Char} (h : ch ∈ decimal n) : ch.isDigit = true :=
  Nat.isDigit_of_mem_toDigits (by decide) (by decide) h

theorem readNumber_decimal (n : Nat) : readNumber (decimal n) = some n := by
  have hne : decimal n ≠ [] := Nat.toDigits_ne_nil
  have hvalue : digitsValue (decimal n) = n :=
    (Nat.ofDigitChars_eq_foldl ..).symm.trans Nat.ofDigitChars_ten_toDigits
  rw [readNumber, if_neg hne, if_pos (List.all_eq_true.2 fun _ => isDigit_of_mem_decimal), hvalue]

/-! ## Tokens -/

/-- A line without a space is one token, and its end is at the first space. -/
theorem tokens_of_no_space {t : List Char} (h : ' ' ∉ t) : tokens t = [t] := by
  induction t with
  | nil => rfl
  | cons ch t ih =>
    obtain ⟨hch, ht⟩ := not_or.1 (List.mem_cons.not.1 h)
    simp [tokens, ih ht, Ne.symm hch]

theorem tokens_append_space {t : List Char} (h : ' ' ∉ t) (rest : List Char) :
    tokens (t ++ ' ' :: rest) = t :: tokens rest := by
  induction t with
  | nil => rfl
  | cons ch t ih =>
    obtain ⟨hch, ht⟩ := not_or.1 (List.mem_cons.not.1 h)
    simp [tokens, ih ht, Ne.symm hch]

theorem space_not_mem_decimal (n : Nat) : ' ' ∉ decimal n :=
  fun h => absurd (isDigit_of_mem_decimal h) (by decide)

/-- The numbers of a table as tokens, code and count in turn. -/
def pairTokens (F : FreqTable) : List (List Char) := F.flatMap fun x => [decimal x.1, decimal x.2]

theorem tokens_headerText {F : FreqTable} (h : F ≠ []) : tokens (headerText F) = pairTokens F := by
  fun_induction headerText F with
  | case1 => exact absurd rfl h
  | case2 c n => rw [tokens_append_space (space_not_mem_decimal c), tokens_of_no_space (space_not_mem_decimal n)]; rfl
  | case3 c n F hF ih =>
    rw [tokens_append_space (space_not_mem_decimal c), tokens_append_space (space_not_mem_decimal n), ih hF]
    rfl

theorem readPairs_pairTokens {F : FreqTable} (h : ∀ x ∈ F, x.1 < NSYM) : readPairs (pairTokens F) = some F := by
  induction F with
  | nil => rfl
  | cons x F ih =>
    obtain ⟨hx, hF⟩ := List.forall_mem_cons.1 h
    change readPairs (decimal x.1 :: decimal x.2 :: pairTokens F) = _
    simp [readPairs, readNumber_decimal, ih hF, hx]

/-! ## The line -/

theorem headerText_ne_nil {F : FreqTable} (h : F ≠ []) : headerText F ≠ [] := by
  fun_cases headerText F with
  | case1 => exact absurd rfl h
  | case2 => simp
  | case3 => simp

/-- The header is one line (R217). -/
theorem newline_not_mem_headerText (F : FreqTable) : '\n' ∉ headerText F := by
  have hdec (n : Nat) : '\n' ∉ decimal n := fun h => absurd (isDigit_of_mem_decimal h) (by decide)
  fun_induction headerText F with
  | case1 => exact List.not_mem_nil
  | case2 c n => simp [hdec]
  | case3 c n F _ ih => simp [hdec, ih]

/-- Settles O51. The empty line is the empty table (R202); any other splits into the numbers it was made of. -/
theorem headerRoundTrip : Obligations.HeaderRoundTrip := by
  intro F hF
  by_cases hne : F = []
  · rw [hne]
    rfl
  · rw [parseHeader, if_neg (headerText_ne_nil hne), tokens_headerText hne,
      readPairs_pairTokens fun x hx => (hF.2 x hx).1]

end Sys2Proof.Machine
end

section
/-! PROOFS. The table of a text (R200): its pairs are the characters that occur, with their numbers. -/

namespace Sys2Proof.Machine

theorem mem_countTable {T : Text} {x : Nat × Nat} :
    x ∈ countTable T ↔ x.1 < NSYM ∧ countOf T x.1 ≠ 0 ∧ x.2 = countOf T x.1 := by
  obtain ⟨c, n⟩ := x
  simp only [countTable, List.mem_filterMap, List.mem_range, Option.ite_none_left_eq_some, Option.some.injEq,
    Prod.mk.injEq]
  constructor
  · rintro ⟨_, hc, used, rfl, rfl⟩
    exact ⟨hc, used, rfl⟩
  · rintro ⟨hc, used, rfl⟩
    exact ⟨c, hc, used, rfl, rfl⟩

theorem countTable_isTable (T : Text) : (countTable T).isTable := by
  refine ⟨List.Pairwise.filterMap _ (fun c d hcd x hx y hy => ?_) List.pairwise_lt_range, fun x hx => ?_⟩
  · obtain ⟨-, ⟨⟩⟩ := Option.ite_none_left_eq_some.1 hx
    obtain ⟨-, ⟨⟩⟩ := Option.ite_none_left_eq_some.1 hy
    exact hcd
  · obtain ⟨hc, used, e⟩ := mem_countTable.1 hx
    exact ⟨hc, e ▸ used⟩

theorem countTable_fits {T : Text} (h : ∀ c, c < NSYM → countOf T c < 2 ^ FREQ_W) : (countTable T).fits = true :=
  List.all_eq_true.2 fun x hx => by
    obtain ⟨hc, -, e⟩ := mem_countTable.1 hx
    exact decide_eq_true (e ▸ h _ hc)

theorem countOf_ne_zero {T : Text} {c : Sym} (h : c ∈ T) : countOf T c.toNat ≠ 0 :=
  Nat.pos_iff_ne_zero.1 (List.countP_pos_iff.2 ⟨c, h, beq_self_eq_true _⟩)

/-- A text of one character, as often as it occurs. -/
theorem replicate_countOf {T : Text} {c : Sym} (h : ∀ d ∈ T, d = c) : List.replicate (countOf T c.toNat) c = T := by
  have hlength : countOf T c.toNat = T.length := List.countP_eq_length.2 fun d hd => by simp [h d hd]
  rw [hlength, ← List.eq_replicate_of_mem h]

end Sys2Proof.Machine
end

section
/-! PROOFS. The host's runs (R58, R85, R219): loading a table and building its tree, reading the codes of a text, and a
decode from `DSTART` to `DEND`. -/

namespace Sys2Proof

theorem decode_build (wd : Count) : decode ⟨0x4000, wd⟩ = .ok .build :=
  (Machine.decode_wd_irrelevant (by decide) wd 0).trans (by decide)

theorem decode_gencode (wd : Count) : decode ⟨0x6000, wd⟩ = .ok .gencode :=
  (Machine.decode_wd_irrelevant (by decide) wd 0).trans (by decide)

end Sys2Proof

namespace Sys2Proof.Machine

theorem issue_encode_clr (s : State) : issue (encode .clr) s = .next (s.clearAll.succeeded 0) :=
  issue_of_decode (decode_eq_clr.2 rfl) s

theorem issue_encode_ldf (sym : Sym) (val : Count) (s : State) :
    issue (encode (.ldf sym val)) s = .next (State.succeeded { s.dropTree with ft := ftWrite s.ft sym.toNat val } 0) :=
  issue_of_decode (decode_ldf sym val) s

theorem issue_encode_build (s : State) : issue (encode .build) s =
    .next ((s.withTree (buildTree s.ft)).succeeded (buildData (s.withTree (buildTree s.ft)))) :=
  issue_of_decode (decode_build _) s

theorem issue_encode_gencode (s : State) : issue (encode .gencode) s = exec .gencode s :=
  issue_of_decode (decode_gencode _) s

theorem issue_encode_rdn (idx : NodeIdx) (s : State) : issue (encode (.rdn idx)) s = exec (.rdn idx) s :=
  issue_of_decode (decode_rdn idx _) s

theorem issue_encode_rdc (sym : Sym) (s : State) : issue (encode (.rdc sym)) s = exec (.rdc sym) s :=
  issue_of_decode (decode_rdc sym _) s

theorem drive_of_runAll {is : List Instr} {s t : State} (h : runAll is { s with hostOut := [] } = some t) :
    drive is s = some (t, t.hostOut) := by
  rw [drive, h]
  rfl

/-! ## Loading and building -/

/-- The `LDF` commands of a table with rising codes write its pairs and nothing else (R85). -/
theorem exists_runAll_ldf {F : FreqTable} (hF : F.isTable) {s : State} (hs : Inv s) :
    ∃ t, runAll (F.map fun x => .ldf (BitVec.ofNat 8 x.1) (BitVec.ofNat 32 x.2)) s = some t ∧ Inv t ∧
      (∀ x ∈ F, ftRead t.ft x.1 = BitVec.ofNat 32 x.2) ∧
      ∀ c, (∀ x ∈ F, c ≠ x.1) → ftRead t.ft c = ftRead s.ft c := by
  induction F generalizing s with
  | nil => exact ⟨s, rfl, hs, nofun, fun _ _ => rfl⟩
  | cons x F ih =>
    obtain ⟨hrising, hpairs⟩ := hF
    obtain ⟨hx, hrising⟩ := List.pairwise_cons.1 hrising
    obtain ⟨⟨hlt, -⟩, hpairs⟩ := List.forall_mem_cons.1 hpairs
    have hcode : (BitVec.ofNat 8 x.1).toNat = x.1 := (BitVec.toNat_ofNat x.1 8).trans (Nat.mod_eq_of_lt hlt)
    have hissue := issue_encode_ldf (BitVec.ofNat 8 x.1) (BitVec.ofNat 32 x.2) s
    obtain ⟨t, hrun, ht, hin, hout⟩ := ih ⟨hrising, hpairs⟩ (issue_keeps_inv hs hissue)
    simp only [hcode, State.succeeded] at hout
    refine ⟨t, (runAll_cons hissue _).trans hrun, ht, List.forall_mem_cons.2 ⟨?_, hin⟩, fun c hc => ?_⟩
    · rw [hout x.1 fun y hy => (hx y hy).ne, ftRead_ftWrite_same]
    · obtain ⟨hcx, hc⟩ := List.forall_mem_cons.1 hc
      rw [hout c hc, ftRead_ftWrite_other _ _ hcx]

/-- The host has loaded the table of a text and built its tree (R200, R219): `s` was the block's state before, `t` is
its state after. -/
structure Loads (T : Text) (s t : State) : Prop where
  fits : (countTable T).fits = true
  run : ∃ rs, drive (ldt (countTable T) ++ [.build]) s = some (t, rs) ∧ kindReported rs = treeKindCode t.tk
  inv : Inv t
  built : t.tv = true
  counts : ∀ c, c < NSYM → (ftRead t.ft c).toNat = countOf T c

/-- The host reads the kind of the tree from the response of `BUILD`, the last one. -/
theorem kindReported_build (rs : List Response) (s : State) :
    kindReported (rs ++ [⟨.ok, buildData s⟩]) = treeKindCode s.tk := by
  rw [kindReported, List.getLast?_concat]
  exact (buildData_fields s).1

/-- From any state the host can do this, since `CLR` comes first. -/
theorem exists_loads {T : Text} (h : ∀ c, c < NSYM → countOf T c < 2 ^ FREQ_W) (s : State) :
    ∃ t, Loads T s t := by
  have hclr := issue_encode_clr { s with hostOut := [] }
  obtain ⟨u, hrun, hu, hin, hout⟩ := exists_runAll_ldf (countTable_isTable T) ((Inv.clearAll _).succeeded 0)
  have hbuild := issue_encode_build u
  have hall := (runAll_cons hclr _).trans ((runAll_append hrun _).trans (runAll_cons hbuild []))
  refine ⟨_, countTable_fits h, ⟨_, drive_of_runAll hall, kindReported_build _ _⟩, issue_keeps_inv hu hbuild, rfl,
    fun c hc => ?_⟩
  change (ftRead u.ft c).toNat = countOf T c
  by_cases used : countOf T c = 0
  · rw [hout c fun x hx e => (mem_countTable.1 hx).2.1 (e ▸ used), used]
    rfl
  · rw [hin (c, countOf T c) (mem_countTable.2 ⟨hc, used, rfl⟩)]
    exact (BitVec.toNat_ofNat _ 32).trans (Nat.mod_eq_of_lt (h c hc))

theorem treeKindOf_eq_noTree {n : Nat} : treeKindOf n = .noTree ↔ n = 0 := by
  unfold treeKindOf
  split
  · simp [*]
  · split <;> simp [*]

theorem treeKindOf_eq_single {n : Nat} : treeKindOf n = .single ↔ n = 1 := by
  unfold treeKindOf
  split
  · simp [*]
  · split <;> simp [*]

section

variable {T : Text} {s t : State} (h : Loads T s t)
include h

theorem Loads.used {c : Sym} (hc : c ∈ T) : ftRead t.ft c.toNat ≠ 0 := fun e =>
  countOf_ne_zero hc (by rw [← h.counts _ c.isLt, e]; rfl)

theorem Loads.mem_usedCodes {c : Sym} (hc : c ∈ T) : c.toNat ∈ usedCodes t.ft :=
  Machine.mem_usedCodes.2 ⟨c.isLt, h.used hc⟩

/-- Two loads of one text leave the same tree (R138). -/
theorem Loads.same_tree {s' t' : State} (h' : Loads T s' t') :
    t'.node = t.node ∧ t'.root = t.root ∧ t'.tk = t.tk := by
  have hft : buildTree t'.ft = buildTree t.ft := buildTree_congr fun c hc =>
    BitVec.eq_of_toNat_eq ((h'.counts c hc).trans (h.counts c hc).symm)
  obtain ⟨hnode, -, hkind, hroot⟩ := h.inv.treeBuilt h.built
  obtain ⟨hnode', -, hkind', hroot'⟩ := h'.inv.treeBuilt h'.built
  rw [hnode', hroot', hkind', hft]
  exact ⟨hnode.symm, hroot.symm, hkind.symm⟩

/-- Without a tree the text is empty (R207). -/
theorem Loads.text_of_noTree (no_tree : t.tk = .noTree) : T = [] := by
  obtain ⟨-, -, hkind, -⟩ := h.inv.treeBuilt h.built
  have hn := treeKindOf_eq_noTree.1 (hkind.symm.trans no_tree)
  have hcount := buildTree_n t.ft
  refine List.eq_nil_iff_forall_not_mem.2 fun c hc => ?_
  have hpos : 0 < leafCount t.ft := List.length_pos_of_mem (h.mem_usedCodes hc)
  omega

/-- A tree that is one leaf stands for one character (R206). -/
theorem Loads.usedCodes_of_single (single : t.tk = .single) : ∃ c, usedCodes t.ft = [c] := by
  obtain ⟨-, -, hkind, -⟩ := h.inv.treeBuilt h.built
  have hn := treeKindOf_eq_single.1 (hkind.symm.trans single)
  have hcount := buildTree_n t.ft
  exact List.length_eq_one_iff.1 (show leafCount t.ft = 1 by omega)

theorem Loads.countTable_ne_nil (single : t.tk = .single) : countTable T ≠ [] := by
  obtain ⟨c, hused⟩ := h.usedCodes_of_single single
  obtain ⟨hlt, hne⟩ := Machine.mem_usedCodes.1 (hused ▸ List.mem_singleton_self c)
  have hcount : countOf T c ≠ 0 := h.counts c hlt ▸ fun e => hne (BitVec.eq_of_toNat_eq e)
  exact List.ne_nil_of_mem (mem_countTable (x := (c, countOf T c)).2 ⟨hlt, hcount, rfl⟩)

/-- The one leaf is `NODE[0]`, and the text is its character, as often as its frequency says. -/
theorem Loads.text_of_single (single : t.tk = .single) :
    List.replicate (nodeRead t.node 0).fq.toNat (nodeRead t.node 0).cc = T := by
  obtain ⟨hnode, -, -, -⟩ := h.inv.treeBuilt h.built
  obtain ⟨c, hused⟩ := h.usedCodes_of_single single
  have hlt : c < NSYM := (Machine.mem_usedCodes.1 (hused ▸ List.mem_singleton_self c)).1
  have hleaf : nodeRead t.node 0 = leafRec c (ftRead t.ft c) :=
    hnode ▸ (buildTree_traced t.ft).leafRecs 0 c (by rw [hused]; rfl)
  have hcc : (nodeRead t.node 0).cc.toNat = c := hleaf ▸ leafRec_cc_toNat hlt _
  have hfq : (nodeRead t.node 0).fq.toNat = countOf T c := by rw [hleaf, leafRec_fq_toNat, h.counts c hlt]
  have hone : ∀ d ∈ T, d = (nodeRead t.node 0).cc := fun d hd =>
    BitVec.eq_of_toNat_eq ((List.mem_singleton.1 (hused ▸ h.mem_usedCodes hd)).trans hcc.symm)
  rw [hfq, ← hcc, replicate_countOf hone]

end

/-! ## Reading the codes of a text -/

/-- The walk ends on every tree the invariant allows. -/
theorem Inv.exists_codeTable {s : State} (h : Inv s) (built : s.tv = true) :
    ∃ ct, codeTable s.node s.root s.tk = some ct := by
  by_cases no_tree : s.tk = .noTree
  · exact ⟨[], if_pos no_tree⟩
  · obtain ⟨t, ht, hcodes⟩ := h.unfolds built no_tree
    exact ⟨_, codeTable_of_unfolds ht (codes_length_le hcodes) no_tree⟩

theorem exec_gencode_of_built {s : State} (built : s.tv = true) {ct : Memory CodeRec}
    (made : codeTable s.node s.root s.tk = some ct) :
    exec .gencode s = .next (State.succeeded { s with ct := ct, cv := true } 0) := by
  obtain ⟨unbuilt, -⟩ | ⟨-, ct', made', e⟩ | ⟨-, hangs, -⟩ := execGencode_cases s
  · cases built.symm.trans unbuilt
  · cases made.symm.trans made'
    exact e
  · cases made.symm.trans hangs

theorem exec_rdc_of_coded {s : State} (coded : s.cv = true) (sym : Sym) :
    exec (.rdc sym) s = .next (s.succeeded (codeData (ctRead s.cv s.ct sym.toNat))) := by
  obtain ⟨uncoded, -⟩ | ⟨-, e⟩ := execRdc_cases sym s
  · cases coded.symm.trans uncoded
  · exact e

theorem runAll_enc {s : State} (coded : s.cv = true) (T : Text) :
    runAll (enc T) s = some
      { s with hostOut := s.hostOut ++ T.map fun c => ⟨.ok, codeData (ctRead s.cv s.ct c.toNat)⟩ } := by
  induction T generalizing s with
  | nil => simp [enc, runAll]
  | cons c T ih =>
    have hissue := (issue_encode_rdc c s).trans (exec_rdc_of_coded coded c)
    refine (runAll_cons hissue (enc T)).trans ((ih (s := s.succeeded _) coded).trans ?_)
    simp [State.succeeded]

/-- With a tree built the host gets the codes of the text, one response each, after that of `GENCODE`. -/
theorem exists_drive_enc {s : State} (built : s.tv = true) {ct : Memory CodeRec}
    (made : codeTable s.node s.root s.tk = some ct) (T : Text) :
    ∃ u, drive (.gencode :: enc T) s =
      some (u, ⟨.ok, 0⟩ :: T.map fun c => ⟨.ok, codeData (ctRead true ct c.toNat)⟩) := by
  have hgencode := (issue_encode_gencode _).trans (exec_gencode_of_built (s := { s with hostOut := [] }) built made)
  have henc := runAll_enc (s := State.succeeded { s with ct := ct, cv := true, hostOut := [] } 0) rfl T
  exact ⟨_, drive_of_runAll ((runAll_cons hgencode _).trans henc)⟩

/-- A code bit as the character the host writes for it (R12). -/
def bitChar (b : Bool) : Char := if b then '1' else '0'

theorem bitOfChar_bitChar (b : Bool) : bitOfChar (bitChar b) = some b := by cases b <;> decide

theorem mapM_bitOfChar (bits : List Bool) : (bits.map bitChar).mapM bitOfChar = some bits := by
  induction bits with
  | nil => rfl
  | cons b bits ih => simp [bitOfChar_bitChar, ih]

theorem codeChars_codeData (r : CodeRec) : codeChars ⟨.ok, codeData r⟩ = (codeBits r).map bitChar := by
  simp only [codeChars, codeBits, codeData_len, codeData_bit, List.map_map]
  rfl

/-! ## A decode -/

/-- The codes of a text decode to the text and end at the root (R185, in the terms of R184). -/
theorem decBits_text {s : State} (h : Inv s) (general : s.tk = .general) (coded : s.cv = true) {T : Text}
    (used : ∀ c ∈ T, ftRead s.ft c.toNat ≠ 0) :
    decBits s.node s.root.toNat s.root.toNat (T.flatMap fun c => codeBits (ctRead s.cv s.ct c.toNat)) =
      (T, s.root.toNat) := by
  have built := h.control.item2 coded
  obtain ⟨hi, hl⟩ := h.root_internal built general
  have ready : ReadyToDecode { s with da := true, dcur := s.root } :=
    ⟨h.decodeAt built general hi hl, general, coded, rfl, rfl⟩
  obtain ⟨rs, hrun, -, hsymbols⟩ := ready.exists_runAll_text used
  obtain ⟨cur, rs', hrun', hdec⟩ := exists_runAll_dbits (s := { s with da := true, dcur := s.root }) rfl
    (T.flatMap fun c => codeBits (ctRead s.cv s.ct c.toNat))
  have e := Option.some.inj (hrun.symm.trans hrun')
  obtain rfl : s.root = cur := congrArg State.dcur e
  obtain rfl : rs = rs' := List.append_cancel_left (congrArg State.hostOut e)
  exact Prod.ext (hdec.symbols.symm.trans hsymbols) hdec.ends.symm

/-- Where the bits end at the root, the decode closes and has reported the symbols of R184. -/
theorem exists_runAll_decode {s : State} (built : s.tv = true) (general : s.tk = .general) {bits : List Bool}
    {T : Text} (h : decBits s.node s.root.toNat s.root.toNat bits = (T, s.root.toNat)) :
    ∃ rs, runAll (decodeCommands bits) s =
        some { s with da := false, dcur := 0, hostOut := s.hostOut ++ rs ++ [⟨.ok, 0⟩] } ∧
      rs.filterMap symbolReported = T := by
  have hstart := (issue_encode_dstart s).trans (exec_dstart_of_general built general)
  obtain ⟨cur, rs, hrun, hdec⟩ :=
    exists_runAll_dbits (s := State.succeeded { s with da := true, dcur := s.root } 0) rfl bits
  obtain rfl : cur = s.root := BitVec.eq_of_toNat_eq (hdec.ends.trans (congrArg Prod.snd h))
  have hend := (issue_encode_dend _).trans (exec_dend_of_root
    (s := (State.succeeded { s with da := true, dcur := s.root } 0).descended s.root rs) rfl rfl)
  have hall := (runAll_append ((runAll_cons hstart _).trans hrun) _).trans (runAll_cons hend [])
  refine ⟨⟨.ok, 0⟩ :: rs, hall.trans ?_, (List.filterMap_cons_none symbolReported_none).trans
    (hdec.symbols.trans (congrArg Prod.fst h))⟩
  simp [runAll, State.succeeded, State.descended]

/-- Where `DEND` succeeds the host takes the symbols reported. -/
theorem symbolsOrCorrupt_of_ok (rs : List Response) :
    symbolsOrCorrupt (rs ++ [⟨.ok, 0⟩]) = .ok (rs.filterMap symbolReported) := by
  simp [symbolsOrCorrupt, symbolReported]

theorem exists_drive_decode {s : State} (built : s.tv = true) (general : s.tk = .general) {bits : List Bool}
    {T : Text} (h : decBits s.node s.root.toNat s.root.toNat bits = (T, s.root.toNat)) :
    ∃ u rs, drive (decodeCommands bits) s = some (u, rs) ∧ symbolsOrCorrupt rs = .ok T := by
  obtain ⟨rs, hrun, hsymbols⟩ := exists_runAll_decode (s := { s with hostOut := [] }) built general h
  exact ⟨_, _, drive_of_runAll hrun, (symbolsOrCorrupt_of_ok rs).trans (congrArg _ hsymbols)⟩

/-! ## Reading the root of a tree that is one leaf -/

theorem exists_drive_rdn_zero {s : State} (built : s.tv = true) (hcount : 0 < s.ncount.toNat) :
    ∃ u, drive [.rdn 0#9] s = some (u, [⟨.ok, nodeData (nodeRead s.node 0)⟩]) := by
  obtain ⟨unbuilt, -⟩ | ⟨-, outside, -⟩ | ⟨-, -, e⟩ := execRdn_cases 0 { s with hostOut := [] }
  · cases built.symm.trans unbuilt
  · exact absurd hcount (Nat.not_lt.2 outside)
  · exact ⟨_, drive_of_runAll (runAll_cons ((issue_encode_rdn 0 _).trans e) [])⟩

theorem repeatRoot_nodeData (r : NodeRec) : repeatRoot [⟨.ok, nodeData r⟩] = List.replicate r.fq.toNat r.cc := by
  obtain ⟨hcc, -, -, -, hfq⟩ := nodeData_fields r
  simp only [repeatRoot, List.getLast?_singleton, hcc, hfq]

end Sys2Proof.Machine
end

section
/-! PROOFS. The round trip of a text (R214), by the kind of its tree: none (R207, R209), one leaf (R206, R210), or a
general tree, whose codes the bit-text carries (R205, R211). -/

namespace Sys2Proof.Machine

section

variable {T : Text} {s t : State} (h : Loads T s t)
include h

/-! ## Encoding -/

theorem Loads.encodeText_of_noTree (no_tree : t.tk = .noTree) : encodeText T s = .ok [] := by
  obtain ⟨rs, hrun, hkind⟩ := h.run
  rw [no_tree] at hkind
  simp [encodeText, h.fits, hrun, hkind, treeKindCode]

theorem Loads.encodeText_of_single (single : t.tk = .single) : encodeText T s = .ok (headerText (countTable T)) := by
  obtain ⟨rs, hrun, hkind⟩ := h.run
  rw [single] at hkind
  simp [encodeText, h.fits, hrun, hkind, treeKindCode]

/-- The bit-text carries the codes of the characters, and these decode to the text. -/
theorem Loads.encodeText_of_general (general : t.tk = .general) :
    ∃ bits, encodeText T s = .ok (headerText (countTable T) ++ '\n' :: bits.map bitChar) ∧
      decBits t.node t.root.toNat t.root.toNat bits = (T, t.root.toNat) := by
  obtain ⟨rs, hrun, hkind⟩ := h.run
  rw [general] at hkind
  obtain ⟨ct, made⟩ := h.inv.exists_codeTable h.built
  obtain ⟨u, henc⟩ := exists_drive_enc h.built made T
  have hdec := decBits_text (s := { t with ct := ct, cv := true }) (h.inv.withCodes h.built made) general rfl
    fun c hc => h.used hc
  refine ⟨_, ?_, hdec⟩
  simp [encodeText, h.fits, hrun, hkind, treeKindCode, henc, List.flatMap_map, List.map_flatMap, codeChars_codeData]

/-! ## Decoding -/

theorem Loads.decodeWith_of_single (single : t.tk = .single) : decodeWith (countTable T) [] s = .ok T := by
  obtain ⟨rs, hrun, hkind⟩ := h.run
  obtain ⟨-, hcount, hmade, -⟩ := h.inv.treeBuilt h.built
  have hn := treeKindOf_eq_single.1 (hmade.symm.trans single)
  obtain ⟨u, hrdn⟩ := exists_drive_rdn_zero h.built (s := t) (by omega)
  rw [single] at hkind
  simp [decodeWith, h.fits, hrun, hkind, treeKindCode, hrdn, repeatRoot_nodeData, h.text_of_single single]

theorem Loads.decodeWith_of_general (general : t.tk = .general) {bits : List Bool}
    (hbits : decBits t.node t.root.toNat t.root.toNat bits = (T, t.root.toNat)) :
    decodeWith (countTable T) (bits.map bitChar) s = .ok T := by
  obtain ⟨rs, hrun, hkind⟩ := h.run
  obtain ⟨u, rs', hdecode, hsymbols⟩ := exists_drive_decode h.built general hbits
  rw [general] at hkind
  simp [decodeWith, h.fits, hrun, hkind, treeKindCode, mapM_bitOfChar, hdecode, hsymbols, -List.mapM_map]

end

/-! ## The payload -/

/-- The host finds the header again at the start of the payload: the line ends where the payload does, or at the
newline before the bit-text (R217). -/
theorem decodeText_payload {F : FreqTable} (hF : F.isTable) {rest : List Char} (hne : headerText F ++ rest ≠ [])
    (hrest : rest.takeWhile (· != '\n') = []) (s : State) :
    decodeText (headerText F ++ rest) s = decodeWith F (rest.drop 1) s := by
  have hline : ∀ ch ∈ headerText F, (ch != '\n') = true := fun ch hch =>
    bne_iff_ne.2 fun e => newline_not_mem_headerText F (e ▸ hch)
  have hdrop : rest.dropWhile (· != '\n') = rest := by
    simpa [hrest] using List.takeWhile_append_dropWhile (p := (· != '\n')) (l := rest)
  rw [decodeText, if_neg hne, List.takeWhile_append_of_pos hline, List.dropWhile_append_of_pos hline, hrest, hdrop,
    List.append_nil, headerRoundTrip F hF]

/-- Settles O52. Both blocks build the tree of the text. Without a tree the text is empty; one leaf gives its character
and its count; a general tree gives codes that it decodes. -/
theorem textRoundTrip : Obligations.TextRoundTrip := by
  intro T s s' hfit
  have htable := countTable_isTable T
  obtain ⟨t, ht⟩ := exists_loads hfit s
  obtain ⟨t', ht'⟩ := exists_loads hfit s'
  obtain ⟨hnode, hroot, hkind⟩ := ht.same_tree ht'
  cases k : t.tk with
  | noTree => exact ⟨_, ht.encodeText_of_noTree k, by rw [ht.text_of_noTree k]; rfl⟩
  | single =>
    have hne := headerText_ne_nil (ht.countTable_ne_nil k)
    refine ⟨_, ht.encodeText_of_single k, ?_⟩
    rw [← List.append_nil (headerText _), decodeText_payload htable (by simpa using hne) rfl]
    exact ht'.decodeWith_of_single (hkind.trans k)
  | general =>
    obtain ⟨bits, hencode, hdec⟩ := ht.encodeText_of_general k
    refine ⟨_, hencode, ?_⟩
    rw [decodeText_payload htable (by simp) rfl]
    exact ht'.decodeWith_of_general (hkind.trans k) (by rw [hnode, hroot, hdec])

end Sys2Proof.Machine
end

section
/-! PROOFS. Failing and its causes (R231, R233, R234): what a response says of the command it answers, and the status
every command word is answered with. -/

namespace Sys2Proof

/-- A decoded word has the opcode of its command (R76). -/
theorem opField_of_decode {c : Command} {i : Instr} (h : decode c = .ok i) : (opField c.cw).toNat = opcodeOf i := by
  rw [decode] at h
  split at h
  · cases h
  · split at h
    -- format X takes every `arg`; the last case is the reserved opcodes
    case h_6 hop => cases h; exact hop
    case h_13 => cases h
    all_goals
      simp only [decodeN_eq_ok, decodeS_eq_ok, decodeB_eq_ok] at h
      obtain ⟨-, rfl⟩ := h
      assumption

/-- The index of a decoded `RDN` is the whole of `arg` (R73). -/
theorem argField_of_decode_rdn {c : Command} {idx : NodeIdx} (h : decode c = .ok (.rdn idx)) : argField c.cw = idx := by
  have hop : (opField c.cw).toNat = 5 := opField_of_decode h
  rw [decode] at h
  split at h
  · cases h
  · simpa [hop] using h

end Sys2Proof

namespace Sys2Proof.Machine

/-- The response tells how its command ended: with a status other than `OK` it failed with that status, and so nothing
but `ERR` changed (R233). -/
theorem issue_failed_of_status {c : Command} {s t : State} {r : Response} (h : issue c s = .next t)
    (hr : t.hostOut = s.hostOut ++ [r]) (hne : r.status ≠ .ok) : t = s.failedWith r.status := by
  obtain ⟨e, rfl⟩ | ⟨i, u, d, -, hu, rfl⟩ := issue_next_cases h
  · obtain rfl : (⟨e, 0⟩ : Response) = r := by simpa using hr
    rfl
  · obtain rfl : (⟨.ok, d⟩ : Response) = r := by simpa [hu.hostOut] using hr
    exact absurd rfl hne

/-- Settles O10. A response with a status other than `OK` is that of a command that failed. -/
theorem failedCommandChangesOnlyErr : Obligations.FailedCommandChangesOnlyErr :=
  fun _ _ _ _ => issue_failed_of_status

/-- The status of a decoded command in a state (R231), its checks in the order of its pseudocode (R234). -/
def commandStatus (s : State) : Instr → Status
  | .rdn idx => if s.tv = false then .notree else if s.ncount.toNat ≤ idx.toNat then .range else .ok
  | .gencode => if s.tv = false then .notree else .ok
  | .rdc _ => if s.cv = false then .nocode else .ok
  | .dstart => if s.tv = false then .notree else if s.tk = .general then .ok else .kind
  | .dbit _ => if s.da = false then .idle else .ok
  | .dend => if s.da = false then .idle else if s.dcur = s.root then .ok else .corrupt
  | .nop | .clr | .ldf _ _ | .rdf _ | .build | .rds => .ok

/-- A legal word is to be answered with the status of its command. -/
theorem expectedStatus_of_decode {c : Command} {i : Instr} (h : decode c = .ok i) (s : State) :
    expectedStatus c s = commandStatus s i := by
  have hlegal : ¬ opcodeMap.all (fun r => !r.selects c.cw) = true := by
    simpa using exists_decode_eq_ok_iff_selects.1 ⟨i, h⟩
  have hop : c.cw.toNat / 0x1000 = opcodeOf i := (opField_toNat _).symm.trans (opField_of_decode h)
  rw [expectedStatus, if_neg hlegal, hop]
  cases i with
  | rdn idx => rw [← argField_toNat, argField_of_decode_rdn h]; rfl
  | _ => rfl

/-- Any other word is to be answered with `E_ILLEGAL`. -/
theorem expectedStatus_of_not_legal {c : Command} (h : ¬ ∃ i, decode c = .ok i) (s : State) :
    expectedStatus c s = .illegal := by
  have hnone : opcodeMap.all (fun r => !r.selects c.cw) = true := by
    simpa using exists_decode_eq_ok_iff_selects.not.1 h
  rw [expectedStatus, if_pos hnone]

/-- Every command is answered with its status; the invariant excludes the one fault, that of `GENCODE`. -/
theorem exec_answers_commandStatus {s : State} (hs : Inv s) (i : Instr) :
    ∃ t, exec i s = .next t ∧ ∃ r, t.hostOut = s.hostOut ++ [r] ∧ r.status = commandStatus s i := by
  cases i with
  | nop | clr | ldf _ _ | rdf _ | build | rds => exact ⟨_, rfl, _, rfl, rfl⟩
  | rdn idx =>
    obtain ⟨unbuilt, e⟩ | ⟨built, above, e⟩ | ⟨built, inRange, e⟩ := execRdn_cases idx s
    · exact ⟨_, e, _, rfl, by simp [commandStatus, unbuilt]⟩
    · exact ⟨_, e, _, rfl, by simp [commandStatus, built, above]⟩
    · exact ⟨_, e, _, rfl, by simp [commandStatus, built, inRange]⟩
  | gencode =>
    obtain ⟨unbuilt, e⟩ | ⟨built, ct, -, e⟩ | ⟨built, hangs, -⟩ := execGencode_cases s
    · exact ⟨_, e, _, rfl, by simp [commandStatus, unbuilt]⟩
    · exact ⟨_, e, _, rfl, by simp [commandStatus, built]⟩
    · obtain ⟨ct, made⟩ := hs.exists_codeTable built
      cases made.symm.trans hangs
  | rdc sym =>
    obtain ⟨uncoded, e⟩ | ⟨coded, e⟩ := execRdc_cases sym s
    · exact ⟨_, e, _, rfl, by simp [commandStatus, uncoded]⟩
    · exact ⟨_, e, _, rfl, by simp [commandStatus, coded]⟩
  | dstart =>
    obtain ⟨unbuilt, e⟩ | ⟨built, other, e⟩ | ⟨built, general, e⟩ := execDstart_cases s
    · exact ⟨_, e, _, rfl, by simp [commandStatus, unbuilt]⟩
    · exact ⟨_, e, _, rfl, by simp [commandStatus, built, other]⟩
    · exact ⟨_, e, _, rfl, by simp [commandStatus, built, general]⟩
  | dbit b =>
    obtain ⟨idle, e⟩ | ⟨active, -, e⟩ | ⟨active, -, e⟩ := execDbit_cases b s
    · exact ⟨_, e, _, rfl, by simp [commandStatus, idle]⟩
    · exact ⟨_, e, _, rfl, by simp [commandStatus, active]⟩
    · exact ⟨_, e, _, rfl, by simp [commandStatus, active]⟩
  | dend =>
    obtain ⟨idle, e⟩ | ⟨active, midPath, e⟩ | ⟨active, atRoot, e⟩ := execDend_cases s
    · exact ⟨_, e, _, rfl, by simp [commandStatus, idle]⟩
    · exact ⟨_, e, _, rfl, by simp [commandStatus, active, midPath]⟩
    · exact ⟨_, e, _, rfl, by simp [commandStatus, active, atRoot]⟩

/-- So is every command word, the illegal ones in any state (R81, R234). -/
theorem issue_answers_expectedStatus {s : State} (hs : Inv s) (c : Command) :
    ∃ t, issue c s = .next t ∧ ∃ r, t.hostOut = s.hostOut ++ [r] ∧ r.status = expectedStatus c s := by
  by_cases hlegal : ∃ i, decode c = .ok i
  · obtain ⟨i, hd⟩ := hlegal
    rw [issue_of_decode hd, expectedStatus_of_decode hd]
    exact exec_answers_commandStatus hs i
  · rw [expectedStatus_of_not_legal hlegal]
    exact ⟨_, issue_of_not_legal hlegal s, _, rfl, rfl⟩

/-- Settles O11. The status is that of the first check that fails, and a command that failed has noted it in `ERR`. -/
theorem errorCausesAndPriority : Obligations.ErrorCausesAndPriority := by
  intro c s hs
  obtain ⟨t, ht, r, hout, hstatus⟩ := issue_answers_expectedStatus hs c
  refine ⟨t, r, ht, hout, hstatus, fun hne => ?_⟩
  rw [issue_failed_of_status ht hout hne, State.failedWith_err]

end Sys2Proof.Machine
end

section
/-! PROOFS. After reset: what the port does until it is ready (R260, R261), and what every command answers in the reset
state (R263). -/

namespace Sys2Proof.Machine

/-! ## The port starting up -/

/-- A ready port to which nothing is presented stays as it is. -/
theorem Port.edge_idle {p : Port} {i : Pins} (hr : i.rst = false) (hp : p.phase = .ready) (hv : i.cmdValid = false) :
    p.edge i = p := by simp [Port.edge, hr, hp, hv]

/-- `cmd_ready` is 0 exactly while edges of the start-up are left, and no response is shown. -/
theorem Port.out_startingPhase (p : Port) (n : Nat) :
    ({ p with phase := startingPhase n } : Port).out false = ⟨decide (n = 0), none⟩ := by
  cases n <;> rfl

/-- What is presented during a start-up of `n` edges is not accepted: each edge takes one edge off what is left of it. -/
theorem Port.edges_startingPhase (p : Port) (n : Nat) (is : List Pins) (hr : ∀ j ∈ is, j.rst = false)
    (hv : ∀ j ∈ is.drop n, j.cmdValid = false) :
    ({ p with phase := startingPhase n } : Port).edges is = { p with phase := startingPhase (n - is.length) } := by
  induction is generalizing n with
  | nil => rfl
  | cons i is ih =>
    obtain ⟨hi, his⟩ := List.forall_mem_cons.1 hr
    rw [Port.edges_cons]
    cases n with
    | zero =>
      obtain ⟨hvi, hvis⟩ := List.forall_mem_cons.1 hv
      rw [Port.edge_idle hi rfl hvi]
      simpa using ih 0 his hvis
    | succ n =>
      rw [Port.edge_starting hi rfl]
      simpa using ih n his hv

/-- Settles O50. A reset reads nothing of the phase and starts the port up; the delay is that of this start-up, which
leaves the reset state alone. -/
theorem resetWinsAtEveryEdge : Obligations.ResetWinsAtEveryEdge := by
  refine ⟨fun _ => rfl, fun p i hi => ?_, fun p i hi => ⟨Config.freeStartDelay p.resets, fun is hr hv => ?_⟩⟩
  · rw [Port.edge_rst hi]
    exact ⟨State.clearAll_isResetState p.arch, fun _ => Port.edge_rst hi⟩
  · have hstart : p.reset.edges is =
        { p.reset with phase := startingPhase (Config.freeStartDelay p.resets - is.length) } :=
      Port.edges_startingPhase p.reset _ is hr hv
    rw [Port.edge_rst hi, hstart, Port.out_startingPhase]
    exact ⟨State.clearAll_isResetState p.arch, by simp only [Nat.sub_eq_zero_iff_le]⟩

/-! ## The commands in the reset state -/

theorem buildTree_nil_n : (buildTree []).n = 0 := by
  have hleaves : leafCount [] = 0 := by simp [leafCount, usedCodes]
  rw [buildTree_n, hleaves]

/-- `BUILD` of a table with no character answers 0: `TK`, `ROOT` and `NCOUNT` are all 0 (R130). -/
theorem buildData_withTree_of_n_eq_zero (s : State) {b : Building (List Live)} (h : b.n = 0) :
    buildData (s.withTree b) = 0 := by
  simp [buildData, h, treeKindOf, rootOf, treeKindCode]

theorem exec_build_reset :
    exec .build State.reset = .next ((State.reset.withTree (buildTree [])).succeeded 0) := by
  rw [← buildData_withTree_of_n_eq_zero State.reset buildTree_nil_n]
  rfl

/-- Settles O13. The reset state meets `Inv`, so every command is answered with its status there; the tree that `BUILD`
makes of the empty table has no node. -/
theorem everyCommandIsDefinedAfterReset : Obligations.EveryCommandIsDefinedAfterReset := by
  refine ⟨fun i => ?_, _, exec_build_reset, rfl, ?_, rfl⟩
  · obtain ⟨t, ht, r, hout, hstatus⟩ := exec_answers_commandStatus Inv.reset i
    refine ⟨t, r, ht, hout, hstatus.trans ?_⟩
    cases i <;> rfl
  · rw [State.succeeded_tk, State.withTree_tk]
    exact treeKindOf_eq_noTree.2 buildTree_nil_n

end Sys2Proof.Machine
end

section
/-! PROOFS. Encoder and decoder are inverse to each other on the legal words (R73, R83, R84): a legal word is its opcode,
three bits 0 and the operand of the command it decodes to. -/

namespace Sys2Proof

/-! ## The reason a word is rejected for -/

section

variable {cw : BitVec 16}

theorem decode_of_reservedField (h : rsvField cw ≠ 0) (wd : Count) : decode ⟨cw, wd⟩ = .error .reservedField :=
  if_pos h

theorem decode_of_reservedOpcode (h : rsvField cw = 0 ∧ 12 ≤ (opField cw).toNat) (wd : Count) :
    decode ⟨cw, wd⟩ = .error .reservedOpcode := by
  obtain ⟨hrsv, hop⟩ := h
  simp only [decode, hrsv, ne_eq, not_true_eq_false, if_false]
  split
  case h_13 => rfl
  all_goals omega

theorem decodeN_error {i : Instr} {e : Illegal} (h : decodeN cw i = .error e) : e = .operandBit := by
  unfold decodeN at h
  split at h <;> cases h
  rfl

theorem decodeS_error {i : Sym → Instr} {e : Illegal} (h : decodeS cw i = .error e) :
    e = .operandBit := by
  unfold decodeS at h
  split at h <;> cases h
  rfl

theorem decodeB_error {i : Bool → Instr} {e : Illegal} (h : decodeB cw i = .error e) :
    e = .operandBit := by
  unfold decodeB at h
  split at h <;> cases h
  rfl

/-- A word of one of the twelve opcodes that is rejected for neither field has an operand bit set that must be 0. -/
theorem decode_of_operandBit
    (h : rsvField cw = 0 ∧ (opField cw).toNat < 12 ∧ 2 ^ operandBits (opField cw).toNat ≤ cw.toNat % 0x1000)
    (wd : Count) : decode ⟨cw, wd⟩ = .error .operandBit := by
  obtain ⟨hrsv, hop, hbit⟩ := h
  cases hd : decode ⟨cw, wd⟩ with
  | ok i =>
    rw [opField_toNat] at hbit
    exact absurd (exists_decode_eq_ok_iff.1 ⟨i, hd⟩).2 (Nat.not_lt.2 hbit)
  | error e =>
    refine congrArg Except.error ?_
    simp only [decode, hrsv, ne_eq, not_true_eq_false, if_false] at hd
    split at hd
    -- format X rejects no word; the last case is the reserved opcodes
    case h_6 => cases hd
    case h_13 => simp only [imp_false] at *; omega
    case h_10 => exact decodeB_error hd
    case h_3 | h_4 | h_8 => exact decodeS_error hd
    all_goals exact decodeN_error hd

end

/-! ## The words of the spec, and of every command -/

theorem decode_clr (wd : Count) : decode ⟨0x1000, wd⟩ = .ok .clr := decode_eq_clr.2 rfl

/-- Settles O1. The legal words are those of the rows at the operands the spec names; the others fail one of the three
checks, whatever `WD` is. -/
theorem decodeReadsTheWordsOfTheSpec : Obligations.DecodeReadsTheWordsOfTheSpec := fun wd =>
  ⟨decode_nop wd, decode_clr wd, decode_ldf 97 wd, decode_ldf 255 wd, decode_rdf 0 wd, decode_build wd,
    decode_rdn 0 wd, decode_rdn 510 wd, decode_rdn 511 wd, decode_gencode wd, decode_rdc 100 wd, decode_dstart wd,
    decode_dbit false wd, decode_dbit true wd, decode_dend wd, decode_rds wd, decode_of_operandBit (by decide) wd,
    decode_of_operandBit (by decide) wd, decode_of_operandBit (by decide) wd, decode_of_operandBit (by decide) wd,
    decode_of_operandBit (by decide) wd, decode_of_reservedField (by decide) wd, decode_of_reservedField (by decide) wd,
    decode_of_reservedField (by decide) wd, decode_of_reservedOpcode (by decide) wd,
    decode_of_reservedOpcode (by decide) wd, decode_of_reservedOpcode (by decide) wd,
    decode_of_reservedField (by decide) wd⟩

/-- Settles O2. The word of each command is that of its row at the command's operand. -/
theorem decodeInvertsEncode : Obligations.DecodeInvertsEncode := by
  intro i
  cases i with
  | nop => exact decode_nop _
  | clr => exact decode_clr _
  | ldf sym val => exact decode_ldf sym val
  | rdf sym => exact decode_rdf sym _
  | build => exact decode_build _
  | rdn idx => exact decode_rdn idx _
  | gencode => exact decode_gencode _
  | rdc sym => exact decode_rdc sym _
  | dstart => exact decode_dstart _
  | dbit b => rw [encode, encodeWord_dbit]; exact decode_dbit b _
  | dend => exact decode_dend _
  | rds => exact decode_rds _

/-! ## Back from the command to the word -/

/-- The operand of a command as the number in `arg` (R72, R73). -/
def operandOf : Instr → Nat
  | .ldf sym _ | .rdf sym | .rdc sym => sym.toNat
  | .rdn idx => idx.toNat
  | .dbit b => b.toNat
  | .nop | .clr | .build | .gencode | .dstart | .dend | .rds => 0

theorem encodeWord_toNat (i : Instr) : (encodeWord i).toNat = 0x1000 * opcodeOf i + operandOf i := by
  cases i with
  | ldf sym _ | rdf sym | rdc sym => exact symWord_toNat (by decide) sym
  | rdn idx => exact rdnWord_toNat idx
  | dbit b => cases b <;> rfl
  | nop | clr | build | gencode | dstart | dend | rds => rfl

/-- Where `arg[8]` is 0, formats S and W, `arg` is the symbol. -/
theorem symField_toNat {cw : BitVec 16} (h : (argField cw).getLsbD 8 = false) :
    (symField cw).toNat = (argField cw).toNat := by
  have harg := argField_toNat cw
  rw [BitVec.getLsbD, Nat.testBit_eq_decide_div_mod_eq, decide_eq_false_iff_not] at h
  rw [symField, BitVec.extractLsb'_toNat, Nat.shiftRight_zero]
  omega

/-- Where `arg[8:1]` is 0, format B, `arg` is the bit. -/
theorem bitField_toNat {cw : BitVec 16} (h : (argField cw).extractLsb' 1 8 = 0) :
    ((argField cw).getLsbD 0).toNat = (argField cw).toNat := by
  have harg := (argField cw).isLt
  rw [← BitVec.toNat_inj, BitVec.extractLsb'_toNat, Nat.shiftRight_eq_div_pow] at h
  change _ = 0 at h
  rw [BitVec.getLsbD, Nat.toNat_testBit]
  omega

/-- A decoded word holds the command's operand in `arg`, and its data word is that of the command where it is read. -/
theorem operand_of_decode {c : Command} {i : Instr} (h : decode c = .ok i) :
    operandOf i = (argField c.cw).toNat ∧ encodeData i = if opcodeOf i = 2 then c.wd else 0 := by
  rw [decode] at h
  split at h
  · cases h
  · split at h
    -- format X takes every `arg`; the last case is the reserved opcodes
    case h_6 => cases h; exact ⟨rfl, rfl⟩
    case h_13 => cases h
    case h_10 =>
      obtain ⟨harg, rfl⟩ := decodeB_eq_ok.1 h
      exact ⟨bitField_toNat harg, rfl⟩
    case h_3 | h_4 | h_8 =>
      obtain ⟨harg, rfl⟩ := decodeS_eq_ok.1 h
      exact ⟨symField_toNat harg, rfl⟩
    all_goals
      obtain ⟨harg, rfl⟩ := decodeN_eq_ok.1 h
      exact ⟨(congrArg BitVec.toNat harg).symm, rfl⟩

/-- A legal word is the opcode of its command, then 0 in `rsv`, then the operand. -/
theorem cw_toNat_of_decode {c : Command} {i : Instr} (h : decode c = .ok i) :
    c.cw.toNat = 0x1000 * opcodeOf i + operandOf i := by
  have hop := opField_of_decode h
  have harg := (operand_of_decode h).1
  have hsize := two_pow_operandBits_le (c.cw.toNat / 0x1000)
  obtain ⟨-, hlow⟩ := exists_decode_eq_ok_iff.1 ⟨i, h⟩
  rw [opField_toNat] at hop
  rw [argField_toNat] at harg
  omega

/-- Settles O3. The word of a command and a word that decodes to it are the same opcode and operand. -/
theorem encodeInvertsDecode : Obligations.EncodeInvertsDecode := by
  intro c i h
  refine ⟨BitVec.eq_of_toNat_eq ((encodeWord_toNat i).trans (cw_toNat_of_decode h).symm), ?_⟩
  have hop : c.cw.extractLsb' 12 4 = 2 ↔ opcodeOf i = 2 := by
    rw [← opField_of_decode h, ← BitVec.toNat_inj]
    rfl
  simp only [hop]
  exact (operand_of_decode h).2

end Sys2Proof
end

section
/-! PROOFS. The whole step: it runs the command presented, answers it once, keeps the invariant and never stops (R35, R58,
R75, R83, R241, R260, R261). -/

namespace Sys2Proof.Machine

theorem step_of_idle {s : State} (h : s.hostIn = []) : step s = .next s := by
  simp [step, takeInput, h]

/-- Settles O8. A step on a presented word is `issue` of the word, which decodes it. -/
theorem stepRunsTheDecodedCommand : Obligations.StepRunsTheDecodedCommand :=
  ⟨fun _ _ _ _ h hd => (step_of_command h).trans (issue_of_decode hd _),
    fun _ _ _ _ h hd => (step_of_command h).trans (issue_of_illegal hd _),
    fun _ => step_of_idle⟩

/-- Settles O14. Both resets clear everything but the host's two lists. -/
theorem resetGivesTheResetState : Obligations.ResetGivesTheResetState := fun _ c _ h =>
  ⟨_, step_of_reset (h.imp_right fun h => ⟨c, h⟩), State.clearAll_isResetState _, rfl, rfl⟩

/-- A command word takes nothing off the host's list (R39). -/
theorem issue_next_hostIn {c : Command} {s t : State} (h : issue c s = .next t) : t.hostIn = s.hostIn := by
  cases hd : decode c with
  | ok i => exact exec_next_hostIn ((issue_of_decode hd s).symm.trans h)
  | error e => cases (issue_of_illegal hd s).symm.trans h; rfl

/-- A command word is answered once, with data 0 where it fails (R75). -/
theorem issue_next_hostOut {c : Command} {s t : State} (h : issue c s = .next t) :
    ∃ r, t.hostOut = s.hostOut ++ [r] ∧ (r.status ≠ .ok → r.data = 0) := by
  obtain ⟨e, rfl⟩ | ⟨i, u, d, -, hu, rfl⟩ := issue_next_cases h
  · exact ⟨⟨e, 0⟩, rfl, fun _ => rfl⟩
  · exact ⟨⟨.ok, d⟩, by rw [State.succeeded_hostOut, hu.hostOut], fun hne => absurd rfl hne⟩

/-- Settles O9. The step takes the command off the host's list, and `issue` answers it. -/
theorem oneResponsePerCommand : Obligations.OneResponsePerCommand := by
  intro s t c rest hin h
  rw [step_of_command hin] at h
  exact ⟨issue_next_hostIn h, issue_next_hostOut (s := { s with hostIn := rest }) h⟩

/-- Settles O42. Everything is cleared. -/
theorem resetSatisfiesTheInvariant : Obligations.ResetSatisfiesTheInvariant := Inv.reset

/-- Settles O43. Each way a command can succeed keeps the invariant; failing and waiting change nothing it reads. -/
theorem stepKeepsTheInvariant : Obligations.StepKeepsTheInvariant := fun _ _ => step_keeps_inv

/-- Settles O45. The one fault is that of a walk without end, and on the tree of the invariant the walk of `GENCODE`
ends: every command word has an answer. -/
theorem noCommandHangs : Obligations.NoCommandHangs := by
  intro s hs
  cases hin : s.hostIn with
  | nil => exact ⟨s, step_of_idle hin⟩
  | cons item rest =>
    cases item with
    | command c =>
      obtain ⟨t, ht, -⟩ := issue_answers_expectedStatus (hs.withHost s.err rest s.hostOut) c
      exact ⟨t, (step_of_command hin).trans ht⟩
    | reset => exact ⟨_, step_of_reset (.inl hin)⟩
    | resetDuring c => exact ⟨_, step_of_reset (.inr ⟨c, hin⟩)⟩

end Sys2Proof.Machine
end

section
/-! PROOFS. `GENCODE` as a command, and the bound on the codes it makes (R163, R164). -/

namespace Sys2Proof.Machine

/-- Settles O31. On the tree of the invariant the walk ends; of the words of its opcode 0x6000 alone is legal. -/
theorem gencodeCompletes : Obligations.GencodeCompletes := by
  refine ⟨fun s hs built => ?_, fun s unbuilt => ?_, fun wd s => issue_of_decode (decode_gencode wd) s,
    fun _ s hop harg => issue_of_bit_above_operand hop (Nat.pos_of_ne_zero harg) s⟩
  · obtain ⟨ct, made⟩ := hs.exists_codeTable built
    exact ⟨_, exec_gencode_of_built built made, rfl, rfl⟩
  · obtain ⟨-, e⟩ | ⟨built, -⟩ | ⟨built, -⟩ := execGencode_cases s
    · exact e
    all_goals cases unbuilt.symm.trans built

/-- Settles O35. A code is the path to a leaf, which is shorter than the number of leaves, or it is empty. -/
theorem codesAreShorterThanTheAlphabet : Obligations.CodesAreShorterThanTheAlphabet := by
  intro s c hs coded hL
  obtain ⟨-, -, hkind, -⟩ := hs.treeBuilt (hs.control.item2 coded)
  have hn := buildTree_n s.ft
  have some_tree : s.tk ≠ .noTree := fun e => by
    have := treeKindOf_eq_noTree.1 (hkind.symm.trans e)
    omega
  obtain ⟨t, ht⟩ := hs.codedBy coded some_tree
  refine ⟨?_, Nat.sub_le_sub_right (leafCount_le s.ft) 1⟩
  rw [coded]
  obtain ⟨p, hp, -, e⟩ | ⟨-, e⟩ := ht.ctRead_cases c.isLt
  · rw [e, codeOfPath_len (ht.length_le hp)]
    exact Nat.le_sub_one_of_lt (ht.length_lt hp)
  · rw [e]
    exact Nat.zero_le _

end Sys2Proof.Machine
end

section
/-! PROOFS. What a command leaves alone: the reads change nothing and repeat (R56), and each element of the state has its
own writers (R21, R25, R29, R30). -/

namespace Sys2Proof.Machine

variable {s t : State} {i : Instr}

/-! ## Reads -/

/-- The commands that read, `NOP` among them. -/
def IsRead (i : Instr) : Prop :=
  i = .nop ∨ (∃ sym, i = .rdf sym) ∨ (∃ idx, i = .rdn idx) ∨ (∃ sym, i = .rdc sym) ∨ i = .rds

/-- `Succeeds` says what `exec` does. -/
theorem Succeeds.exec_eq {u : State} {d : RspData} (h : Succeeds s i u d) : exec i s = .next (u.succeeded d) := by
  cases h with
  | nop | clr | ldf | rdf | build | rds => rfl
  | rdn built inRange => simp [exec, execRdn, built, Nat.not_le.2 inRange, respond_eq]
  | gencode built made => exact exec_gencode_of_built built made
  | rdc coded => exact exec_rdc_of_coded coded _
  | dstart built general => exact exec_dstart_of_general built general
  | dbitLeaf active leaf => exact exec_dbit_of_leaf active leaf
  | dbitInner active inner => exact exec_dbit_of_inner active inner
  | dend active atRoot => exact exec_dend_of_root active atRoot

/-- A read fails, or succeeds and leaves the state it found. -/
theorem exec_read_cases (hi : IsRead i) (s : State) :
    (∃ e, e ≠ .ok ∧ exec i s = .next (s.failedWith e)) ∨ ∃ d, Succeeds s i s d := by
  obtain rfl | ⟨sym, rfl⟩ | ⟨idx, rfl⟩ | ⟨sym, rfl⟩ | rfl := hi
  · exact .inr ⟨_, .nop⟩
  · exact .inr ⟨_, .rdf sym⟩
  · obtain ⟨-, e⟩ | ⟨-, -, e⟩ | ⟨built, inRange, -⟩ := execRdn_cases idx s
    · exact .inl ⟨_, by decide, e⟩
    · exact .inl ⟨_, by decide, e⟩
    · exact .inr ⟨_, .rdn built inRange⟩
  · obtain ⟨-, e⟩ | ⟨coded, -⟩ := execRdc_cases sym s
    · exact .inl ⟨_, by decide, e⟩
    · exact .inr ⟨_, .rdc coded⟩
  · exact .inr ⟨_, .rds⟩

/-- A read does not look at the responses given, its own among them. -/
theorem Succeeds.again {d : RspData} (hi : IsRead i) (h : Succeeds s i s d) (d' : RspData) :
    Succeeds (s.succeeded d') i (s.succeeded d') d := by
  obtain rfl | ⟨sym, rfl⟩ | ⟨idx, rfl⟩ | ⟨sym, rfl⟩ | rfl := hi <;> cases h
  case inl => exact .nop
  case inr.inl => exact .rdf sym
  case inr.inr.inl built inRange => exact .rdn built inRange
  case inr.inr.inr.inl coded => exact .rdc coded
  case inr.inr.inr.inr => exact .rds

/-- Settles O47. A read that succeeds leaves all it looked at, so it succeeds again with the same data. -/
theorem readsHaveNoSideEffect : Obligations.ReadsHaveNoSideEffect := by
  intro s t i hi h
  obtain ⟨e, hne, he⟩ | ⟨d, hd⟩ := exec_read_cases hi s
  · cases he.symm.trans h
    exact ⟨⟨e, 0⟩, rfl, fun hok => absurd hok hne⟩
  · cases hd.exec_eq.symm.trans h
    exact ⟨⟨.ok, d⟩, rfl, fun _ => ⟨rfl, (hd.again hi d).exec_eq⟩⟩

/-! ## Writers -/

section

variable {u : State} {d : RspData} (h : Succeeds s i u d)
include h

theorem Succeeds.ft_eq_or : u.ft = s.ft ∨ i = .clr ∨ ∃ sym val, i = .ldf sym val := by
  cases h with
  | clr => exact .inr (.inl rfl)
  | ldf sym val => exact .inr (.inr ⟨sym, val, rfl⟩)
  | _ => exact .inl rfl

theorem Succeeds.tv_eq_or : u.tv = s.tv ∨ u.tv = false ∨ i = .build := by
  cases h with
  | clr | ldf => exact .inr (.inl rfl)
  | build => exact .inr (.inr rfl)
  | _ => exact .inl rfl

/-- While the tree stays valid nothing but `BUILD` writes it. -/
theorem Succeeds.tree_eq_or : (u.node = s.node ∧ u.root = s.root ∧ u.ncount = s.ncount ∧ u.tk = s.tk) ∨
    u.tv = false ∨ i = .build := by
  cases h with
  | clr | ldf => exact .inr (.inl rfl)
  | build => exact .inr (.inr rfl)
  | _ => exact .inl ⟨rfl, rfl, rfl, rfl⟩

/-- The code table and its flag stay as they are, or the flag is cleared, or `GENCODE` makes them. -/
theorem Succeeds.codes_eq_or : (u.cv = s.cv ∧ u.ct = s.ct) ∨ u.cv = false ∨ i = .gencode := by
  cases h with
  | clr | ldf | build => exact .inr (.inl rfl)
  | gencode => exact .inr (.inr rfl)
  | _ => exact .inl ⟨rfl, rfl⟩

theorem Succeeds.da_eq_or : u.da = s.da ∨ u.da = false ∨ i = .dstart := by
  cases h with
  | clr | ldf | build | dend => exact .inr (.inl rfl)
  | dstart => exact .inr (.inr rfl)
  | _ => exact .inl rfl

end

/-- A flag that rises was written. -/
theorem of_flag_rises {a b : Bool} {P : Prop} (h : b = a ∨ b = false ∨ P) (ha : a = false) (hb : b = true) : P := by
  obtain kept | cleared | written := h
  · cases hb.symm.trans (kept.trans ha)
  · cases hb.symm.trans cleared
  · exact written

/-- Settles O48. A word that fails writes none of these elements, and each of the twelve commands is a writer of an
element or leaves it or clears it. -/
theorem onlyTheirCommandsWriteEachElement : Obligations.OnlyTheirCommandsWriteEachElement := by
  intro s t c rest hin h
  rw [step_of_command hin] at h
  obtain ⟨e, rfl⟩ | ⟨i, u, d, hd, hu, rfl⟩ := issue_next_cases h
  · exact ⟨fun ⟨a, ha⟩ => absurd rfl ha, of_flag_rises (.inl rfl), of_flag_rises (.inl rfl),
      of_flag_rises (.inl rfl), fun _ _ _ => ⟨rfl, rfl, rfl, rfl⟩, fun _ _ _ => rfl⟩
  · simp only [hd, ne_eq, Except.ok.injEq, State.succeeded_ft, State.succeeded_tv, State.succeeded_cv,
      State.succeeded_da, State.succeeded_node, State.succeeded_root, State.succeeded_ncount, State.succeeded_tk,
      State.succeeded_ct]
    refine ⟨fun ⟨a, ha⟩ => hu.ft_eq_or.resolve_left fun e => ha (by rw [e]), of_flag_rises hu.tv_eq_or,
      of_flag_rises (hu.codes_eq_or.imp_left And.left), of_flag_rises hu.da_eq_or, fun _ built hne => ?_,
      fun _ coded hne => ?_⟩
    · obtain same | unbuilt | e := hu.tree_eq_or
      · exact same
      · cases built.symm.trans unbuilt
      · exact absurd e hne
    · obtain ⟨-, same⟩ | uncoded | e := hu.codes_eq_or
      · exact same
      · cases coded.symm.trans uncoded
      · exact absurd e hne

end Sys2Proof.Machine
end

section
/-! PROOFS. The port between two resets (R86, R87): what its pins show, what happens to a command from the edge that
accepts it to the edge that takes its response or cuts it short, and that this agrees with the step (R58, R261). -/

namespace Sys2Proof.Machine

/-! ## The pins -/

theorem Port.cmdReady_iff {p : Port} : (p.out false).cmdReady = true ↔ p.phase = .ready := by
  unfold Port.out
  cases p.phase <;> simp

theorem Port.rsp_eq_some_iff {p : Port} {r : Response} : (p.out false).rsp = some r ↔ p.phase = .responding r := by
  unfold Port.out
  cases p.phase <;> simp

theorem Port.out_of_ready {p : Port} (h : p.phase = .ready) : p.out false = ⟨true, none⟩ := by simp [Port.out, h]

theorem Port.out_of_responding {p : Port} {r : Response} (h : p.phase = .responding r) :
    p.out false = ⟨false, some r⟩ := by simp [Port.out, h]

/-! ## What one edge does to the state -/

/-- A port with a command that never ends stays as it is. -/
theorem Port.edge_hung {p : Port} {i : Pins} (hr : i.rst = false) (hp : p.phase = .hung) : p.edge i = p := by
  simp [Port.edge, hr, hp]

/-- The state after an edge with `rst = 0` at which nothing is accepted: a response taken there joins those given. -/
theorem Port.edge_of_not_accepting {p : Port} {i : Pins} (hr : i.rst = false)
    (h : i.cmdValid = false ∨ p.phase ≠ .ready) :
    (p.edge i).accepted = p.accepted ∧ (p.edge i).arch =
      { p.arch with hostOut := p.arch.hostOut ++ if i.rspReady then (p.out false).rsp.toList else [] } := by
  cases hp : p.phase with
  | starting n => simp [Port.edge_starting hr hp, Port.out, hp]
  | ready => simp [Port.edge_idle hr hp (h.resolve_right (not_not.2 hp)), Port.out, hp]
  | busy n r =>
    cases n with
    | zero => simp [Port.edge_busy_zero hr hp, Port.out, hp]
    | succ n => simp [Port.edge_busy_succ hr hp, Port.out, hp]
  | responding r =>
    rw [Port.edge_responding hr hp, Port.out_of_responding hp]
    cases i.rspReady with
    | false => simp
    | true => exact ⟨rfl, rfl⟩
  | hung => simp [Port.edge_hung hr hp, Port.out, hp]

/-- A command accepted runs, its response held back, or it never ends and the state is left alone. -/
theorem Port.accept_cases (p : Port) (c : Command) :
    (∃ t r, issue c p.arch = .next t ∧ t.hostOut = p.arch.hostOut ++ [r] ∧
      p.accept c = { p with
        arch := { t with hostOut := p.arch.hostOut }
        phase := .busy (Config.freeLatency p.accepted) r
        accepted := p.accepted + 1 }) ∨
    p.accept c = { p with phase := .hung, accepted := p.accepted + 1 } := by
  cases h : issue c p.arch with
  | next t =>
    obtain ⟨r, hr, -⟩ := issue_next_hostOut h
    exact .inl ⟨t, r, rfl, hr, Port.accept_next h hr⟩
  | fault f => exact .inr (by simp [Port.accept, h])
  | refused f => exact .inr (by simp [Port.accept, h])

/-- Accepting a command gives no response. -/
theorem Port.accept_hostOut (p : Port) (c : Command) : (p.accept c).arch.hostOut = p.arch.hostOut := by
  obtain ⟨t, r, -, -, e⟩ | e := p.accept_cases c <;> rw [e]

/-- The responses given grow by the one taken at an edge and by nothing else. -/
theorem Port.edge_hostOut (p : Port) (i : Pins) :
    (p.edge i).arch.hostOut = p.arch.hostOut ++ if i.rspReady then (p.out i.rst).rsp.toList else [] := by
  cases hr : i.rst with
  | true => simp [Port.edge_rst hr, Port.out]
  | false =>
    by_cases h : i.cmdValid = false ∨ p.phase ≠ .ready
    · rw [(Port.edge_of_not_accepting hr h).2]
    · obtain ⟨hv, hp⟩ := not_or.1 h
      have hp := not_not.1 hp
      simp [Port.edge_accept hr hp (by simpa using hv), Port.accept_hostOut, Port.out_of_ready hp]

/-! ## The latency -/

/-- Until its latency has passed a command in flight shows nothing, and nothing but the phase changes. -/
theorem Port.edges_busy {n : Nat} {r : Response} (p : Port) (is : List Pins) (hr : ∀ j ∈ is, j.rst = false)
    (hn : is.length ≤ n) :
    ({ p with phase := .busy n r } : Port).edges is = { p with phase := .busy (n - is.length) r } := by
  induction is generalizing n with
  | nil => rfl
  | cons i is ih =>
    obtain ⟨hi, his⟩ := List.forall_mem_cons.1 hr
    obtain ⟨n, rfl⟩ := Nat.exists_eq_add_one_of_ne_zero (Nat.ne_zero_of_lt hn)
    rw [Port.edges_cons, Port.edge_busy_succ hi rfl]
    simpa using ih his (Nat.le_of_succ_le_succ hn)

/-- A response shown stays until it is taken. -/
theorem Port.edges_responding {p : Port} {r : Response} (hp : p.phase = .responding r) (js : List Pins)
    (h : ∀ j ∈ js, j.rst = false ∧ j.rspReady = false) : p.edges js = p := by
  induction js with
  | nil => rfl
  | cons j js ih =>
    obtain ⟨⟨hr, held⟩, hjs⟩ := List.forall_mem_cons.1 h
    rw [Port.edges_cons, Port.edge_responding hr hp, held]
    exact ih hjs

/-- The pins during the latency of a command and at its end. -/
theorem Port.out_edges_busy {n : Nat} {r : Response} (p : Port) (is : List Pins) (hr : ∀ j ∈ is, j.rst = false)
    (hn : is.length ≤ n + 1) :
    (({ p with phase := .busy n r } : Port).edges is).out false =
      ⟨false, if is.length = n + 1 then some r else none⟩ := by
  by_cases hlast : is.length = n + 1
  · rw [Port.edges_busy_done p is hr hlast, if_pos hlast]
    rfl
  · rw [Port.edges_busy p is hr (by omega), if_neg hlast]
    rfl

/-- Settles O49. The latency is the free value of the command, plus the edge that shows its response. -/
theorem portAnswersEachCommand : Obligations.PortAnswersEachCommand := by
  refine ⟨fun p i hr h => ?_, fun p i t r hr hv hready ht hout => ?_, fun p i r hrsp hr => ?_⟩
  · exact Port.edge_of_not_accepting hr (h.imp_right fun h e => by simp [Port.cmdReady_iff.2 e] at h)
  · rw [Port.edge_accept hr (Port.cmdReady_iff.1 hready) hv, Port.accept_next ht hout]
    refine ⟨rfl, Config.freeLatency p.accepted + 1, Nat.succ_pos _, fun is his hlen => ?_,
      fun is js k his hlen hjs hk taken => ?_⟩
    · exact Port.out_edges_busy ⟨{ t with hostOut := p.arch.hostOut }, p.phase, p.accepted + 1, p.resets⟩ is his hlen
    · rw [Port.edges_append, Port.edges_busy_done
        ⟨{ t with hostOut := p.arch.hostOut }, p.phase, p.accepted + 1, p.resets⟩ is his hlen,
        Port.edges_responding rfl js hjs, Port.edge_responding hk rfl, if_pos taken]
      exact ⟨rfl, rfl, Port.take_accepted hout⟩
  · have hp := Port.rsp_eq_some_iff.1 hrsp
    rw [Port.edge_responding hr hp]
    refine ⟨fun held => ?_, fun taken => ?_⟩
    · rw [held]
      exact Port.out_of_responding hp
    · rw [taken]
      rfl

/-! ## A command from acceptance to response or reset -/

/-- The command `c`, accepted by a port in state `s`, has not been answered yet: it has run and its response is held back
or shown, or it never ends. -/
inductive Port.InFlight (c : Command) (s : State) (q : Port) : Prop where
  | ran {t : State} {r : Response} (run : issue c s = .next t) (answer : t.hostOut = s.hostOut ++ [r])
      (arch : q.arch = { t with hostOut := s.hostOut }) (phase : q.phase = .responding r ∨ ∃ n, q.phase = .busy n r)
  | hung (arch : q.arch = s) (phase : q.phase = .hung)

theorem Port.accept_inFlight (p : Port) (c : Command) : (p.accept c).InFlight c p.arch := by
  obtain ⟨t, r, run, answer, e⟩ | e := p.accept_cases c <;> rw [e]
  · exact .ran run answer rfl (.inr ⟨_, rfl⟩)
  · exact .hung rfl rfl

/-- An edge at which no response is taken leaves the command in flight. -/
theorem Port.InFlight.edge {c : Command} {s : State} {q : Port} (h : q.InFlight c s) {j : Pins} (hr : j.rst = false)
    (hnot : j.rspReady = true → (q.out false).rsp = none) : (q.edge j).InFlight c s := by
  cases h with
  | hung arch phase =>
    rw [Port.edge_hung hr phase]
    exact .hung arch phase
  | @ran t r run answer arch phase =>
    obtain phase | ⟨n, phase⟩ := phase
    · have held : ¬ j.rspReady = true := fun taken => by
        cases (Port.rsp_eq_some_iff.2 phase).symm.trans (hnot taken)
      rw [Port.edge_responding hr phase, if_neg held]
      exact .ran run answer arch (.inl phase)
    · cases n with
      | zero =>
        rw [Port.edge_busy_zero hr phase]
        exact .ran run answer arch (.inl rfl)
      | succ n =>
        rw [Port.edge_busy_succ hr phase]
        exact .ran run answer arch (.inr ⟨n, rfl⟩)

theorem Port.InFlight.edges {c : Command} {s : State} {q : Port} (h : q.InFlight c s) {is : List Pins}
    (hr : ∀ j ∈ is, j.rst = false)
    (hnot : ∀ (pre post : List Pins) (j : Pins), is = pre ++ j :: post → j.rspReady = true →
      ((q.edges pre).out false).rsp = none) : (q.edges is).InFlight c s := by
  induction is generalizing q with
  | nil => exact h
  | cons i is ih =>
    obtain ⟨hi, his⟩ := List.forall_mem_cons.1 hr
    exact ih (h.edge hi (hnot [] is i rfl)) his fun pre post j e => hnot (i :: pre) post j (congrArg (i :: ·) e)

/-- The edge that takes the response completes the state of the command. -/
theorem Port.InFlight.take {c : Command} {s : State} {q : Port} (h : q.InFlight c s) {k : Pins} (hr : k.rst = false)
    (taken : k.rspReady = true) (shown : (q.out false).rsp ≠ none) : issue c s = .next (q.edge k).arch := by
  cases h with
  | hung arch phase => exact absurd (by simp [Port.out, phase]) shown
  | @ran t r run answer arch phase =>
    obtain phase | ⟨n, phase⟩ := phase
    · rw [Port.edge_responding hr phase, if_pos taken, run, Port.take, arch, Port.take_accepted answer]
    · exact absurd (by simp [Port.out, phase]) shown

/-- A reset leaves nothing of the command. -/
theorem Port.InFlight.clearAll {c : Command} {s : State} {q : Port} (h : q.InFlight c s) :
    q.arch.clearAll = s.clearAll := by
  cases h with
  | hung arch phase => rw [arch]
  | @ran t r run answer arch phase =>
    have hin := issue_next_hostIn run
    rw [arch]
    simp [State.clearAll, State.dropTree, State.dropCodesAndDecode, hin]

/-- Settles O53. Until its response is taken the command stays in flight: the edge that takes it completes the state of
the command, and a reset clears what the command left. -/
theorem portAgreesWithTheStep : Obligations.PortAgreesWithTheStep := by
  refine ⟨Port.edge_hostOut, fun p i k is hr hv hready his hnot => ?_⟩
  have hflight : ((p.edge i).edges is).InFlight i.cmd p.arch := by
    have haccept := Port.edge_accept hr (Port.cmdReady_iff.1 hready) hv
    exact (haccept ▸ p.accept_inFlight i.cmd : (p.edge i).InFlight i.cmd p.arch).edges his hnot
  constructor
  · exact fun hk taken shown => (step_of_command rfl).trans (hflight.take hk taken shown)
  · intro hk
    rw [Port.edge_rst hk]
    exact (step_of_reset (.inr ⟨i.cmd, rfl⟩)).trans (congrArg _ hflight.clearAll.symm)

end Sys2Proof.Machine
end
